-- ==== Sys2Proof/Word.lean ====
section
/-! DEFINITION. The widths of the values this hardware moves (spec/00_scope.md rule R9): bits, bytes, symbols, messages. -/

namespace Sys2Proof

/-- A bit sample, "0 or 1" (20_memory.md R43): `true` is 1. -/
abbrev Bit := Bool

/-- An 8-bit value (R9). -/
abbrev Byte := BitVec 8

/-- The encoder's two output bits for one input bit; bit 1 is the first of the pair (30_encoding.md R71). -/
abbrev Symbol := BitVec 2

/-- A trellis state, "3-bit shift-register contents" (44_viterbi.md R136). -/
abbrev Trellis := BitVec 3

/-- The form exchanged with the host, "HWID(2) | Seqnum(2) | Data(N)" (30_encoding.md R66). -/
abbrev Message := List Byte

end Sys2Proof
end

