-- ==== Sys2Proof/Config.lean ====
section
/-! DEFINITION. What an implementation of the block fixes: the model parameters of spec/00_scope.md rule R8, as one record that
every meaning takes as an argument, and the two values the spec leaves open. The values this machine runs with stand in
Machine/Params.lean. -/

namespace Sys2Proof
namespace Config

/-- VIT_TIE: which candidate survives when the two costs are equal (44_viterbi.md R140). -/
inductive VitTie where
  /-- candidate 0, the lower-numbered source state, survives a tie (the default) -/
  | first
  /-- candidate 1 survives a tie -/
  | second
  deriving DecidableEq, Repr

/-- The rows of rule R8 marked "model parameter". -/
structure Params where
  /-- ENC_TABLE, 16 entries (30_encoding.md R80) -/
  encTable : Vector Symbol 16
  /-- ENC_SEED, the 3 state bits at the start of a call (43_conv_encoder.md R121) -/
  encSeed : BitVec 3
  /-- VIT_INIT_COST (44_viterbi.md R137) -/
  vitInitCost : Vector Nat 8
  /-- VIT_TIE (44_viterbi.md R140) -/
  vitTie : VitTie
  /-- ILV_PERM, output position to input position (30_encoding.md R83) -/
  ilvPerm : Vector (Fin 16) 16
  /-- BITBUF_CAP, how many bits `bitbuf` can hold; `none` is "no bound", the default (20_memory.md R44, log entry 16) -/
  bitbufCap : Option Nat
  /-- VIT_COST_WIDTH, the width of a cost register. The model holds costs as natural numbers and no operation reads the width; the
  claims say that the costs fit it (10_state.md R15, 44_viterbi.md R142; log entry 14) -/
  vitCostWidth : Nat
  deriving DecidableEq, Repr

/-- The cause code of a refusal that the spec gives no code: 41_crc16.md R105 says that an operand outside the operand type "is
refused", and the table of 60_exceptions.md R201 numbers no such cause. A free value per operation number (log entry 3). -/
opaque operandRefusalCode : Nat → BitVec 8

/-- The cause code of the refusal of a DFR.PUSH that a finite BITBUF_CAP cannot hold: the spec suggests the refusal
(93_implementation_defined.md A18) and gives no code. A free value (log entry 16). -/
opaque overflowRefusalCode : BitVec 8

end Config
end Sys2Proof
end

