-- ==== Sys2Proof/Syntax.lean ====
section
/-! DEFINITION. The operations of spec/30_encoding.md rule R75 with their typed operands, one constructor per row of
spec/opcode_table.json. -/

namespace Sys2Proof

/-- The operand of CFG.LOAD (30_encoding.md R73): the nine fields of 10_state.md R30 as the host gives them, before the width
checks of 46_deframer.md R170. A field may hold a value wider than its register: that is what ConfigError(Range) is about. -/
structure CfgRecord where
  preambleLen : Nat
  quality : Nat
  sync0 : Nat
  sync1 : Nat
  syncRep : Nat
  flags : Nat
  flagsMask : Nat
  fecEn : Nat
  whitenEn : Nat
  deriving DecidableEq, Repr

/-- The 27 operations (30_encoding.md R75): 20 the host may issue and 7 internal sub-steps of DFR.PUSH. -/
inductive Instr where
  | cfgLoad (rec : CfgRecord)
  | pn9Seed
  | pn9Next
  | pn9Whiten (b : Byte)
  | crcInit
  | crcUpdate (b : Byte)
  | crcCalc (data : List Byte)
  | crcVerify (f : List Byte)
  | ilvXform (blk : List Byte)
  | cencSeed
  | cencBit (x : Bit)
  | cencByte (b : Byte)
  | fecEncode (data : List Byte)
  | vitStart
  | vitSymbol (y : Symbol)
  | vitSend (chunk : List Byte)
  | frmEncode (m : Message)
  | frmSerialize (f : List Byte)
  /-- the samples as the host gives them, one byte each: only 0 and 1 are bit samples (20_memory.md R43) -/
  | dfrPush (q : List Byte)
  | dfrReset
  | dfrValidate (body : List Byte)
  | dfrStepSeekingPreamble
  | dfrStepSeekingSyncWord
  | dfrStepAwaitingLength
  | dfrStepAwaitingLengthFEC
  | dfrStepAwaitingData
  | dfrStepAwaitingDataFEC
  deriving DecidableEq, Repr

end Sys2Proof
end

