-- ==== Sys2Proof/WellFormed.lean ====
section
/-! DEFINITION. Which operations the operation port can carry. The types of the operands already hold bytes, bits and symbols to
their widths (spec/30_encoding.md R74, "typed values"); only the nine numbers of a configuration record need a check: the port
carries 16 bits for each (log entry 2). -/

namespace Sys2Proof

/-- The field value fits the 16 bits the port gives it. -/
abbrev fitsPort (n : Nat) : Bool := decide (n < 65536)

/-- Every field of the record fits the port. -/
def CfgRecord.wf (r : CfgRecord) : Bool :=
  fitsPort r.preambleLen && fitsPort r.quality && fitsPort r.sync0 && fitsPort r.sync1 && fitsPort r.syncRep &&
    fitsPort r.flags && fitsPort r.flagsMask && fitsPort r.fecEn && fitsPort r.whitenEn

/-- An operation the port can carry. -/
def WellFormed : Instr → Bool
  | .cfgLoad r => r.wf
  | .pn9Seed => true
  | .pn9Next => true
  | .pn9Whiten _ => true
  | .crcInit => true
  | .crcUpdate _ => true
  | .crcCalc _ => true
  | .crcVerify _ => true
  | .ilvXform _ => true
  | .cencSeed => true
  | .cencBit _ => true
  | .cencByte _ => true
  | .fecEncode _ => true
  | .vitStart => true
  | .vitSymbol _ => true
  | .vitSend _ => true
  | .frmEncode _ => true
  | .frmSerialize _ => true
  | .dfrPush _ => true
  | .dfrReset => true
  | .dfrValidate _ => true
  | .dfrStepSeekingPreamble => true
  | .dfrStepSeekingSyncWord => true
  | .dfrStepAwaitingLength => true
  | .dfrStepAwaitingLengthFEC => true
  | .dfrStepAwaitingData => true
  | .dfrStepAwaitingDataFEC => true

end Sys2Proof
end

