-- ==== Sys2Proof/Decode.lean ====
section
/-! DEFINITION. The operation numbers of spec/30_encoding.md R75 and the operand layout at the operation port (the spec gives the
numbers; "how a host carries them to the block is outside the codec", R74, so the layout is log entry 1). -/

namespace Sys2Proof

/-- Who issues an operation: the "issuer" column of spec/opcode_table.json. -/
inductive Issuer where
  /-- the host: 20 operations -/
  | host
  /-- the block's own sequencer inside DFR.PUSH: DFR.VALIDATE and the six DFR.STEP rows (30_encoding.md R74) -/
  | sequencer
  deriving DecidableEq, Repr

/-- One row of the operation table. -/
structure OpRow where
  op : Byte
  mnemonic : String
  issuer : Issuer
  deriving DecidableEq, Repr

/-- The operation table of 30_encoding.md R75, row for row. -/
def opTable : List OpRow :=
  [⟨0x00#8, "CFG.LOAD", .host⟩, ⟨0x10#8, "PN9.SEED", .host⟩, ⟨0x11#8, "PN9.NEXT", .host⟩, ⟨0x12#8, "PN9.WHITEN", .host⟩,
   ⟨0x20#8, "CRC.INIT", .host⟩, ⟨0x21#8, "CRC.UPDATE", .host⟩, ⟨0x22#8, "CRC.CALC", .host⟩, ⟨0x23#8, "CRC.VERIFY", .host⟩,
   ⟨0x30#8, "ILV.XFORM", .host⟩, ⟨0x40#8, "CENC.SEED", .host⟩, ⟨0x41#8, "CENC.BIT", .host⟩, ⟨0x42#8, "CENC.BYTE", .host⟩,
   ⟨0x43#8, "FEC.ENCODE", .host⟩, ⟨0x50#8, "VIT.START", .host⟩, ⟨0x51#8, "VIT.SYMBOL", .host⟩, ⟨0x52#8, "VIT.SEND", .host⟩,
   ⟨0x60#8, "FRM.ENCODE", .host⟩, ⟨0x61#8, "FRM.SERIALIZE", .host⟩, ⟨0x70#8, "DFR.PUSH", .host⟩, ⟨0x71#8, "DFR.RESET", .host⟩,
   ⟨0x72#8, "DFR.VALIDATE", .sequencer⟩, ⟨0x78#8, "DFR.STEP.SeekingPreamble", .sequencer⟩,
   ⟨0x79#8, "DFR.STEP.SeekingSyncWord", .sequencer⟩, ⟨0x7A#8, "DFR.STEP.AwaitingLength", .sequencer⟩,
   ⟨0x7B#8, "DFR.STEP.AwaitingLengthFEC", .sequencer⟩, ⟨0x7C#8, "DFR.STEP.AwaitingData", .sequencer⟩,
   ⟨0x7D#8, "DFR.STEP.AwaitingDataFEC", .sequencer⟩]

/-- The row of an operation number, if the table lists it. -/
def opRow? (op : Byte) : Option OpRow := opTable.find? fun r => r.op == op

/-- The numbers only the sequencer may use (30_encoding.md R76(a): 0x72 and 0x78 to 0x7D). -/
def isInternalOp (op : Byte) : Bool := opTable.any fun r => r.op == op && r.issuer == .sequencer

/-- What the decoder reads from a request. -/
inductive Decoded where
  /-- the operation and its operands -/
  | instr (i : Instr)
  /-- the operation number is not in the table (30_encoding.md R76(a)) -/
  | illegalOperation (op : Byte)
  /-- the operand bytes hold no value of the operation's operand type (log entry 3) -/
  | operandType (op : Byte)
  deriving DecidableEq, Repr

/-- A 16-bit number at byte `k` of the operand, low byte first (log entry 2). -/
def fieldAt (a : List Byte) (k : Nat) : Nat := (a.getD k 0#8).toNat + 256 * (a.getD (k + 1) 0#8).toNat

/-- The operand of CFG.LOAD: nine 16-bit numbers in field-number order (30_encoding.md R73, log entry 2). -/
def cfgOperand (a : List Byte) : Option CfgRecord :=
  if a.length = 18 then
    some ⟨fieldAt a 0, fieldAt a 2, fieldAt a 4, fieldAt a 6, fieldAt a 8, fieldAt a 10, fieldAt a 12, fieldAt a 14,
      fieldAt a 16⟩
  else none

/-- A one-byte operand. -/
def byteOperand : List Byte → Option Byte
  | [b] => some b
  | _ => none

/-- A bit operand: one byte, 0 or 1. -/
def bitOperand : List Byte → Option Bit
  | [b] => if b = 0#8 then some false else if b = 1#8 then some true else none
  | _ => none

/-- A symbol operand: one byte, 0 to 3. -/
def symbolOperand : List Byte → Option Symbol
  | [b] => if b.toNat < 4 then some (b.setWidth 2) else none
  | _ => none

/-- No operand. -/
def noOperand : List Byte → Option Unit
  | [] => some ()
  | _ => none

/-- `i` applied to the operand, or the rejection of an operand that is not of the operation's type. -/
def withOperand {α : Type} (op : Byte) (a : Option α) (i : α → Instr) : Decoded :=
  match a with
  | some x => .instr (i x)
  | none => .operandType op

/-- The decoder: the operation number selects the row of R75, and the operand bytes give its operand. Total; a number the table
does not list is rejected as IllegalOperation (R76(a)). -/
def decode (op : Byte) (a : List Byte) : Decoded :=
  match op.toNat with
  | 0x00 => withOperand op (cfgOperand a) .cfgLoad
  | 0x10 => withOperand op (noOperand a) fun _ => .pn9Seed
  | 0x11 => withOperand op (noOperand a) fun _ => .pn9Next
  | 0x12 => withOperand op (byteOperand a) .pn9Whiten
  | 0x20 => withOperand op (noOperand a) fun _ => .crcInit
  | 0x21 => withOperand op (byteOperand a) .crcUpdate
  | 0x22 => .instr (.crcCalc a)
  | 0x23 => .instr (.crcVerify a)
  | 0x30 => .instr (.ilvXform a)
  | 0x40 => withOperand op (noOperand a) fun _ => .cencSeed
  | 0x41 => withOperand op (bitOperand a) .cencBit
  | 0x42 => withOperand op (byteOperand a) .cencByte
  | 0x43 => .instr (.fecEncode a)
  | 0x50 => withOperand op (noOperand a) fun _ => .vitStart
  | 0x51 => withOperand op (symbolOperand a) .vitSymbol
  | 0x52 => .instr (.vitSend a)
  | 0x60 => .instr (.frmEncode a)
  | 0x61 => .instr (.frmSerialize a)
  | 0x70 => .instr (.dfrPush a)
  | 0x71 => withOperand op (noOperand a) fun _ => .dfrReset
  | 0x72 => .instr (.dfrValidate a)
  | 0x78 => withOperand op (noOperand a) fun _ => .dfrStepSeekingPreamble
  | 0x79 => withOperand op (noOperand a) fun _ => .dfrStepSeekingSyncWord
  | 0x7A => withOperand op (noOperand a) fun _ => .dfrStepAwaitingLength
  | 0x7B => withOperand op (noOperand a) fun _ => .dfrStepAwaitingLengthFEC
  | 0x7C => withOperand op (noOperand a) fun _ => .dfrStepAwaitingData
  | 0x7D => withOperand op (noOperand a) fun _ => .dfrStepAwaitingDataFEC
  | _ => .illegalOperation op

/-- The operation number of each operation (R75). -/
def opcode : Instr → Byte
  | .cfgLoad _ => 0x00#8
  | .pn9Seed => 0x10#8
  | .pn9Next => 0x11#8
  | .pn9Whiten _ => 0x12#8
  | .crcInit => 0x20#8
  | .crcUpdate _ => 0x21#8
  | .crcCalc _ => 0x22#8
  | .crcVerify _ => 0x23#8
  | .ilvXform _ => 0x30#8
  | .cencSeed => 0x40#8
  | .cencBit _ => 0x41#8
  | .cencByte _ => 0x42#8
  | .fecEncode _ => 0x43#8
  | .vitStart => 0x50#8
  | .vitSymbol _ => 0x51#8
  | .vitSend _ => 0x52#8
  | .frmEncode _ => 0x60#8
  | .frmSerialize _ => 0x61#8
  | .dfrPush _ => 0x70#8
  | .dfrReset => 0x71#8
  | .dfrValidate _ => 0x72#8
  | .dfrStepSeekingPreamble => 0x78#8
  | .dfrStepSeekingSyncWord => 0x79#8
  | .dfrStepAwaitingLength => 0x7A#8
  | .dfrStepAwaitingLengthFEC => 0x7B#8
  | .dfrStepAwaitingData => 0x7C#8
  | .dfrStepAwaitingDataFEC => 0x7D#8

/-- The mnemonic of each operation, as spec/opcode_table.json spells it. -/
def mnemonic : Instr → String
  | .cfgLoad _ => "CFG.LOAD"
  | .pn9Seed => "PN9.SEED"
  | .pn9Next => "PN9.NEXT"
  | .pn9Whiten _ => "PN9.WHITEN"
  | .crcInit => "CRC.INIT"
  | .crcUpdate _ => "CRC.UPDATE"
  | .crcCalc _ => "CRC.CALC"
  | .crcVerify _ => "CRC.VERIFY"
  | .ilvXform _ => "ILV.XFORM"
  | .cencSeed => "CENC.SEED"
  | .cencBit _ => "CENC.BIT"
  | .cencByte _ => "CENC.BYTE"
  | .fecEncode _ => "FEC.ENCODE"
  | .vitStart => "VIT.START"
  | .vitSymbol _ => "VIT.SYMBOL"
  | .vitSend _ => "VIT.SEND"
  | .frmEncode _ => "FRM.ENCODE"
  | .frmSerialize _ => "FRM.SERIALIZE"
  | .dfrPush _ => "DFR.PUSH"
  | .dfrReset => "DFR.RESET"
  | .dfrValidate _ => "DFR.VALIDATE"
  | .dfrStepSeekingPreamble => "DFR.STEP.SeekingPreamble"
  | .dfrStepSeekingSyncWord => "DFR.STEP.SeekingSyncWord"
  | .dfrStepAwaitingLength => "DFR.STEP.AwaitingLength"
  | .dfrStepAwaitingLengthFEC => "DFR.STEP.AwaitingLengthFEC"
  | .dfrStepAwaitingData => "DFR.STEP.AwaitingData"
  | .dfrStepAwaitingDataFEC => "DFR.STEP.AwaitingDataFEC"

/-- A 16-bit number as two bytes, low byte first (log entry 2). -/
def fieldBytes (n : Nat) : List Byte := [BitVec.ofNat 8 n, BitVec.ofNat 8 (n / 256)]

/-- The 18 operand bytes of a configuration record (log entry 2). -/
def cfgBytes (r : CfgRecord) : List Byte :=
  fieldBytes r.preambleLen ++ fieldBytes r.quality ++ fieldBytes r.sync0 ++ fieldBytes r.sync1 ++ fieldBytes r.syncRep ++
    fieldBytes r.flags ++ fieldBytes r.flagsMask ++ fieldBytes r.fecEn ++ fieldBytes r.whitenEn

/-- The operand bytes of an operation. -/
def operandBytes : Instr → List Byte
  | .cfgLoad r => cfgBytes r
  | .pn9Seed => []
  | .pn9Next => []
  | .pn9Whiten b => [b]
  | .crcInit => []
  | .crcUpdate b => [b]
  | .crcCalc data => data
  | .crcVerify f => f
  | .ilvXform blk => blk
  | .cencSeed => []
  | .cencBit x => [if x then 1#8 else 0#8]
  | .cencByte b => [b]
  | .fecEncode data => data
  | .vitStart => []
  | .vitSymbol y => [y.setWidth 8]
  | .vitSend chunk => chunk
  | .frmEncode m => m
  | .frmSerialize f => f
  | .dfrPush q => q
  | .dfrReset => []
  | .dfrValidate body => body
  | .dfrStepSeekingPreamble => []
  | .dfrStepSeekingSyncWord => []
  | .dfrStepAwaitingLength => []
  | .dfrStepAwaitingLengthFEC => []
  | .dfrStepAwaitingData => []
  | .dfrStepAwaitingDataFEC => []

/-- The encoder: the operation number and the operand bytes of an operation. -/
def encode (i : Instr) : Byte × List Byte := (opcode i, operandBytes i)

/-- The operations only the sequencer issues (R74). -/
def Instr.isInternal (i : Instr) : Bool := isInternalOp (opcode i)

/-- How many operand bytes the operation's operand type has at least: the operand words that the table gives no bits. -/
def fixedOperandBytes (op : Byte) : Nat :=
  match op.toNat with
  | 0x00 => 18
  | 0x12 => 1
  | 0x21 => 1
  | 0x41 => 1
  | 0x42 => 1
  | 0x51 => 1
  | _ => 0

/-- Byte `k` of the number `w`, byte 0 the least significant. -/
def byteOf (w k : Nat) : Byte := BitVec.ofNat 8 (w / 256 ^ k)

/-- The operation number of an instruction whose bits are `w`: its first byte. -/
def opOfWord (w : Nat) : Byte := byteOf w 0

/-- The operand bytes of an instruction whose first `nbits` bits are `w` and whose further bits are 0. -/
def operandOfWord (nbits w : Nat) : List Byte :=
  let given := (List.range (nbits / 8 - 1)).map fun k => byteOf w (k + 1)
  given ++ List.replicate (fixedOperandBytes (opOfWord w) - given.length) 0#8

/-- The instruction the decoder reads from an instruction whose bits are `w` (further bits 0). -/
def decodeTableWord (nbits w : Nat) : Option Instr :=
  match decode (opOfWord w) (operandOfWord nbits w) with
  | .instr i => some i
  | .illegalOperation _ => none
  | .operandType _ => none

end Sys2Proof
end

