-- ==== Sys2Proof/Machine/State.lean ====
section
/-! DEFINITION. The state of the block (spec/10_state.md), the errors, events and results it can report (spec/60_exceptions.md),
and its value after reset (10_state.md R35, 70_reset_and_hazards.md R225). -/

namespace Sys2Proof
namespace Machine

/-- The deframer's state register (10_state.md R20, codes 0 to 5 of 30_encoding.md R72 in this order; codes 6 and 7 are never
held, so they are not constructors). -/
inductive FState where
  | seekingPreamble
  | seekingSyncWord
  | awaitingLength
  | awaitingLengthFEC
  | awaitingData
  | awaitingDataFEC
  deriving DecidableEq, Repr

/-- The configuration registers, each with the width of 10_state.md R30; the two 1-bit fields are Bools. -/
structure Cfg where
  preambleLen : BitVec 8
  quality : BitVec 11
  sync0 : Byte
  sync1 : Byte
  syncRep : BitVec 2
  flags : Byte
  flagsMask : Byte
  fecEn : Bool
  whitenEn : Bool
  deriving DecidableEq, Repr

/-- One generation of a Viterbi session: the eight path costs (R15, natural numbers) and the eight traceback registers (R16). -/
structure Generation where
  cost : Vector Nat 8
  path : Vector (BitVec 32) 8
  deriving DecidableEq, Repr

/-- A Viterbi session (10_state.md R15 to R19): two generations, the path-bit counter and the index of the current generation. -/
structure Session where
  gen0 : Generation
  gen1 : Generation
  /-- `vit.nbits` (R17) -/
  nbits : Nat
  /-- `vit.cur` (R18): `false` is 0 -/
  cur : Bit
  deriving DecidableEq, Repr

/-- The deframer's registers (10_state.md R19 to R24). An `Option` here is the spec's own "none": the register exists only while
a frame is received (R35). -/
structure Deframer where
  fstate : FState
  /-- first element = head of the FIFO (R21) -/
  bitbuf : List Bit
  length : Option Byte
  decbuf : List Byte
  /-- `d.pn9` (R24) -/
  pn9 : Option (BitVec 9)
  vit : Option Session
  deriving DecidableEq, Repr

/-- The unit scratch registers `u.*` (10_state.md R26). -/
structure Scratch where
  pn9 : Option (BitVec 9)
  crc : Option (BitVec 16)
  enc : Option (BitVec 11)
  vit : Option Session
  deriving DecidableEq, Repr

/-- Which register held `none` when it was read (the recorded value of StateAbsent, 60_exceptions.md R201). -/
inductive RegName where
  | uPn9
  | uCrc
  | uEnc
  | uVit
  | dPn9
  | vit
  | length
  | cfg
  deriving DecidableEq, Repr

/-- Which check of CFG.LOAD failed (46_deframer.md R170). -/
inductive ConfigCheck where
  | alreadyLoaded
  | syncRep
  | preambleLen
  | range
  deriving DecidableEq, Repr

/-- The errors of 60_exceptions.md R201 with their recorded values, and the two refusals without a cause code (log entries 3
and 16). -/
inductive Err where
  | crcError (expected actual : BitVec 16)
  | malformedInterleaveInput (len : Nat)
  | unsupportedRemainder (size : Nat)
  | stateAbsent (reg : RegName)
  | configError (check : ConfigCheck)
  | illegalOperation (op : Byte)
  | notConfigured
  | badMessageLength (len : Nat)
  | badBitSample (index : Nat)
  | faulted
  /-- an operand outside the operation's operand type: refused (41_crc16.md R105; log entry 3) -/
  | operandType (op : Byte)
  /-- DFR.PUSH would make `bitbuf` hold more bits than a finite BITBUF_CAP (93_implementation_defined.md A18; log entry 16); never
  raised with the default, no bound -/
  | bufferOverflow (bits : Nat)
  deriving DecidableEq, Repr

/-- What the deframer puts on its outward ports (60_exceptions.md R208): `Deliver` on the delivery port, the others on the event
port. -/
inductive Event where
  | deliver (m : Message)
  | crcError (expected actual : BitVec 16)
  | shortLength (len : Byte)
  | filtered (flags : Byte)
  deriving DecidableEq, Repr

/-- What an operation answers to its issuer (the results column of 30_encoding.md R75, or an error). -/
inductive Result where
  | none
  | byte (b : Byte)
  | word (c : BitVec 16)
  | ok
  | bytes (bs : List Byte)
  | symbol (y : Symbol)
  | bits (q : List Bit)
  | messages (ms : List Message)
  /-- what a DFR.STEP answers: it made progress, or it waits (46_deframer.md R173) -/
  | progress (moved : Bool)
  | error (e : Err)
  deriving DecidableEq, Repr

/-- What waits at the block's inputs: an issued operation, or the reset input (70_reset_and_hazards.md R225: a pin, not an
operation). -/
inductive Request where
  | operation (issuer : Issuer) (op : Byte) (operand : List Byte)
  | reset
  deriving DecidableEq, Repr

/-- The whole state of one pipeline instance and its ports. -/
structure State where
  dfr : Deframer
  u : Scratch
  /-- the fault latch (R25) -/
  fault : Bool
  /-- `cfg_loaded` (R25) -/
  cfgLoaded : Bool
  /-- CFG, `none` until CFG.LOAD (R30, R35) -/
  cfg : Option Cfg
  /-- MODEL's own: the requests the outside has issued and the block has not yet taken, oldest first (log entry 1) -/
  port : List Request
  /-- MODEL's own: the answer to the last operation (log entry 4) -/
  result : Result
  /-- MODEL's own: the delivery and event ports of the last operation, in order (60_exceptions.md R208; log entry 5) -/
  events : List Event
  deriving DecidableEq, Repr

/-- A step of this machine never ends in a fault of the model: every error the spec describes has an effect the spec gives (the
`fault` latch of 60_exceptions.md R200 is state, not this type), so nobody raises one and the type has no constructor. Safe: there
is nothing a claim could rest on. -/
inductive Fault where
  deriving DecidableEq, Repr

/-- Why exec has no meaning for an instruction. -/
inductive Refusal where
  /-- Raised only by a refused arm of exec, for an instruction without a meaning; no arm of this model is refused. Safe: a refused
  run proves nothing. -/
  | notModelled (mnemonic : String)
  deriving DecidableEq, Repr

/-- The deframer's registers after reset (R35). -/
def Deframer.reset : Deframer := ⟨.seekingPreamble, [], none, [], none, none⟩

/-- The scratch registers after reset (R35): none holds a value. -/
def Scratch.reset : Scratch := ⟨none, none, none, none⟩

/-- The machine right after reset (10_state.md R35, 70_reset_and_hazards.md R225), with nothing issued and nothing reported. -/
def State.reset : State :=
  { dfr := Deframer.reset, u := Scratch.reset, fault := false, cfgLoaded := false, cfg := none, port := [], result := .none,
    events := [] }

end Machine
end Sys2Proof
end

