-- ==== Sys2Proof/Machine/Flags.lean ====
section
/-! DEFINITION. The status bits (spec/10_state.md R25: no condition codes and no arithmetic flags, only `fault` and `cfg_loaded`) and
how each error bears on them: the classes and cause codes of spec/60_exceptions.md R200 and R201. -/

namespace Sys2Proof
namespace Machine

/-- The classes of 60_exceptions.md R200 that an operation can report. -/
inductive ErrClass where
  | recoverable
  | fatal
  | refusal
  deriving DecidableEq, Repr

/-- The class of each error (R201). -/
def errClass : Err → ErrClass
  | .crcError _ _ => .recoverable
  | .malformedInterleaveInput _ => .fatal
  | .unsupportedRemainder _ => .fatal
  | .stateAbsent _ => .fatal
  | .configError _ => .refusal
  | .illegalOperation _ => .refusal
  | .notConfigured => .refusal
  | .badMessageLength _ => .refusal
  | .badBitSample _ => .refusal
  | .faulted => .refusal
  | .operandType _ => .refusal
  | .bufferOverflow _ => .refusal

/-- The error sets the fault latch (R200). -/
def isFatal (e : Err) : Bool := errClass e == .fatal

/-- The cause code of each error (R201); the two refusals without one have free codes (log entries 3 and 16). -/
def errCode : Err → BitVec 8
  | .crcError _ _ => 1#8
  | .malformedInterleaveInput _ => 2#8
  | .unsupportedRemainder _ => 3#8
  | .stateAbsent _ => 4#8
  | .configError _ => 5#8
  | .illegalOperation _ => 6#8
  | .notConfigured => 7#8
  | .badMessageLength _ => 8#8
  | .badBitSample _ => 9#8
  | .faulted => 10#8
  | .operandType op => Config.operandRefusalCode op.toNat
  | .bufferOverflow _ => Config.overflowRefusalCode

/-- The 3-bit code of a deframer state (30_encoding.md R72). -/
def fstateCode : FState → BitVec 3
  | .seekingPreamble => 0#3
  | .seekingSyncWord => 1#3
  | .awaitingLength => 2#3
  | .awaitingLengthFEC => 3#3
  | .awaitingData => 4#3
  | .awaitingDataFEC => 5#3

end Machine
end Sys2Proof
end

