-- ==== Sys2Proof/Machine/Ops.lean ====
section
/-! DEFINITION. The operations every meaning shares: answering, raising an error (this hardware's taking of an exception), reset
(the only way back from a fatal error), the refusal while `fault = 1`, and the two buffers (spec/00_scope.md R9,
spec/20_memory.md R41 and R42). -/

namespace Sys2Proof
namespace Machine

/-- What a meaning answers. -/
abbrev Answer := Host.Outcome State Fault Refusal

/-- An operation ends with a result and with what it put on the delivery and event ports. -/
def respond (r : Result) (ev : List Event) (s : State) : State := { s with result := r, events := ev }

/-- `raise E(info)` (00_scope.md R9; 60_exceptions.md R200, R215): the operation answers the error, a fatal error sets `fault`, and
nothing else changes. Nothing is saved, no mode changes and no control goes to a handler (R215). -/
def raise (e : Err) (s : State) : State :=
  { s with fault := s.fault || isFatal e, result := .error e, events := [] }

/-- The hardware reset (70_reset_and_hazards.md R225): all state as after reset; requests issued after the reset stay at the port
(log entry 20). R217: there is no other return from a fatal error. -/
def hardwareReset (s : State) : State := { State.reset with port := s.port }

/-- Every operation but reset is refused while `fault = 1` (10_state.md R25, 60_exceptions.md R212); the check comes before the
operation's own (R213). -/
def guarded (s : State) (answer : Answer) : Answer := if s.fault then .next (raise .faulted s) else answer

/-- `BufLen()` (R9). -/
def bufLen (d : Deframer) : Nat := d.bitbuf.length

/-- `BufAppend(q)` (20_memory.md R41) into a buffer of capacity `cap`, the parameter BITBUF_CAP (R44): with no bound it always
appends; bits that a finite capacity cannot hold are refused as a whole (log entry 16). -/
def bufAppend (cap : Option Nat) (q : List Bit) (d : Deframer) : Except Err Deframer :=
  match cap with
  | none => .ok { d with bitbuf := d.bitbuf ++ q }
  | some n =>
    if n < bufLen d + q.length then .error (.bufferOverflow (bufLen d + q.length))
    else .ok { d with bitbuf := d.bitbuf ++ q }

/-- `BufPeek(n)` (R41). -/
def bufPeek (n : Nat) (d : Deframer) : List Bit := d.bitbuf.take n

/-- `BufDrop(n)` (R41). -/
def bufDrop (n : Nat) (d : Deframer) : Deframer := { d with bitbuf := d.bitbuf.drop n }

/-- `DecAppend(bs)` (R9, 20_memory.md R42). -/
def decAppend (bs : List Byte) (d : Deframer) : Deframer := { d with decbuf := d.decbuf ++ bs }

/-- The messages on the delivery port (60_exceptions.md R208), in order. -/
def delivered (ev : List Event) : List Message :=
  ev.filterMap fun
    | .deliver m => some m
    | .crcError _ _ => none
    | .shortLength _ => none
    | .filtered _ => none

end Machine
end Sys2Proof
end

