-- ==== Sys2Proof/Machine/Configuration.lean ====
section
/-! DEFINITION. CFG.LOAD (spec/46_deframer.md R170, spec/10_state.md R30 to R32). -/

namespace Sys2Proof
namespace Machine

/-- Every field fits its width of 10_state.md R30. -/
def inRange (r : CfgRecord) : Bool :=
  decide (r.preambleLen < 256) && decide (r.quality < 2048) && decide (r.sync0 < 256) && decide (r.sync1 < 256) &&
    decide (r.syncRep < 4) && decide (r.flags < 256) && decide (r.flagsMask < 256) && decide (r.fecEn < 2) &&
    decide (r.whitenEn < 2)

/-- The first check of R170 that the record fails, in the order written there. -/
def configProblem (loaded : Bool) (r : CfgRecord) : Option ConfigCheck :=
  if loaded then some .alreadyLoaded
  else if r.syncRep ≠ 1 ∧ r.syncRep ≠ 2 then some .syncRep
  else if r.preambleLen = 0 then some .preambleLen
  else if inRange r = false then some .range
  else none

/-- The configuration registers a record in range loads (R170, `CFG <- rec`). -/
def cfgOfRecord (r : CfgRecord) : Cfg :=
  { preambleLen := BitVec.ofNat 8 r.preambleLen, quality := BitVec.ofNat 11 r.quality, sync0 := BitVec.ofNat 8 r.sync0,
    sync1 := BitVec.ofNat 8 r.sync1, syncRep := BitVec.ofNat 2 r.syncRep, flags := BitVec.ofNat 8 r.flags,
    flagsMask := BitVec.ofNat 8 r.flagsMask, fecEn := decide (r.fecEn = 1), whitenEn := decide (r.whitenEn = 1) }

/-- CFG.LOAD (R170). -/
def execCfgLoad (r : CfgRecord) (s : State) : Answer :=
  guarded s (match configProblem s.cfgLoaded r with
    | some k => .next (raise (.configError k) s)
    | none => .next (respond .none [] { s with cfg := some (cfgOfRecord r), cfgLoaded := true }))

end Machine
end Sys2Proof
end

