-- ==== Sys2Proof/Machine/Operands.lean ====
section
/-! DEFINITION. The orders in which operands travel (spec/20_memory.md R45 to R49): the bits of a byte, the bytes and the symbols of
a 32-bit word, the bytes of the checksum field, and sub-sequences. -/

namespace Sys2Proof
namespace Machine

/-- `Ser(b)`, most significant bit first (00_scope.md R9, 20_memory.md R46). -/
def serByte (b : Byte) : List Bit :=
  [b.getLsbD 7, b.getLsbD 6, b.getLsbD 5, b.getLsbD 4, b.getLsbD 3, b.getLsbD 2, b.getLsbD 1, b.getLsbD 0]

/-- `Ser` of a byte sequence (R9). -/
def ser (bs : List Byte) : List Bit := bs.flatMap serByte

/-- The byte whose bits are the (at most eight) given ones, first bit on top (R9). -/
def packByte (q : List Bit) : Byte := q.foldl (fun acc x => acc <<< 1 ||| (BitVec.ofBool x).setWidth 8) 0#8

/-- The first `n` bytes of a bit sequence. -/
def packBytes : Nat → List Bit → List Byte
  | 0, _ => []
  | n + 1, q => packByte (q.take 8) :: packBytes n (q.drop 8)

/-- `Pack(q)`, the inverse of `Ser` (R9). -/
def pack (q : List Bit) : List Byte := packBytes (q.length / 8) q

/-- `s[i .. j)` (R9). -/
def slice {α : Type} (s : List α) (i j : Nat) : List α := (s.take j).drop i

/-- The word of four bytes, the first on top (20_memory.md R47). -/
def wordOfBytes (b0 b1 b2 b3 : Byte) : BitVec 32 := b0 ++ b1 ++ b2 ++ b3

/-- The four bytes of a word, the top byte first (R47). -/
def bytesOfWord (w : BitVec 32) : List Byte :=
  [w.extractLsb' 24 8, w.extractLsb' 16 8, w.extractLsb' 8 8, w.extractLsb' 0 8]

/-- `sym(k) = W[31-2k : 30-2k]` (20_memory.md R49, 30_encoding.md R70). -/
def symbolAt (w : BitVec 32) (k : Nat) : Symbol := w.extractLsb' (30 - 2 * k) 2

/-- The 16 symbols of a word, symbol 0 first in time (30_encoding.md R70). -/
def symbols (w : BitVec 32) : List Symbol := (List.range 16).map (symbolAt w)

/-- The word whose symbols are the given ones, the first on top. -/
def wordOfSymbols (ys : List Symbol) : BitVec 32 := ys.foldl (fun acc y => acc <<< 2 ||| y.setWidth 32) 0#32

/-- A 16-bit checksum as two bytes, low byte first (20_memory.md R48). -/
def crcBytes (c : BitVec 16) : List Byte := [c.extractLsb' 0 8, c.extractLsb' 8 8]

/-- The 16-bit value of two bytes, low byte first (20_memory.md R48, 41_crc16.md R105). -/
def crcOfBytes (lo hi : Byte) : BitVec 16 := hi ++ lo

/-- `popcount2(a xor b)`, the Hamming distance of two symbols (00_scope.md R9, 44_viterbi.md R138). -/
def hamming2 (a b : Symbol) : Nat :=
  (a.getLsbD 1 ^^ b.getLsbD 1).toNat + (a.getLsbD 0 ^^ b.getLsbD 0).toNat

/-- The index of the first sample that is neither 0 nor 1, counting from `i` (20_memory.md R43, 60_exceptions.md R201). -/
def firstBadSample : Nat → List Byte → Option Nat
  | _, [] => none
  | i, x :: xs => if x = 0#8 ∨ x = 1#8 then firstBadSample (i + 1) xs else some i

/-- The bits of a sequence of samples that are all 0 or 1. -/
def bitsOfSamples (q : List Byte) : List Bit := q.map fun x => x.getLsbD 0

end Machine
end Sys2Proof
end

