-- ==== Sys2Proof/Machine/Params.lean ====
section
/-! DEFINITION. The values of the model parameters this machine runs with: the defaults of spec/00_scope.md rule R8. -/

namespace Sys2Proof
namespace Machine

/-- ENC_TABLE (30_encoding.md R80). PRESUMED (from general knowledge, not in the source; log entry 9). -/
def encTable : Vector Symbol 16 := #v[0, 3, 1, 2, 3, 0, 2, 1, 3, 0, 2, 1, 0, 3, 1, 2]

/-- ENC_SEED (43_conv_encoder.md R121). PRESUMED (log entry 10). -/
def encSeed : BitVec 3 := 0#3

/-- VIT_INIT_COST (44_viterbi.md R137; conflict C8). PRESUMED (log entry 11). -/
def vitInitCost : Vector Nat 8 := #v[0, 100, 100, 100, 100, 100, 100, 100]

/-- VIT_TIE (44_viterbi.md R140). PRESUMED (log entry 12). -/
def vitTie : Config.VitTie := .first

/-- ILV_PERM, the transpose `perm(4r+c) = 4c+r` (30_encoding.md R83; log entry 13). -/
def ilvPerm : Vector (Fin 16) 16 := #v[0, 4, 8, 12, 1, 5, 9, 13, 2, 6, 10, 14, 3, 7, 11, 15]

/-- BITBUF_CAP, "unbounded" (20_memory.md R44; log entry 16). -/
def bitbufCap : Option Nat := none

/-- VIT_COST_WIDTH, "8 bits (natural numbers suffice)" (10_state.md R15; log entry 14). -/
def vitCostWidth : Nat := 8

/-- The parameters of this machine: every model parameter at its default. -/
def params : Config.Params :=
  { encTable := encTable, encSeed := encSeed, vitInitCost := vitInitCost, vitTie := vitTie, ilvPerm := ilvPerm,
    bitbufCap := bitbufCap, vitCostWidth := vitCostWidth }

/-- "every preamble byte" (R8 PREAMBLE_BYTE). -/
def preambleByte : Byte := 0xAA#8

/-- TERMINATOR (43_conv_encoder.md R126). -/
def terminator : List Byte := [0x0B#8, 0x0B#8]

/-- PN9_SEED (40_whitening.md R91). -/
def pn9Seed : BitVec 9 := 0x1FF#9

/-- CRC_INIT (41_crc16.md R101). -/
def crcInit : BitVec 16 := 0xFFFF#16

/-- CRC_POLY (41_crc16.md R102). -/
def crcPoly : BitVec 16 := 0x8005#16

/-- VIT_FILL: the counter value at which a byte comes out (44_viterbi.md R145). -/
def vitFill : Nat := 32

/-- Flags, HWID and CRC16 of the Body: what the Length byte counts beside Rest (30_encoding.md R64). -/
def bodyOverhead : Nat := 5

end Machine
end Sys2Proof
end

