-- ==== Sys2Proof/Machine/Checksum.lean ====
section
/-! DEFINITION. Unit CRC, the crc16_checker (spec/41_crc16.md). -/

namespace Sys2Proof
namespace Machine

/-- `CrcStep(c, x)` (41_crc16.md R102). -/
def crcStep (c : BitVec 16) (x : Bit) : BitVec 16 :=
  if c.getLsbD 15 ^^ x then (c <<< 1) ^^^ crcPoly else c <<< 1

/-- Eight single-bit steps, bit 7 of the byte first (R103). -/
def crcByte (c : BitVec 16) (b : Byte) : BitVec 16 := (serByte b).foldl crcStep c

/-- `crc16(data)` (R104). -/
def crc16 (data : List Byte) : BitVec 16 := data.foldl crcByte crcInit

/-- The two values CRC.VERIFY compares (R105): computed over all but the last two bytes, and received in the last two, low byte
first. For an operand of at least two bytes. -/
def crcPair (f : List Byte) : BitVec 16 × BitVec 16 :=
  (crc16 (f.take (f.length - 2)), crcOfBytes (f.getD (f.length - 2) 0#8) (f.getD (f.length - 1) 0#8))

/-- CRC.INIT (R101). -/
def execCrcInit (s : State) : Answer :=
  guarded s (.next (respond .none [] { s with u := { s.u with crc := some crcInit } }))

/-- CRC.UPDATE (R103). -/
def execCrcUpdate (b : Byte) (s : State) : Answer :=
  guarded s (match s.u.crc with
    | none => .next (raise (.stateAbsent .uCrc) s)
    | some c => .next (respond .none [] { s with u := { s.u with crc := some (crcByte c b) } }))

/-- CRC.CALC (R104). -/
def execCrcCalc (data : List Byte) (s : State) : Answer :=
  guarded s (.next (respond (.word (crc16 data)) [] s))

/-- CRC.VERIFY (R105): ok, or CRCError(expected = computed, actual = received), which is the operation's result and changes nothing
(60_exceptions.md R202). An operand of fewer than two bytes "is outside the operand type and is refused" (log entry 3). -/
def execCrcVerify (f : List Byte) (s : State) : Answer :=
  guarded s
    (if f.length < 2 then .next (raise (.operandType 0x23#8) s)
     else if (crcPair f).1 = (crcPair f).2 then .next (respond .ok [] s)
     else .next (raise (.crcError (crcPair f).1 (crcPair f).2) s))

end Machine
end Sys2Proof
end

