-- ==== Sys2Proof/Machine/Interleaver.lean ====
section
/-! DEFINITION. Unit ILV, the block_interleaver/deinterleaver (spec/42_interleaver.md). It has no state (10_state.md R14). -/

namespace Sys2Proof
namespace Machine

/-- The permuted word (42_interleaver.md R111): the output symbol at position k is the input symbol at position perm(k)
(30_encoding.md R83). -/
def interleaveWord (p : Config.Params) (w : BitVec 32) : BitVec 32 :=
  wordOfSymbols (p.ilvPerm.toList.map fun k => symbolAt w k.val)

/-- `ILV.XFORM(blk)` (R111): MalformedInterleaveInput unless the block has exactly four bytes. -/
def interleave (p : Config.Params) : List Byte → Except Err (List Byte)
  | [b0, b1, b2, b3] => .ok (bytesOfWord (interleaveWord p (wordOfBytes b0 b1 b2 b3)))
  | blk => .error (.malformedInterleaveInput blk.length)

/-- ILV.XFORM (R111), for any parameters. -/
def execIlvXformWith (p : Config.Params) (blk : List Byte) (s : State) : Answer :=
  guarded s (match interleave p blk with
    | .ok t => .next (respond (.bytes t) [] s)
    | .error e => .next (raise e s))

/-- ILV.XFORM at the parameters of this machine. -/
def execIlvXform (blk : List Byte) (s : State) : Answer := execIlvXformWith params blk s

end Machine
end Sys2Proof
end

