-- ==== Sys2Proof/Machine/ConvEncoder.lean ====
section
/-! DEFINITION. Unit CENC, the convolutional_encoder, and FEC.ENCODE (spec/43_conv_encoder.md). -/

namespace Sys2Proof
namespace Machine

/-- The register after CENC.SEED (43_conv_encoder.md R121): `ENC_SEED << 8`. -/
def encStart (p : Config.Params) : BitVec 11 := p.encSeed.setWidth 11 <<< 8

/-- The table index `(s << 1) or x` with `s = enc[10:8]` (R123). -/
def encIndex (enc : BitVec 11) (x : Bit) : BitVec 4 :=
  (enc.extractLsb' 8 3).setWidth 4 <<< 1 ||| (BitVec.ofBool x).setWidth 4

/-- `CENC.BIT(x)` on a register (R123): the symbol and the new register `idx[2:0] << 8`. -/
def encBit (p : Config.Params) (enc : BitVec 11) (x : Bit) : Symbol × BitVec 11 :=
  (p.encTable.get (encIndex enc x).toFin, ((encIndex enc x).extractLsb' 0 3).setWidth 11 <<< 8)

/-- `CENC.BIT` for each bit in order, the symbols collected in a 16-bit value (R124). -/
def encBits (p : Config.Params) : List Bit → BitVec 16 → BitVec 11 → BitVec 16 × BitVec 11
  | [], out, enc => (out, enc)
  | x :: xs, out, enc =>
    encBits p xs (out <<< 2 ||| (encBit p enc x).1.setWidth 16) (encBit p enc x).2

/-- `CENC.BYTE(b)` on a register (R124): two bytes, the first symbol on top. -/
def encByte (p : Config.Params) (enc : BitVec 11) (b : Byte) : List Byte × BitVec 11 :=
  let r := encBits p (serByte b) 0#16 enc
  ([r.1.extractLsb' 8 8, r.1.extractLsb' 0 8], r.2)

/-- `CENC.BYTE` for each byte in order (R127): the encoder output before padding and interleaving. -/
def encBytes (p : Config.Params) : List Byte → BitVec 11 → List Byte
  | [], _ => []
  | b :: bs, enc => (encByte p enc b).1 ++ encBytes p bs (encByte p enc b).2

/-- ILV.XFORM of each of the first `n` blocks of four bytes (R129). -/
def interleaveBlocks (p : Config.Params) : Nat → List Byte → Except Err (List Byte)
  | 0, _ => .ok []
  | n + 1, e =>
    match interleave p (e.take 4) with
    | .error err => .error err
    | .ok t =>
      match interleaveBlocks p n (e.drop 4) with
      | .error err => .error err
      | .ok rest => .ok (t ++ rest)

/-- The padding of R128 and the remainder check of R130. -/
def padBlocks (e : List Byte) : Except Err (List Byte) :=
  if e.length % 4 = 2 then .ok (e ++ [0#8, 0#8])
  else if e.length % 4 ≠ 0 then .error (.unsupportedRemainder (e.length % 4))
  else .ok e

/-- `FEC.ENCODE(data)` (R127). -/
def fecEncode (p : Config.Params) (data : List Byte) : Except Err (List Byte) :=
  match padBlocks (encBytes p (data ++ terminator) (encStart p)) with
  | .error err => .error err
  | .ok e => interleaveBlocks p (e.length / 4) e

/-- CENC.SEED (R121), for any parameters. -/
def execCencSeedWith (p : Config.Params) (s : State) : Answer :=
  guarded s (.next (respond .none [] { s with u := { s.u with enc := some (encStart p) } }))

/-- CENC.SEED at the parameters of this machine. -/
def execCencSeed (s : State) : Answer := execCencSeedWith params s

/-- A CENC operation on `u.enc`: StateAbsent when it holds no value (60_exceptions.md R214). -/
def withEnc (s : State) (k : BitVec 11 → Answer) : Answer :=
  guarded s (match s.u.enc with
    | none => .next (raise (.stateAbsent .uEnc) s)
    | some r => k r)

/-- CENC.BIT (R123), for any parameters. -/
def execCencBitWith (p : Config.Params) (x : Bit) (s : State) : Answer :=
  withEnc s fun enc =>
    .next (respond (.symbol (encBit p enc x).1) [] { s with u := { s.u with enc := some (encBit p enc x).2 } })

/-- CENC.BIT at the parameters of this machine. -/
def execCencBit (x : Bit) (s : State) : Answer := execCencBitWith params x s

/-- CENC.BYTE (R124), for any parameters. -/
def execCencByteWith (p : Config.Params) (b : Byte) (s : State) : Answer :=
  withEnc s fun enc =>
    .next (respond (.bytes (encByte p enc b).1) [] { s with u := { s.u with enc := some (encByte p enc b).2 } })

/-- CENC.BYTE at the parameters of this machine. -/
def execCencByte (b : Byte) (s : State) : Answer := execCencByteWith params b s

/-- FEC.ENCODE (R127), for any parameters: a transient register, so no state is written. -/
def execFecEncodeWith (p : Config.Params) (data : List Byte) (s : State) : Answer :=
  guarded s (match fecEncode p data with
    | .ok out => .next (respond (.bytes out) [] s)
    | .error e => .next (raise e s))

/-- FEC.ENCODE at the parameters of this machine. -/
def execFecEncode (data : List Byte) (s : State) : Answer := execFecEncodeWith params data s

end Machine
end Sys2Proof
end

