-- ==== Sys2Proof/Machine/Whitening.lean ====
section
/-! DEFINITION. Unit PN9, the whitening_lfsr_generator (spec/40_whitening.md). -/

namespace Sys2Proof
namespace Machine

/-- The feedback bit `s[5] xor s[0]` (40_whitening.md R92). -/
def pn9Feedback (s : BitVec 9) : Bit := s.getLsbD 5 ^^ s.getLsbD 0

/-- `Pn9Step(s)` (R92): all bits move one place toward bit 0, the feedback enters at bit 8. -/
def pn9Step (s : BitVec 9) : BitVec 9 := (BitVec.ofBool (pn9Feedback s)).setWidth 9 <<< 8 ||| s >>> 1

/-- `n` single-bit steps. -/
def pn9Advance : Nat → BitVec 9 → BitVec 9
  | 0, s => s
  | n + 1, s => pn9Advance n (pn9Step s)

/-- `PN9.NEXT` on a register (R93): the byte is taken before the register moves eight steps. -/
def pn9Next (s : BitVec 9) : Byte × BitVec 9 := (s.extractLsb' 0 8, pn9Advance 8 s)

/-- `Whiten(data, s)` (R95). -/
def whiten : List Byte → BitVec 9 → List Byte × BitVec 9
  | [], s => ([], s)
  | b :: bs, s => ((b ^^^ (pn9Next s).1) :: (whiten bs (pn9Next s).2).1, (whiten bs (pn9Next s).2).2)

/-- PN9.SEED (R91). -/
def execPn9Seed (s : State) : Answer :=
  guarded s (.next (respond .none [] { s with u := { s.u with pn9 := some pn9Seed } }))

/-- A PN9 operation on `u.pn9`: StateAbsent when it holds no value (60_exceptions.md R214). -/
def withPn9 (s : State) (k : BitVec 9 → Answer) : Answer :=
  guarded s (match s.u.pn9 with
    | none => .next (raise (.stateAbsent .uPn9) s)
    | some r => k r)

/-- PN9.NEXT (R93). -/
def execPn9Next (s : State) : Answer :=
  withPn9 s fun r =>
    .next (respond (.byte (pn9Next r).1) [] { s with u := { s.u with pn9 := some (pn9Next r).2 } })

/-- PN9.WHITEN (R94). -/
def execPn9Whiten (b : Byte) (s : State) : Answer :=
  withPn9 s fun r =>
    .next (respond (.byte (b ^^^ (pn9Next r).1)) [] { s with u := { s.u with pn9 := some (pn9Next r).2 } })

end Machine
end Sys2Proof
end

