-- ==== Sys2Proof/Machine/Framer.lean ====
section
/-! DEFINITION. Unit FRM, the bit_framer (spec/45_framer.md). -/

namespace Sys2Proof
namespace Machine

/-- The plain DataSection without its checksum: `[L, FLAGS] ++ Rest ++ HWID` with `L = len(Rest) + 5` (45_framer.md R156,
30_encoding.md R64). -/
def plainSection (flags : Byte) (m : Message) : List Byte :=
  [BitVec.ofNat 8 ((m.drop 2).length + bodyOverhead), flags] ++ m.drop 2 ++ m.take 2

/-- The DataSection (R157): the checksum of the plain bytes is appended low byte first. -/
def dataSection (flags : Byte) (m : Message) : List Byte :=
  plainSection flags m ++ crcBytes (crc16 (plainSection flags m))

/-- The preamble (30_encoding.md R61). -/
def preamble (c : Cfg) : List Byte := List.replicate c.preambleLen.toNat preambleByte

/-- The sync word: the pair SYNC0 SYNC1, SYNC_REP times (R62). -/
def syncWord (c : Cfg) : List Byte := (List.replicate c.syncRep.toNat [c.sync0, c.sync1]).flatten

/-- Whitening with a freshly seeded transient register, when WHITEN_EN (45_framer.md R158). -/
def whitenSection (c : Cfg) (ds : List Byte) : List Byte := if c.whitenEn then (whiten ds pn9Seed).1 else ds

/-- The Frame of a message under a configuration (R156): whitening before FEC, preamble and sync word in front. -/
def frame (p : Config.Params) (c : Cfg) (m : Message) : Except Err (List Byte) :=
  let ds := whitenSection c (dataSection c.flags m)
  match (if c.fecEn then fecEncode p ds else .ok ds) with
  | .error e => .error e
  | .ok coded => .ok (preamble c ++ syncWord c ++ coded)

/-- FRM.ENCODE (R156, R161), for any parameters. -/
def execFrmEncodeWith (p : Config.Params) (m : Message) (s : State) : Answer :=
  guarded s
    (if s.cfgLoaded = false then .next (raise .notConfigured s)
     else if m.length < 2 ∨ 252 < m.length then .next (raise (.badMessageLength m.length) s)
     else match s.cfg with
       | none => .next (raise (.stateAbsent .cfg) s)
       | some c =>
         match frame p c m with
         | .ok f => .next (respond (.bytes f) [] s)
         | .error e => .next (raise e s))

/-- FRM.ENCODE at the parameters of this machine. -/
def execFrmEncode (m : Message) (s : State) : Answer := execFrmEncodeWith params m s

/-- FRM.SERIALIZE (R162). -/
def execFrmSerialize (f : List Byte) (s : State) : Answer :=
  guarded s (.next (respond (.bits (ser f)) [] s))

end Machine
end Sys2Proof
end

