-- ==== Sys2Proof/Machine/Viterbi.lean ====
section
/-! DEFINITION. Unit VIT, the viterbi_decoder (spec/44_viterbi.md), with both generations of the session held as
spec/10_state.md R15 to R18 give them. -/

namespace Sys2Proof
namespace Machine

/-- `SRC[d][j] = (d >> 1) or (j << 2)` (30_encoding.md R82). -/
def trellisSrc (d : Trellis) (j : Bit) : Trellis := d >>> 1 ||| (BitVec.ofBool j).setWidth 3 <<< 2

/-- `IN[d] = d[0]` (R82). -/
def trellisIn (d : Trellis) : Bit := d.getLsbD 0

/-- `OUT[d][j] = ENC_TABLE[(SRC[d][j] << 1) or d[0]]` (R82). -/
def trellisOut (p : Config.Params) (d : Trellis) (j : Bit) : Symbol :=
  p.encTable.get
    ((trellisSrc d j).setWidth 4 <<< 1 ||| (BitVec.ofBool (trellisIn d)).setWidth 4).toFin

/-- `cand[d][j]` (44_viterbi.md R139). -/
def candidate (p : Config.Params) (g : Generation) (y : Symbol) (d : Trellis) (j : Bit) : Nat :=
  g.cost.get (trellisSrc d j).toFin + hamming2 y (trellisOut p d j)

/-- The surviving candidate (R140). -/
def survivor (p : Config.Params) (g : Generation) (y : Symbol) (d : Trellis) : Bit :=
  match p.vitTie with
  | .first => !decide (candidate p g y d false ≤ candidate p g y d true)
  | .second => decide (candidate p g y d true ≤ candidate p g y d false)

/-- The surviving cost before normalisation (R139, R140). -/
def newCost (p : Config.Params) (g : Generation) (y : Symbol) (d : Trellis) : Nat :=
  candidate p g y d (survivor p g y d)

/-- The surviving traceback register (R141): the source's history moves left by one, the input bit enters at bit 0. -/
def newPath (p : Config.Params) (g : Generation) (y : Symbol) (d : Trellis) : BitVec 32 :=
  g.path.get (trellisSrc d (survivor p g y d)).toFin <<< 1 ||| (BitVec.ofBool (trellisIn d)).setWidth 32

/-- One value per trellis state, state 0 first. -/
def perState {α : Type} (f : Trellis → α) : Vector α 8 :=
  #v[f 0#3, f 1#3, f 2#3, f 3#3, f 4#3, f 5#3, f 6#3, f 7#3]

/-- The least entry (R142). -/
def least (c : Vector Nat 8) : Nat := c.toList.foldl Nat.min (c.get 0)

/-- All entries less the least one (R142). -/
def normalise (c : Vector Nat 8) : Vector Nat 8 := perState fun d => c.get d.toFin - least c

/-- The new generation for a received symbol (R143). -/
def nextGeneration (p : Config.Params) (g : Generation) (y : Symbol) : Generation :=
  { cost := normalise (perState (newCost p g y)), path := perState (newPath p g y) }

/-- The generation VIT.SYMBOL reads: index `1 - vit.cur` (10_state.md R18). -/
def Session.prev (v : Session) : Generation := if v.cur then v.gen0 else v.gen1

/-- The generation `vit.cur` is written, then `vit.cur` flips, so that the written one is the next step's previous (R18). -/
def Session.advance (v : Session) (g : Generation) (nbits : Nat) : Session :=
  if v.cur then { gen0 := v.gen0, gen1 := g, nbits := nbits, cur := false }
  else { gen0 := g, gen1 := v.gen1, nbits := nbits, cur := true }

/-- The generation every session starts from (44_viterbi.md R137). -/
def startGeneration (p : Config.Params) : Generation := { cost := p.vitInitCost, path := perState fun _ => 0#32 }

/-- The session VIT.START creates (R137): both generations hold the same values. -/
def startSession (p : Config.Params) : Session :=
  { gen0 := startGeneration p, gen1 := startGeneration p, nbits := 0, cur := false }

/-- `VIT.SYMBOL(y)` on a session (R143, R145): a byte comes out of the generation just computed when the counter reaches 32, and
the counter drops by 8. -/
def vitSymbol (p : Config.Params) (v : Session) (y : Symbol) : List Byte × Session :=
  let g := nextGeneration p v.prev y
  if v.nbits + 1 = vitFill then ([(g.path.get 0).extractLsb' 24 8], v.advance g (vitFill - 8))
  else ([], v.advance g (v.nbits + 1))

/-- VIT.SYMBOL for each symbol in order, the emitted bytes collected. -/
def vitSymbols (p : Config.Params) : Session → List Symbol → List Byte × Session
  | v, [] => ([], v)
  | v, y :: ys =>
    ((vitSymbol p v y).1 ++ (vitSymbols p (vitSymbol p v y).2 ys).1, (vitSymbols p (vitSymbol p v y).2 ys).2)

/-- `VIT.SEND(chunk)` on a session (R147): deinterleave, then sixteen symbols; the length check comes before any change. -/
def vitSend (p : Config.Params) (v : Session) (chunk : List Byte) : Except Err (List Byte × Session) :=
  match interleave p chunk with
  | .error e => .error e
  | .ok [t0, t1, t2, t3] => .ok (vitSymbols p v (symbols (wordOfBytes t0 t1 t2 t3)))
  | .ok t => .error (.malformedInterleaveInput t.length)

/-- VIT.START (R137), for any parameters. -/
def execVitStartWith (p : Config.Params) (s : State) : Answer :=
  guarded s (.next (respond .none [] { s with u := { s.u with vit := some (startSession p) } }))

/-- VIT.START at the parameters of this machine. -/
def execVitStart (s : State) : Answer := execVitStartWith params s

/-- A VIT operation on `u.vit`: StateAbsent when there is no session (60_exceptions.md R214). -/
def withSession (s : State) (k : Session → Answer) : Answer :=
  guarded s (match s.u.vit with
    | none => .next (raise (.stateAbsent .uVit) s)
    | some v => k v)

/-- VIT.SYMBOL (R143), for any parameters. -/
def execVitSymbolWith (p : Config.Params) (y : Symbol) (s : State) : Answer :=
  withSession s fun v =>
    .next (respond (.bytes (vitSymbol p v y).1) [] { s with u := { s.u with vit := some (vitSymbol p v y).2 } })

/-- VIT.SYMBOL at the parameters of this machine. -/
def execVitSymbol (y : Symbol) (s : State) : Answer := execVitSymbolWith params y s

/-- VIT.SEND (R147), for any parameters. -/
def execVitSendWith (p : Config.Params) (chunk : List Byte) (s : State) : Answer :=
  withSession s fun v =>
    match vitSend p v chunk with
    | .error e => .next (raise e s)
    | .ok r => .next (respond (.bytes r.1) [] { s with u := { s.u with vit := some r.2 } })

/-- VIT.SEND at the parameters of this machine. -/
def execVitSend (chunk : List Byte) (s : State) : Answer := execVitSendWith params chunk s

end Machine
end Sys2Proof
end

