-- ==== Sys2Proof/Machine/Deframing.lean ====
section
/-! DEFINITION. Unit DFR, the deframer_fsm (spec/46_deframer.md): the six step rules, validation, the driver. A rule reads CFG
where its pseudocode first reads a field of it; CFG, `length`, `d.pn9` or `vit` holding `none` at that point is StateAbsent
(spec/00_scope.md R9; no run of DFR.PUSH gets there, 60_exceptions.md R214; log entry 17). -/

namespace Sys2Proof
namespace Machine

/-- What one step rule answers (46_deframer.md R173). -/
inductive StepOutcome where
  /-- it waits: it changes nothing and returns false -/
  | wait
  /-- it returns true: the new registers and what it put on the delivery and event ports -/
  | moved (d : Deframer) (ev : List Event)
  /-- it raises an error -/
  | raised (e : Err)
  deriving DecidableEq, Repr

/-- `Match(w)` (R175): the bits that agree with the alternating pattern whose next bit is `expected`. -/
def matchCount : Bit → List Bit → Nat
  | _, [] => 0
  | expected, x :: xs => (if x = expected then 1 else 0) + matchCount (!expected) xs

/-- `P = 8 * PREAMBLE_LEN`. -/
def preambleBits (c : Cfg) : Nat := 8 * c.preambleLen.toNat

/-- `S = 16 * SYNC_REP`. -/
def syncBits (c : Cfg) : Nat := 16 * c.syncRep.toNat

/-- DFR.STEP.SeekingPreamble (R178). With a legal CFG the window has at least 8 bits; the second test only says what an empty
buffer does under the PREAMBLE_LEN = 0 that CFG.LOAD rejects (log entry 19). -/
def stepSeekingPreamble (cfg : Option Cfg) (d : Deframer) : StepOutcome :=
  match cfg with
  | none => .raised (.stateAbsent .cfg)
  | some c =>
    if bufLen d < preambleBits c ∨ bufLen d = 0 then .wait
    else if (bufPeek 1 d).head? = some true ∧ c.quality.toNat ≤ matchCount true (bufPeek (preambleBits c) d) then
      .moved { bufDrop (preambleBits c) d with fstate := .seekingSyncWord } []
    else .moved (bufDrop 1 d) []

/-- DFR.STEP.SeekingSyncWord (R180). -/
def stepSeekingSyncWord (cfg : Option Cfg) (d : Deframer) : StepOutcome :=
  match cfg with
  | none => .raised (.stateAbsent .cfg)
  | some c =>
    if bufLen d < syncBits c then .wait
    else if pack (bufPeek (syncBits c) d) = syncWord c then
      .moved { bufDrop (syncBits c) d with fstate := if c.fecEn then .awaitingLengthFEC else .awaitingLength } []
    else .moved { bufDrop 1 d with fstate := .seekingPreamble } []

/-- DFR.STEP.AwaitingLength (R182). -/
def stepAwaitingLength (cfg : Option Cfg) (d : Deframer) : StepOutcome :=
  if bufLen d < 8 then .wait
  else match cfg with
    | none => .raised (.stateAbsent .cfg)
    | some c =>
      let b := packByte (bufPeek 8 d)
      if c.whitenEn then
        .moved { bufDrop 8 d with length := some (b ^^^ (pn9Next pn9Seed).1), pn9 := some (pn9Next pn9Seed).2,
                                  fstate := .awaitingData } []
      else .moved { bufDrop 8 d with length := some b, fstate := .awaitingData } []

/-- Dewhitening in the deframer (R183, R184, R186): `Whiten(bs, d.pn9)` when WHITEN_EN, with the register after it. -/
def dewhiten (c : Cfg) (bs : List Byte) (r : Option (BitVec 9)) : Except Err (List Byte × Option (BitVec 9)) :=
  if c.whitenEn then
    match r with
    | none => .error (.stateAbsent .dPn9)
    | some k => .ok ((whiten bs k).1, some (whiten bs k).2)
  else .ok (bs, r)

/-- VIT.SEND of consecutive chunks of four bytes on one session. -/
def vitSendAll (p : Config.Params) : Session → List (List Byte) → Except Err (List Byte × Session)
  | v, [] => .ok ([], v)
  | v, chunk :: rest =>
    match vitSend p v chunk with
    | .error e => .error e
    | .ok r =>
      match vitSendAll p r.2 rest with
      | .error e => .error e
      | .ok q => .ok (r.1 ++ q.1, q.2)

/-- DFR.STEP.AwaitingLengthFEC (R183). The two chunks of a fresh session always yield one byte (44_viterbi.md R146), so the last
case is never met (lemma `vitSend_two_fresh_chunks`). -/
def stepAwaitingLengthFEC (p : Config.Params) (cfg : Option Cfg) (d : Deframer) : StepOutcome :=
  if bufLen d < 64 then .wait
  else
    let raw := pack (bufPeek 64 d)
    match vitSendAll p (startSession p) [raw.take 4, raw.drop 4] with
    | .error e => .raised e
    | .ok (dec, v) =>
      match cfg with
      | none => .raised (.stateAbsent .cfg)
      | some c =>
        match dewhiten c dec (if c.whitenEn then some pn9Seed else d.pn9) with
        | .error e => .raised e
        | .ok (len :: rest, r) =>
          .moved { bufDrop 64 d with vit := some v, pn9 := r, length := some len, decbuf := rest,
                                     fstate := .awaitingDataFEC } []
        | .ok ([], _) => .raised (.stateAbsent .length)

/-- `FrameEnd()` (R189): `bitbuf` is kept. -/
def frameEnd (d : Deframer) : Deframer :=
  { d with fstate := .seekingPreamble, length := none, pn9 := none, vit := none, decbuf := [] }

/-- The Message of a Body of `L` bytes (R188, 30_encoding.md R66): `body[L-4 .. L-2) ++ body[1 .. L-4)`. -/
def messageOfBody (body : List Byte) : Message :=
  slice body (body.length - 4) (body.length - 2) ++ slice body 1 (body.length - 4)

/-- What DFR.VALIDATE reports for a body of exactly `len` bytes (R188): length, then checksum, then flags. -/
def judge (cfg : Option Cfg) (len : Byte) (body : List Byte) : Except Err Event :=
  if len.toNat < bodyOverhead then .ok (.shortLength len)
  else if (crcPair (len :: body)).1 ≠ (crcPair (len :: body)).2 then
    .ok (.crcError (crcPair (len :: body)).1 (crcPair (len :: body)).2)
  else match cfg with
    | none => .error (.stateAbsent .cfg)
    | some c =>
      if body.headD 0#8 &&& c.flagsMask = c.flags then .ok (.deliver (messageOfBody body))
      else .ok (.filtered (body.headD 0#8))

/-- DFR.VALIDATE (R188) and the end of the frame (R189). -/
def validate (cfg : Option Cfg) (len : Byte) (body : List Byte) (d : Deframer) : StepOutcome :=
  match judge cfg len body with
  | .error e => .raised e
  | .ok ev => .moved (frameEnd d) [ev]

/-- DFR.STEP.AwaitingData (R184). -/
def stepAwaitingData (cfg : Option Cfg) (d : Deframer) : StepOutcome :=
  match d.length with
  | none => .raised (.stateAbsent .length)
  | some len =>
    if bufLen d < 8 * len.toNat then .wait
    else match cfg with
      | none => .raised (.stateAbsent .cfg)
      | some c =>
        match dewhiten c (pack (bufPeek (8 * len.toNat) d)) d.pn9 with
        | .error e => .raised e
        | .ok (body, r) => validate cfg len body { bufDrop (8 * len.toNat) d with pn9 := r }

/-- DFR.STEP.AwaitingDataFEC (R186): the completion test comes first. -/
def stepAwaitingDataFEC (p : Config.Params) (cfg : Option Cfg) (d : Deframer) : StepOutcome :=
  match d.length with
  | none => .raised (.stateAbsent .length)
  | some len =>
    if len.toNat ≤ d.decbuf.length then validate cfg len (d.decbuf.take len.toNat) d
    else if bufLen d < 32 then .wait
    else match d.vit with
      | none => .raised (.stateAbsent .vit)
      | some v =>
        match vitSend p v (pack (bufPeek 32 d)) with
        | .error e => .raised e
        | .ok (dec, v') =>
          match cfg with
          | none => .raised (.stateAbsent .cfg)
          | some c =>
            match dewhiten c dec d.pn9 with
            | .error e => .raised e
            | .ok (bs, r) => .moved (decAppend bs { bufDrop 32 d with vit := some v', pn9 := r }) []

/-- `Step()` (R173): the one rule `fstate` selects. -/
def dfrStep (p : Config.Params) (cfg : Option Cfg) (d : Deframer) : StepOutcome :=
  match d.fstate with
  | .seekingPreamble => stepSeekingPreamble cfg d
  | .seekingSyncWord => stepSeekingSyncWord cfg d
  | .awaitingLength => stepAwaitingLength cfg d
  | .awaitingLengthFEC => stepAwaitingLengthFEC p cfg d
  | .awaitingData => stepAwaitingData cfg d
  | .awaitingDataFEC => stepAwaitingDataFEC p cfg d

/-- At most `n` steps, until one waits; the ports' contents are collected in order (R172). -/
def runSteps (p : Config.Params) (cfg : Option Cfg) : Nat → Deframer → List Event → Except Err (Deframer × List Event)
  | 0, d, ev => .ok (d, ev)
  | n + 1, d, ev =>
    match dfrStep p cfg d with
    | .wait => .ok (d, ev)
    | .moved d' new => runSteps p cfg n d' (ev ++ new)
    | .raised e => .error e

/-- More steps than any run makes before one waits: a step that drops no bit is followed, within three such steps, by one that drops a
bit or waits (R173; lemma `dfrStep_decreases`, log entry 18). -/
def stepBound (d : Deframer) : Nat := 4 * bufLen d + 4

/-- "repeat Step() until progressed = false" (R172). -/
def runUntilWait (p : Config.Params) (cfg : Option Cfg) (d : Deframer) : Except Err (Deframer × List Event) :=
  runSteps p cfg (stepBound d) d []

/-- DFR.PUSH (R172), for any parameters. -/
def execDfrPushWith (p : Config.Params) (q : List Byte) (s : State) : Answer :=
  guarded s
    (if s.cfgLoaded = false then .next (raise .notConfigured s)
     else match firstBadSample 0 q with
       | some i => .next (raise (.badBitSample i) s)
       | none =>
         match bufAppend p.bitbufCap (bitsOfSamples q) s.dfr with
         | .error e => .next (raise e s)
         | .ok d0 =>
           match runUntilWait p s.cfg d0 with
           | .error e => .next (raise e s)
           | .ok (d, ev) => .next (respond (.messages (delivered ev)) ev { s with dfr := d }))

/-- DFR.PUSH at the parameters of this machine. -/
def execDfrPush (q : List Byte) (s : State) : Answer := execDfrPushWith params q s

/-- DFR.RESET (R174): all the deframer's registers; CFG, `cfg_loaded`, `fault` and the scratch registers keep their values. -/
def execDfrReset (s : State) : Answer :=
  guarded s (.next (respond .none [] { s with dfr := Deframer.reset }))

/-- One internal step issued by the sequencer: it runs when `fstate` selects it (spec/opcode_table.json "selected_by"); otherwise the
number is one that nothing legal issued (30_encoding.md R76(a)). DESIGN CHOICE (log entry 7): that it is then IllegalOperation, and that
this one, being a check of the operation's own, comes after Faulted and after the operand type check at the port; 60_exceptions.md R213
puts the IllegalOperation of R206 before Faulted. -/
def internalStep (selected : FState) (op : Byte) (rule : Deframer → StepOutcome) (s : State) : Answer :=
  guarded s
    (if s.dfr.fstate ≠ selected then .next (raise (.illegalOperation op) s)
     else match rule s.dfr with
       | .wait => .next (respond (.progress false) [] s)
       | .moved d ev => .next (respond (.progress true) ev { s with dfr := d })
       | .raised e => .next (raise e s))

/-- DFR.VALIDATE (R188), which the two data-awaiting steps call; its operand is "exactly `length` bytes".
DESIGN CHOICE (log entry 7): in any other state it is IllegalOperation, after Faulted and before the check of the body's length. -/
def execDfrValidate (body : List Byte) (s : State) : Answer :=
  guarded s
    (if s.dfr.fstate ≠ .awaitingData ∧ s.dfr.fstate ≠ .awaitingDataFEC then .next (raise (.illegalOperation 0x72#8) s)
     else match s.dfr.length with
       | none => .next (raise (.stateAbsent .length) s)
       | some len =>
         if body.length ≠ len.toNat then .next (raise (.operandType 0x72#8) s)
         else match validate s.cfg len body s.dfr with
           | .wait => .next (respond (.progress false) [] s)
           | .moved d ev => .next (respond .none ev { s with dfr := d })
           | .raised e => .next (raise e s))

/-- DFR.STEP.SeekingPreamble (R178). -/
def execDfrStepSeekingPreamble (s : State) : Answer :=
  internalStep .seekingPreamble 0x78#8 (stepSeekingPreamble s.cfg) s

/-- DFR.STEP.SeekingSyncWord (R180). -/
def execDfrStepSeekingSyncWord (s : State) : Answer :=
  internalStep .seekingSyncWord 0x79#8 (stepSeekingSyncWord s.cfg) s

/-- DFR.STEP.AwaitingLength (R182). -/
def execDfrStepAwaitingLength (s : State) : Answer :=
  internalStep .awaitingLength 0x7A#8 (stepAwaitingLength s.cfg) s

/-- DFR.STEP.AwaitingLengthFEC (R183), for any parameters. -/
def execDfrStepAwaitingLengthFECWith (p : Config.Params) (s : State) : Answer :=
  internalStep .awaitingLengthFEC 0x7B#8 (stepAwaitingLengthFEC p s.cfg) s

/-- DFR.STEP.AwaitingLengthFEC at the parameters of this machine. -/
def execDfrStepAwaitingLengthFEC (s : State) : Answer := execDfrStepAwaitingLengthFECWith params s

/-- DFR.STEP.AwaitingData (R184). -/
def execDfrStepAwaitingData (s : State) : Answer :=
  internalStep .awaitingData 0x7C#8 (stepAwaitingData s.cfg) s

/-- DFR.STEP.AwaitingDataFEC (R186), for any parameters. -/
def execDfrStepAwaitingDataFECWith (p : Config.Params) (s : State) : Answer :=
  internalStep .awaitingDataFEC 0x7D#8 (stepAwaitingDataFEC p s.cfg) s

/-- DFR.STEP.AwaitingDataFEC at the parameters of this machine. -/
def execDfrStepAwaitingDataFEC (s : State) : Answer := execDfrStepAwaitingDataFECWith params s

end Machine
end Sys2Proof
end

