-- ==== Sys2Proof/Machine/Dispatch.lean ====
section
/-! DEFINITION. The meaning of every operation of spec/30_encoding.md R75, one arm each. -/

namespace Sys2Proof
namespace Machine

def exec (i : Instr) (s : State) : Host.Outcome State Fault Refusal :=
  match i with
  | .cfgLoad rec => Sys2Proof.Machine.execCfgLoad rec s
  | .pn9Seed => Sys2Proof.Machine.execPn9Seed s
  | .pn9Next => Sys2Proof.Machine.execPn9Next s
  | .pn9Whiten b => Sys2Proof.Machine.execPn9Whiten b s
  | .crcInit => Sys2Proof.Machine.execCrcInit s
  | .crcUpdate b => Sys2Proof.Machine.execCrcUpdate b s
  | .crcCalc data => Sys2Proof.Machine.execCrcCalc data s
  | .crcVerify f => Sys2Proof.Machine.execCrcVerify f s
  | .ilvXform blk => Sys2Proof.Machine.execIlvXform blk s
  | .cencSeed => Sys2Proof.Machine.execCencSeed s
  | .cencBit x => Sys2Proof.Machine.execCencBit x s
  | .cencByte b => Sys2Proof.Machine.execCencByte b s
  | .fecEncode data => Sys2Proof.Machine.execFecEncode data s
  | .vitStart => Sys2Proof.Machine.execVitStart s
  | .vitSymbol y => Sys2Proof.Machine.execVitSymbol y s
  | .vitSend chunk => Sys2Proof.Machine.execVitSend chunk s
  | .frmEncode m => Sys2Proof.Machine.execFrmEncode m s
  | .frmSerialize f => Sys2Proof.Machine.execFrmSerialize f s
  | .dfrPush q => Sys2Proof.Machine.execDfrPush q s
  | .dfrReset => Sys2Proof.Machine.execDfrReset s
  | .dfrValidate body => Sys2Proof.Machine.execDfrValidate body s
  | .dfrStepSeekingPreamble => Sys2Proof.Machine.execDfrStepSeekingPreamble s
  | .dfrStepSeekingSyncWord => Sys2Proof.Machine.execDfrStepSeekingSyncWord s
  | .dfrStepAwaitingLength => Sys2Proof.Machine.execDfrStepAwaitingLength s
  | .dfrStepAwaitingLengthFEC => Sys2Proof.Machine.execDfrStepAwaitingLengthFEC s
  | .dfrStepAwaitingData => Sys2Proof.Machine.execDfrStepAwaitingData s
  | .dfrStepAwaitingDataFEC => Sys2Proof.Machine.execDfrStepAwaitingDataFEC s

end Machine
end Sys2Proof
end

