-- ==== Sys2Proof/Machine/Issue.lean ====
section
/-! DEFINITION. How the block takes a request from its port, which stands where a processor would have its instruction fetch
(spec/20_memory.md R56: there is none; spec/30_encoding.md R74 to R76: an operation is selected by its number). -/

namespace Sys2Proof
namespace Machine

/-- What the block finds at its port. -/
inductive Issued where
  /-- nothing was issued: nothing happens (60_exceptions.md R210) -/
  | idle
  /-- the request is answered without running an operation: a reset, or a refused request -/
  | answered (s : State)
  /-- the operation `i` runs in `s`, from whose port the request has been taken -/
  | run (i : Instr) (s : State)
  deriving DecidableEq, Repr

/-- An operation request in a state whose port no longer holds it. IllegalOperation is checked first, then Faulted
(60_exceptions.md R213), then whether the operand is one of the operation's type (log entry 3). An internal operation that `fstate` does not select is refused by the operation itself, after all three (DESIGN
CHOICE, log entry 7). -/
def issueOperation (issuer : Issuer) (op : Byte) (operand : List Byte) (s : State) : Issued :=
  if issuer = .host ∧ isInternalOp op = true then .answered (raise (.illegalOperation op) s)
  else match decode op operand with
    | .illegalOperation op => .answered (raise (.illegalOperation op) s)
    | .operandType op => .answered (raise (if s.fault then .faulted else .operandType op) s)
    | .instr i => .run i s

/-- Take the oldest request. -/
def issue (s : State) : Issued :=
  match s.port with
  | [] => .idle
  | .reset :: rest => .answered (hardwareReset { s with port := rest })
  | .operation issuer op operand :: rest => issueOperation issuer op operand { s with port := rest }

/-- Who may issue the operation number: the sequencer for the internal ones, the host for the others. -/
def issuerOf (op : Byte) : Issuer := if isInternalOp op then .sequencer else .host

/-- The deframer state that selects an internal operation (spec/opcode_table.json "selected_by"); for DFR.VALIDATE, which two states
call, the present one if it is one of the two and AwaitingData if not. -/
def selectFor (op : Byte) (f : FState) : FState :=
  match op.toNat with
  | 0x72 => if f = .awaitingDataFEC then f else .awaitingData
  | 0x78 => .seekingPreamble
  | 0x79 => .seekingSyncWord
  | 0x7A => .awaitingLength
  | 0x7B => .awaitingLengthFEC
  | 0x7C => .awaitingData
  | 0x7D => .awaitingDataFEC
  | _ => f

/-- `s` with the operation whose bits are `w` as the next request, issued by whoever may issue it, and, for an internal operation,
selected by `fstate` (log entry 8). -/
def withRequest (s : State) (nbits w : Nat) : State :=
  { s with
    port := .operation (issuerOf (opOfWord w)) (opOfWord w) (operandOfWord nbits w) :: s.port
    dfr := { s.dfr with fstate := selectFor (opOfWord w) s.dfr.fstate } }

end Machine
end Sys2Proof
end

