-- ==== Sys2Proof/Machine/Step.lean ====
section
/-! DEFINITION. One step of the block: it takes the oldest request at its port and runs it to its end (spec/20_memory.md R52,
"every operation is atomic"); with no request nothing happens (spec/60_exceptions.md R210). -/

namespace Sys2Proof
namespace Machine

/-- One step. -/
def step (s : State) : Host.Outcome State Fault Refusal :=
  match issue s with
  | .idle => .next s
  | .answered t => .next t
  | .run i t => exec i t

/-- `s` with the instruction whose bits are `w` placed where the next step takes it. -/
def State.withFetchWord (s : State) (nbits w : Nat) : State := withRequest s nbits w

end Machine
end Sys2Proof
end

