-- ==== Sys2Proof/Machine/Parametric.lean ====
section
/-! DEFINITION. The machine with the model parameters of spec/00_scope.md rule R8 as an argument ("the model takes it as an argument";
spec/10_state.md R28: they are "parameters of the step functions"). `exec` and `step` are these at the spec's defaults, `params`. -/

namespace Sys2Proof
namespace Machine

/-- The meaning of every operation, for any parameters. -/
def execWith (p : Config.Params) (i : Instr) (s : State) : Answer :=
  match i with
  | .cfgLoad rec => execCfgLoad rec s
  | .pn9Seed => execPn9Seed s
  | .pn9Next => execPn9Next s
  | .pn9Whiten b => execPn9Whiten b s
  | .crcInit => execCrcInit s
  | .crcUpdate b => execCrcUpdate b s
  | .crcCalc data => execCrcCalc data s
  | .crcVerify f => execCrcVerify f s
  | .ilvXform blk => execIlvXformWith p blk s
  | .cencSeed => execCencSeedWith p s
  | .cencBit x => execCencBitWith p x s
  | .cencByte b => execCencByteWith p b s
  | .fecEncode data => execFecEncodeWith p data s
  | .vitStart => execVitStartWith p s
  | .vitSymbol y => execVitSymbolWith p y s
  | .vitSend chunk => execVitSendWith p chunk s
  | .frmEncode m => execFrmEncodeWith p m s
  | .frmSerialize f => execFrmSerialize f s
  | .dfrPush q => execDfrPushWith p q s
  | .dfrReset => execDfrReset s
  | .dfrValidate body => execDfrValidate body s
  | .dfrStepSeekingPreamble => execDfrStepSeekingPreamble s
  | .dfrStepSeekingSyncWord => execDfrStepSeekingSyncWord s
  | .dfrStepAwaitingLength => execDfrStepAwaitingLength s
  | .dfrStepAwaitingLengthFEC => execDfrStepAwaitingLengthFECWith p s
  | .dfrStepAwaitingData => execDfrStepAwaitingData s
  | .dfrStepAwaitingDataFEC => execDfrStepAwaitingDataFECWith p s

/-- One step, for any parameters. -/
def stepWith (p : Config.Params) (s : State) : Answer :=
  match issue s with
  | .idle => .next s
  | .answered t => .next t
  | .run i t => execWith p i t

end Machine
end Sys2Proof
end

