-- ==== Sys2Proof/Safety.lean ====
section
/-! DEFINITION. The terms in which claims about this block are stated: the invariant that every step keeps, what it is for the
deframer to wait, and running a list of operations one after the other (spec/20_memory.md R54). -/

namespace Sys2Proof
namespace Machine

/-- The two trellis states that state `s` leads to (30_encoding.md R82: `((s << 1) or b) and 7`). -/
def trellisNext (s : Trellis) (b : Bit) : Trellis := s <<< 1 ||| (BitVec.ofBool b).setWidth 3

/-- Some state is within 2 for both its successors: what one symbol makes of a state of cost 0 (44_viterbi.md R142). -/
def NearAfterOne (c : Vector Nat 8) : Prop := ∃ s : Trellis, ∀ b : Bit, c.get (trellisNext s b).toFin ≤ 2

/-- Some state is within 4 for all its successors after two symbols (R142). -/
def NearAfterTwo (c : Vector Nat 8) : Prop :=
  ∃ s : Trellis, ∀ a b : Bit, c.get (trellisNext (trellisNext s a) b).toFin ≤ 4

/-- No cost is above `n`. -/
def CostsAtMost (n : Nat) (c : Vector Nat 8) : Prop := ∀ d : Trellis, c.get d.toFin ≤ n

/-- The costs of a session after 0, 1, 2, or 3 and more symbols (R142): one of them is 0, and they are at most 100, 102, 104, 6. -/
def CostsBounded (c : Vector Nat 8) : Prop :=
  (∃ d : Trellis, c.get d.toFin = 0) ∧
    (CostsAtMost 100 c ∨ (CostsAtMost 102 c ∧ NearAfterOne c) ∨ (CostsAtMost 104 c ∧ NearAfterOne c ∧ NearAfterTwo c) ∨
      (CostsAtMost 6 c ∧ NearAfterOne c ∧ NearAfterTwo c))

/-- A session as the rules leave it: the counter is below 32 between symbols (10_state.md R17), the costs are bounded and fit the
8-bit registers of R15 in both generations. -/
def Session.Ok (v : Session) : Prop :=
  v.nbits < vitFill ∧ CostsBounded v.prev.cost ∧ CostsAtMost 106 v.gen0.cost ∧ CostsAtMost 106 v.gen1.cost

/-- A configuration that CFG.LOAD accepts (46_deframer.md R170). -/
def Cfg.Legal (c : Cfg) : Prop := c.preambleLen ≠ 0#8 ∧ (c.syncRep = 1#2 ∨ c.syncRep = 2#2)

/-- The deframer holds nothing of a frame (10_state.md R22 to R24, 46_deframer.md R189). -/
def Deframer.Idle (d : Deframer) : Prop := d.length = none ∧ d.decbuf = [] ∧ d.pn9 = none ∧ d.vit = none

/-- What the deframer's registers hold in each of its states (10_state.md R19 to R24). -/
def Deframer.Ok (cfg : Option Cfg) (d : Deframer) : Prop :=
  match d.fstate with
  | .seekingPreamble => d.Idle
  | .seekingSyncWord => d.Idle ∧ cfg.isSome = true
  | .awaitingLength => d.Idle ∧ ∃ c, cfg = some c ∧ c.fecEn = false
  | .awaitingLengthFEC => d.Idle ∧ ∃ c, cfg = some c ∧ c.fecEn = true
  | .awaitingData =>
    ∃ c len, cfg = some c ∧ c.fecEn = false ∧ d.length = some len ∧ d.decbuf = [] ∧ d.vit = none ∧
      d.pn9.isSome = c.whitenEn ∧ d.pn9 ≠ some 0#9
  | .awaitingDataFEC =>
    ∃ c len v, cfg = some c ∧ c.fecEn = true ∧ d.length = some len ∧ d.vit = some v ∧ v.Ok ∧ v.nbits = 24 ∧
      d.decbuf.length ≤ len.toNat + 1 ∧ d.decbuf.length % 2 = 0 ∧ d.pn9.isSome = c.whitenEn ∧ d.pn9 ≠ some 0#9

/-- What the scratch registers hold: the whitening register never reaches 0 (40_whitening.md R92), the encoder register's low byte
is 0 between bytes (10_state.md R13), a session is as the rules leave it. -/
def Scratch.Ok (u : Scratch) : Prop :=
  u.pn9 ≠ some 0#9 ∧ (∀ r, u.enc = some r → r.extractLsb' 0 8 = 0#8) ∧ ∀ v, u.vit = some v → v.Ok

/-- The invariant of the block: `cfg_loaded` says whether CFG holds a record, the record is legal, and the deframer's and the scratch
registers hold what their rules leave in them. -/
def State.Inv (s : State) : Prop :=
  s.cfgLoaded = s.cfg.isSome ∧ (∀ c, s.cfg = some c → c.Legal) ∧ s.dfr.Ok s.cfg ∧ s.u.Ok

/-- The deframer waits for more bits: the step rule that `fstate` selects would change nothing (46_deframer.md R173). -/
def State.Waits (s : State) : Prop := dfrStep params s.cfg s.dfr = .wait

/-- A run is safe as long as the fault latch is clear (60_exceptions.md R212: every operation is refused after that). -/
def State.Safe (s : State) : Prop := s.fault = false

/-- Operations one after the other, stopping at a fault or refusal of the model (there is none). -/
def execAll : List Instr → State → Answer
  | [], s => .next s
  | i :: is, s =>
    match exec i s with
    | .next t => execAll is t
    | .fault f => .fault f
    | .refused r => .refused r

/-- Operations one after the other, the bytes they answer put together; `none` when one does not answer bytes. -/
def collectBytes : List Instr → State → Option (List Byte)
  | [], _ => some []
  | i :: is, s =>
    match exec i s with
    | .next t =>
      match t.result with
      | .bytes bs => (collectBytes is t).map (bs ++ ·)
      | _ => none
    | .fault _ => none
    | .refused _ => none

/-- The messages an operation answered, if it answered messages (46_deframer.md R172). -/
def Result.messageList : Result → List Message
  | .messages ms => ms
  | _ => []

end Machine
end Sys2Proof
end

