-- ==== Sys2Proof/Certificates/Slice0/Obligations.lean ====
section
/-! DEFINITION. The statements for the provers. Each docstring names the rule of spec/ it formalises. Where a statement writes out the
whole next state, `result` and `events` are the model's homes of what the operation returns and of what it puts on the delivery and
event ports (log entries 4 and 5), and every field it does not name is unchanged: the frame. -/

open Sys2Proof Sys2Proof.Machine

namespace Sys2Proof
namespace Claims

/-- `CrcStep(c, x)` written from 41_crc16.md R102. -/
def crcStepSpec (c : BitVec 16) (x : Bit) : BitVec 16 :=
  (c <<< 1) ^^^ (if (c.getLsbD 15 ^^ x) = true then 0x8005#16 else 0#16)

/-- Pair `k` of a byte, pair 0 on top (20_memory.md R49). -/
def pairOf (b : Byte) (k : Nat) : Symbol := b.extractLsb' (6 - 2 * k) 2

/-- The four pairs of a byte in order. -/
def pairsOf (b : Byte) : List Symbol := [pairOf b 0, pairOf b 1, pairOf b 2, pairOf b 3]

/-- One turn of the register procedure of 43_conv_encoder.md R122: the table is read at the top 4 bits, the register moves left. -/
def registerTurn (r : List Symbol × BitVec 11) : List Symbol × BitVec 11 :=
  (r.1 ++ [params.encTable.get (r.2.extractLsb' 7 4).toFin], r.2 <<< 1)

/-- The register procedure of R122 for one byte: load below the three state bits, then eight turns. -/
def registerProcedure (enc : BitVec 11) (b : Byte) : List Symbol × BitVec 11 :=
  registerTurn^[8] ([], (enc &&& 0x700#11) ||| b.setWidth 11)

/-- Consecutive chunks of four bytes. -/
def chunksOf (bs : List Byte) : List (List Byte) :=
  (List.range (bs.length / 4)).map fun k => slice bs (4 * k) (4 * k + 4)

/-- The bit sequence as samples at the port (log entry 1). -/
def samplesOf (q : List Bit) : List Byte := q.map fun x => if x then 1#8 else 0#8

/-- The bytes with the bit at position `i` of their serialisation inverted. -/
def flipBit (bs : List Byte) (i : Nat) : List Byte :=
  bs.modify (i / 8) fun b => b ^^^ (0x80#8 >>> (i % 8))

/-- What DFR.VALIDATE reports, written from 46_deframer.md R188. -/
def reportOf (c : Cfg) (len : Byte) (body : List Byte) : Event :=
  if len.toNat < 5 then .shortLength len
  else
    let computed := crc16 (len :: body.take (len.toNat - 2))
    let received : BitVec 16 := body.getD (len.toNat - 1) 0#8 ++ body.getD (len.toNat - 2) 0#8
    if computed ≠ received then .crcError computed received
    else if body.getD 0 0#8 &&& c.flagsMask = c.flags then
      .deliver ((body.take (len.toNat - 2)).drop (len.toNat - 4) ++ (body.take (len.toNat - 4)).drop 1)
    else .filtered (body.getD 0 0#8)

/-- The deframer after FrameEnd with `rest` still buffered (46_deframer.md R189). -/
def endedWith (rest : List Bit) : Deframer := ⟨.seekingPreamble, rest, none, [], none, none⟩

/-- Steps that move, one after the other, with what they put on the ports in order (46_deframer.md R172). -/
inductive Moves (cfg : Option Cfg) : Deframer → List Event → Deframer → Prop where
  | done (d : Deframer) : Moves cfg d [] d
  | more {d d' d'' : Deframer} {ev evs : List Event} :
      dfrStep params cfg d = .moved d' ev → Moves cfg d' evs d'' → Moves cfg d (ev ++ evs) d''

/-- The cost of candidate `j` for state `d` (44_viterbi.md R139), from the arithmetic of 30_encoding.md R82. -/
def candSpec (g : Generation) (y : Symbol) (d : Fin 8) (j : Nat) : Nat :=
  let src := d.val / 2 + 4 * j
  let out := params.encTable.get ⟨(2 * src + d.val % 2) % 16, by omega⟩
  g.cost.getD src 0 + ((y.getLsbD 1 ^^ out.getLsbD 1).toNat + (y.getLsbD 0 ^^ out.getLsbD 0).toNat)

/-- The source state that survives: candidate 0 unless candidate 1 is strictly cheaper (R140). -/
def keptSpec (g : Generation) (y : Symbol) (d : Fin 8) : Nat :=
  if candSpec g y d 0 ≤ candSpec g y d 1 then d.val / 2 else d.val / 2 + 4

end Claims
end Sys2Proof

open Sys2Proof.Claims

/-! ### Whitening (spec/40_whitening.md) -/

/-- R92: all bits move one place toward bit 0, the feedback `s[5] xor s[0]` enters at bit 8; the eight steps from 0x1FF of the rule's
example. The direction is the spec's decision D28 (log entry 26). That the step is a bijection and that the orbit of 0x1FF never meets the
fixed point 0 stand in R92 inside its own mark "derived". -/
def Obligations.Pn9StepShiftsTowardBitZero : Prop :=
  (∀ s : BitVec 9, (pn9Step s).getLsbD 8 = (s.getLsbD 5 ^^ s.getLsbD 0) ∧
    ∀ i : Fin 8, (pn9Step s).getLsbD i.val = s.getLsbD (i.val + 1)) ∧
  Function.Bijective pn9Step ∧ pn9Step 0#9 = 0#9 ∧ (∀ n : Nat, pn9Advance n 0x1FF#9 ≠ 0#9) ∧
  (List.range 8).map (fun k => pn9Advance (k + 1) 0x1FF#9) =
    [0x0FF#9, 0x07F#9, 0x03F#9, 0x01F#9, 0x10F#9, 0x187#9, 0x1C3#9, 0x1E1#9]

/-- R91: PN9.SEED writes 0x1FF, whatever the register held. -/
def Obligations.Pn9SeedWritesAllOnes : Prop :=
  ∀ s : State, s.fault = false →
    exec .pn9Seed s = .next { s with u := { s.u with pn9 := some 0x1FF#9 }, result := .none, events := [] }

/-- R93: PN9.NEXT returns the low byte and leaves the register eight steps on, whose bits are the old bit 8 and seven feedback bits
and one more; on `none` it is the fatal StateAbsent and changes nothing else. -/
def Obligations.Pn9NextReturnsLowByteThenMoves : Prop :=
  (∀ (s : State) (r : BitVec 9), s.fault = false → s.u.pn9 = some r →
    ∃ n : BitVec 9,
      exec .pn9Next s = .next { s with
        u := { s.u with pn9 := some n }, result := .byte (r.extractLsb' 0 8), events := [] } ∧
      n = pn9Step (pn9Step (pn9Step (pn9Step (pn9Step (pn9Step (pn9Step (pn9Step r))))))) ∧
      n.getLsbD 0 = r.getLsbD 8 ∧
      (∀ k : Fin 4, n.getLsbD (k.val + 1) = (r.getLsbD (k.val + 5) ^^ r.getLsbD k.val)) ∧
      (∀ k : Fin 4, n.getLsbD (k.val + 5) = (r.getLsbD (k.val + 5) ^^ r.getLsbD k.val ^^ r.getLsbD (k.val + 4)))) ∧
  (∀ s : State, s.fault = false → s.u.pn9 = none →
    exec .pn9Next s = .next { s with fault := true, result := .error (.stateAbsent .uPn9), events := [] })

/-- R94: PN9.WHITEN returns `b xor` the byte PN9.NEXT returns, and moves the register as PN9.NEXT does; StateAbsent as there. -/
def Obligations.Pn9WhitenXorsNextByte : Prop :=
  (∀ (s : State) (b : Byte) (r : BitVec 9), s.fault = false → s.u.pn9 = some r →
    ∃ (k : Byte) (n : BitVec 9),
      exec .pn9Next s = .next { s with u := { s.u with pn9 := some n }, result := .byte k, events := [] } ∧
      exec (.pn9Whiten b) s = .next { s with u := { s.u with pn9 := some n }, result := .byte (b ^^^ k), events := [] }) ∧
  (∀ (s : State) (b : Byte), s.fault = false → s.u.pn9 = none →
    exec (.pn9Whiten b) s = .next { s with fault := true, result := .error (.stateAbsent .uPn9), events := [] })

/-- R95: byte i of the output is byte i of the input xor the byte of the (i+1)-th PN9.NEXT, and the register ends `len(data)` calls
on. -/
def Obligations.WhitenUsesSuccessiveGeneratorBytes : Prop :=
  ∀ (data : List Byte) (r : BitVec 9),
    (whiten data r).1.length = data.length ∧
    (∀ (i : Nat) (b : Byte), data[i]? = some b →
      (whiten data r).1[i]? = some (b ^^^ (pn9Next ((fun x => (pn9Next x).2)^[i] r)).1)) ∧
    (whiten data r).2 = (fun x => (pn9Next x).2)^[data.length] r

/-- R96(b): whitening twice from the same register value gives the data back. -/
def Obligations.WhitenTwiceRestoresData : Prop :=
  ∀ (data : List Byte) (r : BitVec 9), whiten (whiten data r).1 r = (data, (whiten data r).2)

/-- R96(a), (c): the first bytes from a fresh seed, and the register's period of 511 single-bit steps, not fewer. -/
def Obligations.GeneratorSequenceAndPeriod : Prop :=
  (whiten (List.replicate 32 0#8) 0x1FF#9).1 =
    [0xFF#8, 0xE1#8, 0x1D#8, 0x9A#8, 0xED#8, 0x85#8, 0x33#8, 0x24#8, 0xEA#8, 0x7A#8, 0xD2#8, 0x39#8, 0x70#8, 0x97#8, 0x57#8, 0x0A#8,
     0x54#8, 0x7D#8, 0x2D#8, 0xD8#8, 0x6D#8, 0x0D#8, 0xBA#8, 0x8F#8, 0x67#8, 0x59#8, 0xC7#8, 0xA2#8, 0xBF#8, 0x34#8, 0xCA#8, 0x18#8] ∧
  pn9Advance 511 0x1FF#9 = 0x1FF#9 ∧ ∀ n : Nat, 0 < n → n < 511 → pn9Advance n 0x1FF#9 ≠ 0x1FF#9

/-! ### Checksum (spec/41_crc16.md) -/

/-- R101: CRC.INIT writes 0xFFFF. -/
def Obligations.CrcInitWritesAllOnes : Prop :=
  ∀ s : State, s.fault = false →
    exec .crcInit s = .next { s with u := { s.u with crc := some 0xFFFF#16 }, result := .none, events := [] }

/-- R103 with R102: CRC.UPDATE applies the eight bits of the byte, bit 7 first; on `none` it is the fatal StateAbsent. -/
def Obligations.CrcUpdateAppliesEightBits : Prop :=
  (∀ (s : State) (b : Byte) (c : BitVec 16), s.fault = false → s.u.crc = some c →
    exec (.crcUpdate b) s = .next { s with
      u := { s.u with
        crc := some (crcStepSpec (crcStepSpec (crcStepSpec (crcStepSpec (crcStepSpec (crcStepSpec (crcStepSpec (crcStepSpec c
          (b.getLsbD 7)) (b.getLsbD 6)) (b.getLsbD 5)) (b.getLsbD 4)) (b.getLsbD 3)) (b.getLsbD 2)) (b.getLsbD 1)) (b.getLsbD 0)) },
      result := .none, events := [] }) ∧
  (∀ (s : State) (b : Byte), s.fault = false → s.u.crc = none →
    exec (.crcUpdate b) s = .next { s with fault := true, result := .error (.stateAbsent .uCrc), events := [] })

/-- 30_encoding.md R78: CRC.CALC is CRC.INIT, CRC.UPDATE per byte, read `crc`; and CRC.CALC itself writes no state (R104). -/
def Obligations.CrcCalcIsInitThenUpdates : Prop :=
  ∀ (s : State) (data : List Byte), s.fault = false →
    ∃ c : BitVec 16,
      execAll (.crcInit :: data.map .crcUpdate) s =
        .next { s with u := { s.u with crc := some c }, result := .none, events := [] } ∧
      exec (.crcCalc data) s = .next { s with result := .word c, events := [] }

/-- R105: the last two bytes, low byte first, are compared with the checksum of the others; equal is ok, different is CRCError with
expected = computed and actual = received, which changes nothing (R202); fewer than two bytes is refused with
no effect (the words 'is refused' read as the class refusal of 60_exceptions.md R200, log entry 3). -/
def Obligations.CrcVerifyComparesTrailingBytes : Prop :=
  (∀ (s : State) (data : List Byte) (lo hi : Byte), s.fault = false →
    exec (.crcVerify (data ++ [lo, hi])) s = .next { s with
      result := if crc16 data = (hi ++ lo : BitVec 16) then .ok else .error (.crcError (crc16 data) (hi ++ lo : BitVec 16)),
      events := [] }) ∧
  (∀ (s : State) (f : List Byte), s.fault = false → f.length < 2 →
    ∃ e, errClass e = .refusal ∧ exec (.crcVerify f) s = .next { s with result := .error e, events := [] })

/-- 46_deframer.md R192(b): a sequence that verifies, with any one of its bytes changed, gives CRCError. -/
def Obligations.CrcVerifyCatchesOneChangedByte : Prop :=
  ∀ (s t : State) (f : List Byte) (i : Nat) (b : Byte), s.fault = false → i < f.length → f[i]? ≠ some b →
    exec (.crcVerify f) s = .next t → t.result = .ok →
    ∃ expected actual,
      exec (.crcVerify (f.set i b)) s = .next { s with result := .error (.crcError expected actual), events := [] }

/-! ### Interleaver (spec/42_interleaver.md) -/

/-- 30_encoding.md R83: `perm(4r + c) = 4c + r`; the permutation (the default ILV_PERM, log entry 13) is its own inverse and
fixes exactly positions 0, 5, 10, 15. -/
def Obligations.InterleaverPermutationIsTranspose : Prop :=
  (∀ r c : Fin 4, (params.ilvPerm.get ⟨4 * r.val + c.val, by omega⟩).val = 4 * c.val + r.val) ∧
  (∀ k : Fin 16, params.ilvPerm.get (params.ilvPerm.get k) = k) ∧
  ∀ k : Fin 16, params.ilvPerm.get k = k ↔ k = 0 ∨ k = 5 ∨ k = 10 ∨ k = 15

/-- R111: output byte r, pair c is input byte c, pair r; any other number of bytes is the fatal MalformedInterleaveInput. -/
def Obligations.IlvXformTransposesPairs : Prop :=
  (∀ (s : State) (b0 b1 b2 b3 : Byte), s.fault = false →
    ∃ o0 o1 o2 o3 : Byte,
      exec (.ilvXform [b0, b1, b2, b3]) s = .next { s with result := .bytes [o0, o1, o2, o3], events := [] } ∧
      ∀ r c : Fin 4, pairOf ([o0, o1, o2, o3].getD r.val 0#8) c.val = pairOf ([b0, b1, b2, b3].getD c.val 0#8) r.val) ∧
  (∀ (s : State) (blk : List Byte), s.fault = false → blk.length ≠ 4 →
    exec (.ilvXform blk) s = .next { s with
      fault := true, result := .error (.malformedInterleaveInput blk.length), events := [] })

/-- R112: ILV.XFORM applied to its own result gives the block back. -/
def Obligations.IlvXformIsItsOwnInverse : Prop :=
  ∀ (s : State) (blk : List Byte), s.fault = false → blk.length = 4 →
    ∃ (t : State) (out : List Byte), exec (.ilvXform blk) s = .next t ∧ t.result = .bytes out ∧ out.length = 4 ∧
      exec (.ilvXform out) t = .next { t with result := .bytes blk, events := [] }

/-! ### Convolutional encoder (spec/43_conv_encoder.md) -/

/-- R121: CENC.SEED puts ENC_SEED in the three state bits and 0 below them. -/
def Obligations.CencSeedLoadsStateBits : Prop :=
  ∀ s : State, s.fault = false →
    ∃ enc : BitVec 11,
      exec .cencSeed s = .next { s with u := { s.u with enc := some enc }, result := .none, events := [] } ∧
      enc.extractLsb' 8 3 = params.encSeed ∧ enc.extractLsb' 0 8 = 0#8

/-- R123 with the two generator equations of 30_encoding.md R81 (they rest on the default ENC_TABLE, log entry 9): the symbol's bits
and the new state; on `none` the fatal StateAbsent. -/
def Obligations.CencBitFollowsGenerators : Prop :=
  (∀ (s : State) (x : Bit) (enc : BitVec 11), s.fault = false → s.u.enc = some enc →
    ∃ (y : Symbol) (n : BitVec 11),
      exec (.cencBit x) s = .next { s with u := { s.u with enc := some n }, result := .symbol y, events := [] } ∧
      y.getLsbD 1 = (x ^^ enc.getLsbD 9 ^^ enc.getLsbD 10) ∧
      y.getLsbD 0 = (x ^^ enc.getLsbD 8 ^^ enc.getLsbD 9 ^^ enc.getLsbD 10) ∧
      n.getLsbD 8 = x ∧ n.getLsbD 9 = enc.getLsbD 8 ∧ n.getLsbD 10 = enc.getLsbD 9 ∧ n.extractLsb' 0 8 = 0#8) ∧
  (∀ (s : State) (x : Bit), s.fault = false → s.u.enc = none →
    exec (.cencBit x) s = .next { s with fault := true, result := .error (.stateAbsent .uEnc), events := [] })

/-- R124 against R122: CENC.BYTE gives the bytes and the register that the load-then-shift procedure of R122 gives, and the state
after it is `b[2:0]`; on `none` the fatal StateAbsent. -/
def Obligations.CencByteIsTheRegisterProcedure : Prop :=
  (∀ (s : State) (b : Byte) (enc : BitVec 11), s.fault = false → s.u.enc = some enc →
    ∃ (h l : Byte) (n : BitVec 11),
      exec (.cencByte b) s = .next { s with u := { s.u with enc := some n }, result := .bytes [h, l], events := [] } ∧
      registerProcedure enc b = (pairsOf h ++ pairsOf l, n) ∧
      n.extractLsb' 8 3 = b.extractLsb' 0 3) ∧
  (∀ (s : State) (b : Byte), s.fault = false → s.u.enc = none →
    exec (.cencByte b) s = .next { s with fault := true, result := .error (.stateAbsent .uEnc), events := [] })

/-- R127 to R130 and 30_encoding.md R78: FEC.ENCODE(data) is CENC.SEED, CENC.BYTE per byte of `data ++ 0B 0B` (their bytes put together),
`00 00` behind a two-byte remainder, and ILV.XFORM of each block of four on its own; its output has `4 * ceil((m+2)/2)` bytes, and
UnsupportedRemainder never arises. -/
def Obligations.FecEncodePadsAndInterleaves : Prop :=
  ∀ (s : State) (data : List Byte), s.fault = false →
    ∃ (t : State) (out coded e : List Byte),
      exec (.fecEncode data) s = .next { s with result := .bytes out, events := [] } ∧
      exec .cencSeed s = .next t ∧
      collectBytes ((data ++ [0x0B#8, 0x0B#8]).map .cencByte) t = some coded ∧
      coded.length = 2 * (data.length + 2) ∧
      e = coded ++ (if data.length % 2 = 1 then [0x00#8, 0x00#8] else []) ∧
      e.length = out.length ∧ out.length = 4 * ((data.length + 3) / 2) ∧
      ∀ k : Nat, k < out.length / 4 →
        exec (.ilvXform (slice e (4 * k) (4 * k + 4))) s =
          .next { s with result := .bytes (slice out (4 * k) (4 * k + 4)), events := [] }

/-- R125 (with the default ENC_TABLE and ENC_SEED, log entries 9 and 10): the encoder is linear over xor. -/
def Obligations.EncoderIsLinearOverXor : Prop :=
  ∀ a b : List Byte, a.length = b.length →
    encBytes params (List.zipWith (· ^^^ ·) a b) (encStart params) =
      List.zipWith (· ^^^ ·) (encBytes params a (encStart params)) (encBytes params b (encStart params))

/-- 30_encoding.md R82 (derived there from the default ENC_TABLE, log entry 9): the table of the rule, row by row. -/
def Obligations.TrellisTablesFollowTheEncoder : Prop :=
  (List.range 8).map (fun d =>
      let x : Trellis := BitVec.ofNat 3 d
      (trellisIn x, (trellisSrc x false).toNat, (trellisSrc x true).toNat, (trellisOut params x false).toNat,
        (trellisOut params x true).toNat)) =
    [(false, 0, 4, 0, 3), (true, 0, 4, 3, 0), (false, 1, 5, 1, 2), (true, 1, 5, 2, 1), (false, 2, 6, 3, 0), (true, 2, 6, 0, 3),
     (false, 3, 7, 2, 1), (true, 3, 7, 1, 2)] ∧
  ∀ d : Trellis, trellisOut params d true = trellisOut params d false ^^^ 3#2

/-! ### Viterbi decoder (spec/44_viterbi.md) -/

/-- R137: VIT.START writes VIT_INIT_COST and zero traceback registers in both generations, and 0 in the counter. -/
def Obligations.VitStartFreshSession : Prop :=
  ∀ s : State, s.fault = false →
    ∃ v : Session,
      exec .vitStart s = .next { s with u := { s.u with vit := some v }, result := .none, events := [] } ∧
      v.nbits = 0 ∧ v.cur = false ∧
      (∀ d : Fin 8, v.gen0.cost.get d = params.vitInitCost.get d ∧ v.gen1.cost.get d = params.vitInitCost.get d) ∧
      ∀ d : Fin 8, v.gen0.path.get d = 0#32 ∧ v.gen1.path.get d = 0#32

/-- R143 with R139 to R142, R144, R145 (VIT_TIE at its default, log entry 12): each state keeps the cheaper of its two candidates,
the first on a tie; the least cost is taken off all; the survivor's register moves left and takes the input bit; a byte comes out of
state 0's new register when the counter reaches 32, and the counter drops to 24. On `none` the fatal StateAbsent. -/
def Obligations.VitSymbolAddCompareSelect : Prop :=
  (∀ (s : State) (y : Symbol) (v : Session), s.fault = false → s.u.vit = some v →
    ∃ (w : Session) (m : Nat),
      exec (.vitSymbol y) s = .next { s with
        u := { s.u with vit := some w },
        result := .bytes (if v.nbits + 1 = 32 then [(w.prev.path.get 0).extractLsb' 24 8] else []), events := [] } ∧
      (∀ d : Fin 8, m ≤ min (candSpec v.prev y d 0) (candSpec v.prev y d 1)) ∧
      (∃ d : Fin 8, m = min (candSpec v.prev y d 0) (candSpec v.prev y d 1)) ∧
      (∀ d : Fin 8, w.prev.cost.get d = min (candSpec v.prev y d 0) (candSpec v.prev y d 1) - m) ∧
      (∀ d : Fin 8, w.prev.path.get d =
        v.prev.path.getD (keptSpec v.prev y d) 0#32 <<< 1 ||| BitVec.ofNat 32 (d.val % 2)) ∧
      w.nbits = (if v.nbits + 1 = 32 then 24 else v.nbits + 1) ∧ w.cur = !v.cur) ∧
  (∀ (s : State) (y : Symbol), s.fault = false → s.u.vit = none →
    exec (.vitSymbol y) s = .next { s with fault := true, result := .error (.stateAbsent .uVit), events := [] })

/-- R142 (with the default VIT_INIT_COST, log entry 11): the costs of a session stay bounded, and before normalisation none exceeds
106, so a register of VIT_COST_WIDTH bits, by default the 8 of 10_state.md R15 (log entry 14), is enough. -/
def Obligations.ViterbiCostsStayBounded : Prop :=
  CostsBounded (startSession params).prev.cost ∧
  ∀ (v : Session) (y : Symbol), CostsBounded v.prev.cost →
    CostsBounded (vitSymbol params v y).2.prev.cost ∧
      ∀ d : Trellis, newCost params v.prev y d ≤ 106 ∧ newCost params v.prev y d < 2 ^ params.vitCostWidth

/-- R146: after n symbols of a session 0 bytes have come out when n < 32 and `floor((n-24)/8)` otherwise, and after k chunks
`max(0, 2k-3)`. -/
def Obligations.ViterbiOutputCount : Prop :=
  (∀ ys : List Symbol,
    (vitSymbols params (startSession params) ys).1.length = if ys.length < 32 then 0 else (ys.length - 24) / 8) ∧
  ∀ chunks : List (List Byte), (∀ ch ∈ chunks, ch.length = 4) →
    ∃ out v, vitSendAll params (startSession params) chunks = .ok (out, v) ∧ out.length = 2 * chunks.length - 3

/-- R147: VIT.SEND deinterleaves the chunk with ILV.XFORM and runs VIT.SYMBOL on its sixteen symbols in order; with no session it is
StateAbsent, and a chunk of another length is MalformedInterleaveInput and leaves the session as it was. -/
def Obligations.VitSendRunsSixteenSymbols : Prop :=
  (∀ (s : State) (chunk : List Byte) (v : Session), s.fault = false → s.u.vit = some v → chunk.length = 4 →
    ∃ (t : State) (blk out : List Byte) (w : Session),
      exec (.ilvXform chunk) s = .next t ∧ t.result = .bytes blk ∧
      vitSymbols params v (blk.flatMap pairsOf) = (out, w) ∧
      exec (.vitSend chunk) s = .next { s with u := { s.u with vit := some w }, result := .bytes out, events := [] }) ∧
  (∀ (s : State) (chunk : List Byte), s.fault = false → s.u.vit = none →
    exec (.vitSend chunk) s = .next { s with fault := true, result := .error (.stateAbsent .uVit), events := [] }) ∧
  (∀ (s : State) (chunk : List Byte) (v : Session), s.fault = false → s.u.vit = some v → chunk.length ≠ 4 →
    exec (.vitSend chunk) s = .next { s with
      fault := true, result := .error (.malformedInterleaveInput chunk.length), events := [] })

/-- R148(a), for the default parameters (log entries 9 to 13): the chunks of FEC.ENCODE(data), sent to a fresh session, return the first
`2k - 3` bytes of `data ++ 0B 0B`, k the number of chunks. -/
def Obligations.ViterbiDecodesCleanInput : Prop :=
  ∀ data : List Byte, ∃ (coded : List Byte) (v : Session),
    fecEncode params data = .ok coded ∧
    vitSendAll params (startSession params) (chunksOf coded) =
      .ok ((data ++ [0x0B#8, 0x0B#8]).take (2 * (chunksOf coded).length - 3), v)

/-- R148(b), for the default parameters (log entries 9 to 13): with any single bit of the encoded chunks flipped, the decoder still
returns the bytes of the data (as many as come out without further chunks). -/
def Obligations.ViterbiCorrectsOneFlippedBit : Prop :=
  ∀ (data coded : List Byte) (i : Nat), fecEncode params data = .ok coded → i < 8 * coded.length →
    ∃ v : Session,
      vitSendAll params (startSession params) (chunksOf (flipBit coded i)) =
        .ok (data.take (2 * (chunksOf coded).length - 3), v)

/-! ### Framer (spec/45_framer.md) -/

/-- R156 to R161: the frame of a message under the loaded configuration in all four modes, with the sizes of 30_encoding.md R68; the
two refusals. -/
def Obligations.FrmEncodeBuildsTheFrame : Prop :=
  (∀ (s : State) (c : Cfg) (m : Message), s.fault = false → s.cfgLoaded = true → s.cfg = some c →
    2 ≤ m.length → m.length ≤ 252 →
    ∃ (coded : List Byte) (plain ds white : List Byte),
      exec (.frmEncode m) s = .next { s with
        result := .bytes (List.replicate c.preambleLen.toNat 0xAA#8 ++
          (List.replicate c.syncRep.toNat [c.sync0, c.sync1]).flatten ++ coded),
        events := [] } ∧
      plain = [BitVec.ofNat 8 ((m.drop 2).length + 5), c.flags] ++ m.drop 2 ++ m.take 2 ∧
      ds = plain ++ [(crc16 plain).extractLsb' 0 8, (crc16 plain).extractLsb' 8 8] ∧
      white = (if c.whitenEn then (whiten ds 0x1FF#9).1 else ds) ∧
      (if c.fecEn then fecEncode params white = .ok coded else coded = white) ∧
      coded.length = if c.fecEn then 4 * ((m.length + 7) / 2) else m.length + 4) ∧
  (∀ (s : State) (m : Message), s.fault = false → s.cfgLoaded = false →
    exec (.frmEncode m) s = .next { s with result := .error .notConfigured, events := [] }) ∧
  (∀ (s : State) (m : Message), s.fault = false → s.cfgLoaded = true → m.length < 2 ∨ 252 < m.length →
    exec (.frmEncode m) s = .next { s with result := .error (.badMessageLength m.length), events := [] })

/-- R162: FRM.SERIALIZE gives `8 * len(f)` bits, each byte most significant bit first; packing them gives the bytes back. -/
def Obligations.FrmSerializeMostSignificantFirst : Prop :=
  ∀ (s : State) (f : List Byte), s.fault = false →
    ∃ q : List Bit,
      exec (.frmSerialize f) s = .next { s with result := .bits q, events := [] } ∧ q.length = 8 * f.length ∧
      (∀ (i : Nat) (b : Byte), f[i]? = some b → ∀ j : Fin 8, q[8 * i + j.val]? = some (b.getLsbD (7 - j.val))) ∧
      pack q = f

/-! ### Configuration and deframer (spec/46_deframer.md) -/

/-- R170: the four checks in their order, and a record that passes them is loaded field by field. -/
def Obligations.CfgLoadChecksInOrder : Prop :=
  ∀ (s : State) (r : CfgRecord), s.fault = false →
    if s.cfgLoaded = true then
      exec (.cfgLoad r) s = .next { s with result := .error (.configError .alreadyLoaded), events := [] }
    else if r.syncRep ≠ 1 ∧ r.syncRep ≠ 2 then
      exec (.cfgLoad r) s = .next { s with result := .error (.configError .syncRep), events := [] }
    else if r.preambleLen = 0 then
      exec (.cfgLoad r) s = .next { s with result := .error (.configError .preambleLen), events := [] }
    else if 256 ≤ r.preambleLen ∨ 2048 ≤ r.quality ∨ 256 ≤ r.sync0 ∨ 256 ≤ r.sync1 ∨ 256 ≤ r.flags ∨ 256 ≤ r.flagsMask ∨
        2 ≤ r.fecEn ∨ 2 ≤ r.whitenEn then
      exec (.cfgLoad r) s = .next { s with result := .error (.configError .range), events := [] }
    else
      ∃ c : Cfg,
        exec (.cfgLoad r) s = .next { s with cfg := some c, cfgLoaded := true, result := .none, events := [] } ∧
        c.preambleLen.toNat = r.preambleLen ∧ c.quality.toNat = r.quality ∧ c.sync0.toNat = r.sync0 ∧
        c.sync1.toNat = r.sync1 ∧ c.syncRep.toNat = r.syncRep ∧ c.flags.toNat = r.flags ∧
        c.flagsMask.toNat = r.flagsMask ∧ c.fecEn.toNat = r.fecEn ∧ c.whitenEn.toNat = r.whitenEn

/-- 10_state.md R32: once loaded, no operation changes the configuration. -/
def Obligations.ConfigurationIsImmutable : Prop :=
  ∀ (i : Instr) (s t : State), s.cfgLoaded = true → exec i s = .next t → t.cfg = s.cfg ∧ t.cfgLoaded = true

/-- R172's two checks, 60_exceptions.md R209 and R211: before configuration DFR.PUSH is refused; a sample other than 0 and 1 refuses the
whole operand with the index of the first one. -/
def Obligations.DfrPushRefusals : Prop :=
  (∀ (s : State) (q : List Byte), s.fault = false → s.cfgLoaded = false →
    exec (.dfrPush q) s = .next { s with result := .error .notConfigured, events := [] }) ∧
  (∀ (s : State) (good rest : List Byte) (x : Byte), s.fault = false → s.cfgLoaded = true →
    (∀ g ∈ good, g = 0#8 ∨ g = 1#8) → x ≠ 0#8 → x ≠ 1#8 →
    exec (.dfrPush (good ++ x :: rest)) s = .next { s with result := .error (.badBitSample good.length), events := [] })

/-- R172 with R173: in a state that keeps the invariant, DFR.PUSH appends the bits and runs steps that move until the selected one
waits, and returns the delivered messages in order; no fatal error arises (60_exceptions.md R214). -/
def Obligations.DfrPushRunsUntilAStepWaits : Prop :=
  ∀ (s : State) (q : List Bit), s.fault = false → s.cfgLoaded = true → s.Inv →
    ∃ (d : Deframer) (ev : List Event),
      exec (.dfrPush (samplesOf q)) s = .next { s with dfr := d, result := .messages (delivered ev), events := ev } ∧
      Moves s.cfg { s.dfr with bitbuf := s.dfr.bitbuf ++ q } ev d ∧ dfrStep params s.cfg d = .wait

/-- 20_memory.md R54(a): the result of pushes depends only on the concatenation of the bits pushed. -/
def Obligations.ChunkingOfPushesDoesNotMatter : Prop :=
  ∀ (s : State) (q1 q2 : List Bit), s.fault = false → s.cfgLoaded = true → s.Inv →
    ∃ (t1 t2 t : State) (m1 m2 : List Message),
      exec (.dfrPush (samplesOf q1)) s = .next t1 ∧ t1.result = .messages m1 ∧
      exec (.dfrPush (samplesOf q2)) t1 = .next t2 ∧ t2.result = .messages m2 ∧
      exec (.dfrPush (samplesOf (q1 ++ q2))) s = .next t ∧ t.result = .messages (m1 ++ m2) ∧
      t.dfr = t2.dfr ∧ t.events = t1.events ++ t2.events

/-- R174: DFR.RESET clears the deframer's six registers and nothing else, configured or not. -/
def Obligations.DfrResetClearsOnlyTheDeframer : Prop :=
  ∀ s : State, s.fault = false →
    exec .dfrReset s = .next { s with dfr := ⟨.seekingPreamble, [], none, [], none, none⟩, result := .none, events := [] }

/-- R178 with R175: wait for a window of P bits; accept it when its first bit is 1 and at least QUALITY bits match the alternating
pattern; otherwise drop one bit. -/
def Obligations.SeekingPreambleStep : Prop :=
  ∀ (s : State) (c : Cfg), s.fault = false → s.dfr.fstate = .seekingPreamble → s.cfg = some c → c.Legal →
    let p := 8 * c.preambleLen.toNat
    let w := s.dfr.bitbuf.take p
    let matching := ((List.range p).filter fun i => w[i]? == some (i % 2 == 0)).length
    if s.dfr.bitbuf.length < p then
      exec .dfrStepSeekingPreamble s = .next { s with result := .progress false, events := [] }
    else if w[0]? = some true ∧ c.quality.toNat ≤ matching then
      exec .dfrStepSeekingPreamble s = .next { s with
        dfr := { s.dfr with bitbuf := s.dfr.bitbuf.drop p, fstate := .seekingSyncWord },
        result := .progress true, events := [] }
    else
      exec .dfrStepSeekingPreamble s = .next { s with
        dfr := { s.dfr with bitbuf := s.dfr.bitbuf.drop 1 }, result := .progress true, events := [] }

/-- R180: wait for S bits; on an exact match of the sync word consume them and go to the state FEC_EN selects; otherwise drop one bit and
fall back. -/
def Obligations.SeekingSyncWordStep : Prop :=
  ∀ (s : State) (c : Cfg), s.fault = false → s.dfr.fstate = .seekingSyncWord → s.cfg = some c → c.Legal →
    let word := (List.replicate c.syncRep.toNat [c.sync0, c.sync1]).flatten
    let n := 16 * c.syncRep.toNat
    if s.dfr.bitbuf.length < n then
      exec .dfrStepSeekingSyncWord s = .next { s with result := .progress false, events := [] }
    else if s.dfr.bitbuf.take n = ser word then
      exec .dfrStepSeekingSyncWord s = .next { s with
        dfr := { s.dfr with
          bitbuf := s.dfr.bitbuf.drop n, fstate := if c.fecEn then .awaitingLengthFEC else .awaitingLength },
        result := .progress true, events := [] }
    else
      exec .dfrStepSeekingSyncWord s = .next { s with
        dfr := { s.dfr with bitbuf := s.dfr.bitbuf.drop 1, fstate := .seekingPreamble },
        result := .progress true, events := [] }

/-- R182: with fewer than 8 bits it waits; else the byte, dewhitened from a fresh register when WHITEN_EN, is the Length. -/
def Obligations.AwaitingLengthStep : Prop :=
  (∀ s : State, s.fault = false → s.dfr.fstate = .awaitingLength → s.dfr.bitbuf.length < 8 →
    exec .dfrStepAwaitingLength s = .next { s with result := .progress false, events := [] }) ∧
  (∀ (s : State) (c : Cfg) (b : Byte) (rest : List Bit), s.fault = false → s.dfr.fstate = .awaitingLength →
    s.cfg = some c → s.dfr.bitbuf = ser [b] ++ rest →
    exec .dfrStepAwaitingLength s = .next { s with
      dfr := { s.dfr with
        bitbuf := rest, fstate := .awaitingData,
        length := some (if c.whitenEn then b ^^^ 0xFF#8 else b),
        pn9 := if c.whitenEn then some 0x1E1#9 else s.dfr.pn9 },
      result := .progress true, events := [] })

/-- R183: with fewer than 64 bits it waits; else a new session decodes two chunks to exactly one byte, which, dewhitened from a fresh
register when WHITEN_EN, is the Length; the decoded remainder is empty. That one byte comes out and the remainder is empty stands in R183
under its own mark "derived" (from 44_viterbi.md R146). -/
def Obligations.AwaitingLengthFecStep : Prop :=
  (∀ s : State, s.fault = false → s.dfr.fstate = .awaitingLengthFEC → s.dfr.bitbuf.length < 64 →
    exec .dfrStepAwaitingLengthFEC s = .next { s with result := .progress false, events := [] }) ∧
  (∀ (s : State) (c : Cfg) (raw : List Byte) (rest : List Bit), s.fault = false → s.dfr.fstate = .awaitingLengthFEC →
    s.cfg = some c → raw.length = 8 → s.dfr.bitbuf = ser raw ++ rest →
    ∃ (x : Byte) (v1 v2 : Session),
      vitSend params (startSession params) (raw.take 4) = .ok ([], v1) ∧
      vitSend params v1 (raw.drop 4) = .ok ([x], v2) ∧ v2.nbits = 24 ∧
      exec .dfrStepAwaitingLengthFEC s = .next { s with
        dfr := {
          fstate := .awaitingDataFEC, bitbuf := rest, decbuf := [], vit := some v2,
          length := some (if c.whitenEn then x ^^^ 0xFF#8 else x),
          pn9 := if c.whitenEn then some 0x1E1#9 else s.dfr.pn9 },
        result := .progress true, events := [] })

/-- R184: with fewer than `8 * length` bits it waits; else exactly `length` bytes are taken, dewhitened from the retained register when
WHITEN_EN, and validated, which ends the frame. -/
def Obligations.AwaitingDataStep : Prop :=
  (∀ (s : State) (len : Byte), s.fault = false → s.dfr.fstate = .awaitingData → s.dfr.length = some len →
    s.dfr.bitbuf.length < 8 * len.toNat →
    exec .dfrStepAwaitingData s = .next { s with result := .progress false, events := [] }) ∧
  (∀ (s : State) (c : Cfg) (len : Byte) (raw body : List Byte) (rest : List Bit), s.fault = false →
    s.dfr.fstate = .awaitingData → s.cfg = some c → s.dfr.length = some len → raw.length = len.toNat →
    s.dfr.bitbuf = ser raw ++ rest →
    (if c.whitenEn then ∃ k, s.dfr.pn9 = some k ∧ body = (whiten raw k).1 else body = raw) →
    exec .dfrStepAwaitingData s = .next { s with
      dfr := endedWith rest, result := .progress true, events := [reportOf c len body] })

/-- R186: a complete frame is validated first, its bytes beyond `length` dropped; else one more chunk of 32 bits is decoded, dewhitened
when WHITEN_EN and appended; with fewer than 32 bits it waits. -/
def Obligations.AwaitingDataFecStep : Prop :=
  (∀ (s : State) (c : Cfg) (len : Byte), s.fault = false → s.dfr.fstate = .awaitingDataFEC → s.cfg = some c →
    s.dfr.length = some len → len.toNat ≤ s.dfr.decbuf.length →
    exec .dfrStepAwaitingDataFEC s = .next { s with
      dfr := endedWith s.dfr.bitbuf, result := .progress true,
      events := [reportOf c len (s.dfr.decbuf.take len.toNat)] }) ∧
  (∀ (s : State) (len : Byte), s.fault = false → s.dfr.fstate = .awaitingDataFEC → s.dfr.length = some len →
    s.dfr.decbuf.length < len.toNat → s.dfr.bitbuf.length < 32 →
    exec .dfrStepAwaitingDataFEC s = .next { s with result := .progress false, events := [] }) ∧
  (∀ (s : State) (c : Cfg) (len : Byte) (v : Session) (raw : List Byte) (rest : List Bit), s.fault = false →
    s.dfr.fstate = .awaitingDataFEC → s.cfg = some c → s.dfr.length = some len → s.dfr.decbuf.length < len.toNat →
    s.dfr.vit = some v → raw.length = 4 → s.dfr.bitbuf = ser raw ++ rest → (c.whitenEn = true → s.dfr.pn9 ≠ none) →
    ∃ (dec bs : List Byte) (w : Session) (r : Option (BitVec 9)),
      vitSend params v raw = .ok (dec, w) ∧
      (if c.whitenEn then ∃ k, s.dfr.pn9 = some k ∧ whiten dec k = (bs, r.getD 0#9) ∧ r.isSome = true
        else bs = dec ∧ r = s.dfr.pn9) ∧
      exec .dfrStepAwaitingDataFEC s = .next { s with
        dfr := { s.dfr with bitbuf := rest, vit := some w, decbuf := s.dfr.decbuf ++ bs, pn9 := r },
        result := .progress true, events := [] })

/-- R188 with R189: for a body of exactly `length` bytes DFR.VALIDATE checks length, checksum and flags in that order, reports once, and
the frame ends with `bitbuf` kept. -/
def Obligations.ValidateReportsAndEndsTheFrame : Prop :=
  ∀ (s : State) (c : Cfg) (len : Byte) (body : List Byte), s.fault = false →
    s.dfr.fstate = .awaitingData ∨ s.dfr.fstate = .awaitingDataFEC → s.cfg = some c → s.dfr.length = some len →
    body.length = len.toNat →
    exec (.dfrValidate body) s = .next { s with
      dfr := endedWith s.dfr.bitbuf, result := .none, events := [reportOf c len body] }

/-- The model's choice (log entry 7; 30_encoding.md R74 says that `fstate` selects the step): an internal operation that `fstate` does not
select is refused as IllegalOperation, the six steps and DFR.VALIDATE outside the two states whose rules call it, when `fault = 0` (the
refusal comes after Faulted, log entry 7). In those two, a body that
has not exactly `length` bytes is outside DFR.VALIDATE's operand type and is refused with no effect (log entry 3), and with no `length`
it is the fatal StateAbsent (log entry 17). -/
def Obligations.UnselectedInternalStepIsRefused : Prop :=
  (∀ (s : State) (f : FState) (i : Instr), s.fault = false →
    (f, i) ∈ [(FState.seekingPreamble, Instr.dfrStepSeekingPreamble), (.seekingSyncWord, .dfrStepSeekingSyncWord),
      (.awaitingLength, .dfrStepAwaitingLength), (.awaitingLengthFEC, .dfrStepAwaitingLengthFEC),
      (.awaitingData, .dfrStepAwaitingData), (.awaitingDataFEC, .dfrStepAwaitingDataFEC)] →
    s.dfr.fstate ≠ f →
    exec i s = .next { s with result := .error (.illegalOperation (opcode i)), events := [] }) ∧
  (∀ (s : State) (body : List Byte), s.fault = false → s.dfr.fstate ≠ .awaitingData → s.dfr.fstate ≠ .awaitingDataFEC →
    exec (.dfrValidate body) s = .next { s with result := .error (.illegalOperation 0x72#8), events := [] }) ∧
  (∀ (s : State) (len : Byte) (body : List Byte), s.fault = false →
    s.dfr.fstate = .awaitingData ∨ s.dfr.fstate = .awaitingDataFEC → s.dfr.length = some len → body.length ≠ len.toNat →
    exec (.dfrValidate body) s = .next { s with result := .error (.operandType 0x72#8), events := [] } ∧
      errClass (.operandType 0x72#8) = .refusal) ∧
  ∀ (s : State) (body : List Byte), s.fault = false →
    s.dfr.fstate = .awaitingData ∨ s.dfr.fstate = .awaitingDataFEC → s.dfr.length = none →
    exec (.dfrValidate body) s = .next { s with fault := true, result := .error (.stateAbsent .length), events := [] }

/-- R192(a) without FEC: pushing the serialised frame of a message of 2 to 252 bytes into an idle pipeline of the same configuration
delivers exactly that message and leaves the pipeline idle with an empty buffer. -/
def Obligations.RoundTripWithoutFec : Prop :=
  ∀ (s : State) (c : Cfg) (m : Message), s.fault = false → s.cfgLoaded = true → s.cfg = some c → c.Legal →
    c.fecEn = false → c.quality.toNat ≤ 8 * c.preambleLen.toNat → c.flags &&& c.flagsMask = c.flags →
    s.dfr = Deframer.reset → 2 ≤ m.length → m.length ≤ 252 →
    ∃ (t : State) (f : List Byte), exec (.frmEncode m) s = .next t ∧ t.result = .bytes f ∧
      exec (.dfrPush (samplesOf (ser f))) t = .next { s with result := .messages [m], events := [.deliver m] }

/-- R192(a) with FEC, for the default parameters (log entries 9 to 13): the same, when the frame is followed by 32 more bits of any value if its
Length is odd (a message of even length, 70_reset_and_hazards.md R240). -/
def Obligations.RoundTripWithFec : Prop :=
  ∀ (s : State) (c : Cfg) (m : Message) (tail : List Bit), s.fault = false → s.cfgLoaded = true → s.cfg = some c →
    c.Legal → c.fecEn = true → c.quality.toNat ≤ 8 * c.preambleLen.toNat → c.flags &&& c.flagsMask = c.flags →
    s.dfr = Deframer.reset → 2 ≤ m.length → m.length ≤ 252 →
    tail.length = (if m.length % 2 = 0 then 32 else 0) →
    ∃ (t : State) (f : List Byte), exec (.frmEncode m) s = .next t ∧ t.result = .bytes f ∧
      exec (.dfrPush (samplesOf (ser f ++ tail))) t = .next { s with result := .messages [m], events := [.deliver m] }

/-! ### Errors, reset, the operation port, the whole machine (spec/60_exceptions.md, spec/70_reset_and_hazards.md) -/

/-- R215 with R200: an operation that answers an error changes nothing but, for a fatal error, the fault latch. -/
def Obligations.ErrorsChangeOnlyTheFaultLatch : Prop :=
  ∀ (i : Instr) (s t : State) (e : Err), exec i s = .next t → t.result = .error e →
    t = { s with fault := s.fault || decide (errClass e = .fatal), result := .error e, events := [] }

/-- R212: while `fault = 1` every operation is refused with Faulted and changes nothing; only reset clears `fault`. That the reset input
stands as a request at the head of the port is the model's choice (log entry 20). -/
def Obligations.FaultedUntilReset : Prop :=
  (∀ (i : Instr) (s : State), s.fault = true → exec i s = .next { s with result := .error .faulted, events := [] }) ∧
  ∀ s t : State, s.fault = true → step s = .next t → t.fault = false → ∃ rest, s.port = .reset :: rest

/-- R201: the cause codes 1 to 10 and the class of each error. -/
def Obligations.CauseCodesAndClasses : Prop :=
  (∀ a b : BitVec 16, errCode (.crcError a b) = 1#8 ∧ errClass (.crcError a b) = .recoverable) ∧
  (∀ n : Nat, errCode (.malformedInterleaveInput n) = 2#8 ∧ errClass (.malformedInterleaveInput n) = .fatal) ∧
  (∀ n : Nat, errCode (.unsupportedRemainder n) = 3#8 ∧ errClass (.unsupportedRemainder n) = .fatal) ∧
  (∀ r : RegName, errCode (.stateAbsent r) = 4#8 ∧ errClass (.stateAbsent r) = .fatal) ∧
  (∀ k : ConfigCheck, errCode (.configError k) = 5#8 ∧ errClass (.configError k) = .refusal) ∧
  (∀ op : Byte, errCode (.illegalOperation op) = 6#8 ∧ errClass (.illegalOperation op) = .refusal) ∧
  (errCode .notConfigured = 7#8 ∧ errClass .notConfigured = .refusal) ∧
  (∀ n : Nat, errCode (.badMessageLength n) = 8#8 ∧ errClass (.badMessageLength n) = .refusal) ∧
  (∀ n : Nat, errCode (.badBitSample n) = 9#8 ∧ errClass (.badBitSample n) = .refusal) ∧
  (errCode .faulted = 10#8 ∧ errClass .faulted = .refusal)

/-- 70_reset_and_hazards.md R225: the reset input gives every piece of state its reset value at any time, also while `fault = 1`, and no
other step clears `fault` or `cfg_loaded`. That the reset stands at the port as a request is log entry 20. -/
def Obligations.HardwareResetRestoresEverything : Prop :=
  (∀ (s : State) (rest : List Request), s.port = .reset :: rest →
    ∃ t : State, step s = .next t ∧
      t.dfr = ⟨.seekingPreamble, [], none, [], none, none⟩ ∧ t.u = ⟨none, none, none, none⟩ ∧ t.fault = false ∧
      t.cfgLoaded = false ∧ t.cfg = none ∧ t = { State.reset with port := rest }) ∧
  ∀ s t : State, step s = .next t →
    (s.fault = true ∧ t.fault = false) ∨ (s.cfgLoaded = true ∧ t.cfgLoaded = false) → ∃ rest, s.port = .reset :: rest

/-- A step runs the decoded instruction in the state whose port no longer holds the request; with an empty port nothing happens
(60_exceptions.md R210). That requests stand at a port is log entry 1, that an idle step changes nothing log entry 6. -/
def Obligations.StepRunsTheDecodedInstruction : Prop :=
  (∀ (s : State) (iss : Issuer) (op : Byte) (a : List Byte) (rest : List Request) (i : Instr),
    s.port = .operation iss op a :: rest → decode op a = .instr i → iss = .sequencer ∨ isInternalOp op = false →
    step s = exec i { s with port := rest }) ∧
  ∀ s : State, s.port = [] → step s = .next s

/-- R206 with 30_encoding.md R76(a): a number the table does not list, or an internal one from the host, is refused as
IllegalOperation and changes nothing, also while `fault = 1` (R213: IllegalOperation is checked before Faulted). That the request, with its
issuer, is taken from the head of a port is the model's choice (log entry 1). -/
def Obligations.IllegalNumbersAreRefused : Prop :=
  ∀ (s : State) (iss : Issuer) (op : Byte) (a : List Byte) (rest : List Request), s.port = .operation iss op a :: rest →
    op ∉ [0x00#8, 0x10#8, 0x11#8, 0x12#8, 0x20#8, 0x21#8, 0x22#8, 0x23#8, 0x30#8, 0x40#8, 0x41#8, 0x42#8, 0x43#8, 0x50#8, 0x51#8,
      0x52#8, 0x60#8, 0x61#8, 0x70#8, 0x71#8, 0x72#8, 0x78#8, 0x79#8, 0x7A#8, 0x7B#8, 0x7C#8, 0x7D#8] ∨
      (iss = .host ∧ op ∈ [0x72#8, 0x78#8, 0x79#8, 0x7A#8, 0x7B#8, 0x7C#8, 0x7D#8]) →
    step s = .next { s with port := rest, result := .error (.illegalOperation op), events := [] }

/-- Decode and encode agree: every operation the port can carry is read back from its encoding, with every operand. -/
def Obligations.DecodeOfEncodeIsTheInstruction : Prop :=
  ∀ i : Instr, WellFormed i = true → decode (encode i).1 (encode i).2 = .instr i

/-- The other direction: a request that decodes to an operation is that operation's encoding, and the operation is well formed. -/
def Obligations.DecodedRequestIsItsEncoding : Prop :=
  ∀ (op : Byte) (a : List Byte) (i : Instr), decode op a = .instr i → encode i = (op, a) ∧ WellFormed i = true

/-- 30_encoding.md R75: each of the 27 operation numbers of the table decodes to its operation, and one that the table does not list
to none. How the operand bytes hold the operand is the model's choice (log entry 1, for CFG.LOAD log entry 2). -/
def Obligations.OperationNumbersDecodeAsListed : Prop :=
  decode 0x00#8 [4#8, 0#8, 0xFF#8, 7#8, 0xD3#8, 0#8, 0x91#8, 0#8, 2#8, 0#8, 0x80#8, 0#8, 0xC0#8, 0#8, 0#8, 0#8, 1#8, 0#8] =
    .instr (.cfgLoad { preambleLen := 4, quality := 2047, sync0 := 0xD3, sync1 := 0x91, syncRep := 2, flags := 0x80,
                       flagsMask := 0xC0, fecEn := 0, whitenEn := 1 }) ∧
  decode 0x10#8 [] = .instr .pn9Seed ∧ decode 0x11#8 [] = .instr .pn9Next ∧
  (∀ b : Byte, decode 0x12#8 [b] = .instr (.pn9Whiten b)) ∧
  decode 0x20#8 [] = .instr .crcInit ∧ (∀ b : Byte, decode 0x21#8 [b] = .instr (.crcUpdate b)) ∧
  (∀ a : List Byte, decode 0x22#8 a = .instr (.crcCalc a)) ∧ (∀ a : List Byte, decode 0x23#8 a = .instr (.crcVerify a)) ∧
  (∀ a : List Byte, decode 0x30#8 a = .instr (.ilvXform a)) ∧
  decode 0x40#8 [] = .instr .cencSeed ∧
  decode 0x41#8 [0#8] = .instr (.cencBit false) ∧ decode 0x41#8 [1#8] = .instr (.cencBit true) ∧
  (∀ b : Byte, decode 0x42#8 [b] = .instr (.cencByte b)) ∧ (∀ a : List Byte, decode 0x43#8 a = .instr (.fecEncode a)) ∧
  decode 0x50#8 [] = .instr .vitStart ∧
  (∀ y : Symbol, decode 0x51#8 [y.setWidth 8] = .instr (.vitSymbol y)) ∧
  (∀ a : List Byte, decode 0x52#8 a = .instr (.vitSend a)) ∧
  (∀ a : List Byte, decode 0x60#8 a = .instr (.frmEncode a)) ∧ (∀ a : List Byte, decode 0x61#8 a = .instr (.frmSerialize a)) ∧
  (∀ a : List Byte, decode 0x70#8 a = .instr (.dfrPush a)) ∧ decode 0x71#8 [] = .instr .dfrReset ∧
  (∀ a : List Byte, decode 0x72#8 a = .instr (.dfrValidate a)) ∧
  decode 0x78#8 [] = .instr .dfrStepSeekingPreamble ∧ decode 0x79#8 [] = .instr .dfrStepSeekingSyncWord ∧
  decode 0x7A#8 [] = .instr .dfrStepAwaitingLength ∧ decode 0x7B#8 [] = .instr .dfrStepAwaitingLengthFEC ∧
  decode 0x7C#8 [] = .instr .dfrStepAwaitingData ∧ decode 0x7D#8 [] = .instr .dfrStepAwaitingDataFEC ∧
  decode 0x99#8 [] = .illegalOperation 0x99#8

/-- 20_memory.md R52 and 60_exceptions.md R200: every step answers a next state; no operation stops the machine. -/
def Obligations.EveryStepAnswersANextState : Prop :=
  ∀ s : State, ∃ t : State, step s = .next t

/-- The invariant of the block is kept by every step, from every state that has it. -/
def Obligations.EveryStepKeepsTheInvariant : Prop :=
  ∀ s t : State, s.Inv → step s = .next t → t.Inv

/-- The reset state has the invariant. -/
def Obligations.ResetStateHasTheInvariant : Prop := State.reset.Inv

/-- 10_state.md R26: an operation of the units PN9, CRC, ILV, CENC, VIT or FRM leaves the deframer and the configuration alone, and every other
operation leaves the scratch registers alone. -/
def Obligations.UnitsAndPipelineAreSeparate : Prop :=
  ∀ (i : Instr) (s t : State), exec i s = .next t →
    if 0x10 ≤ (opcode i).toNat ∧ (opcode i).toNat ≤ 0x61 then t.dfr = s.dfr ∧ t.cfg = s.cfg ∧ t.cfgLoaded = s.cfgLoaded
    else t.u = s.u

/-- 00_scope.md R8, 10_state.md R28: the machine with the model parameters as an argument is exec and step at the defaults of R8. A finite
BITBUF_CAP refuses a DFR.PUSH whose bits the buffer cannot hold, with no effect (the model's choice, log entry 16; the spec suggests the
refusal), and makes no difference to one whose bits fit. -/
def Obligations.ParametersAreArguments : Prop :=
  (∀ (i : Instr) (s : State), exec i s = execWith params i s) ∧ (∀ s : State, step s = stepWith params s) ∧
  (params.encTable = #v[0, 3, 1, 2, 3, 0, 2, 1, 3, 0, 2, 1, 0, 3, 1, 2] ∧ params.encSeed = 0#3 ∧
    params.vitInitCost = #v[0, 100, 100, 100, 100, 100, 100, 100] ∧ params.vitTie = .first ∧ params.bitbufCap = none ∧
    params.vitCostWidth = 8) ∧
  (∀ (p : Config.Params) (s : State) (q : List Bit) (n : Nat), s.fault = false → s.cfgLoaded = true → p.bitbufCap = some n →
    n < s.dfr.bitbuf.length + q.length →
    ∃ e, errClass e = .refusal ∧ execWith p (.dfrPush (samplesOf q)) s = .next { s with result := .error e, events := [] }) ∧
  ∀ (p : Config.Params) (s : State) (q : List Bit) (n : Nat), p.bitbufCap = some n → s.dfr.bitbuf.length + q.length ≤ n →
    execWith p (.dfrPush (samplesOf q)) s = execWith { p with bitbufCap := none } (.dfrPush (samplesOf q)) s
end

