-- ==== Sys2Proof/Laws/Operands.lean ====
section
/-! SUPPORT. What the orders of Machine/Operands.lean preserve: lengths, and each order undone by its inverse. -/

namespace Sys2Proof
namespace Machine

@[simp] theorem serByte_length (b : Byte) : (serByte b).length = 8 := rfl
@[simp] theorem ser_nil : ser [] = [] := rfl
@[simp] theorem ser_cons (b : Byte) (bs : List Byte) : ser (b :: bs) = serByte b ++ ser bs := rfl
@[simp] theorem ser_append (a b : List Byte) : ser (a ++ b) = ser a ++ ser b := by simp [ser]

@[simp] theorem ser_length (bs : List Byte) : (ser bs).length = 8 * bs.length := by
  induction bs with
  | nil => rfl
  | cons b bs ih => simp [ih]; omega

@[simp] theorem packBytes_length (n : Nat) (q : List Bit) : (packBytes n q).length = n := by
  induction n generalizing q with
  | zero => rfl
  | succ n ih => simp [packBytes, ih]

@[simp] theorem pack_length (q : List Bit) : (pack q).length = q.length / 8 := by simp [pack]

@[simp] theorem symbols_length (w : BitVec 32) : (symbols w).length = 16 := by simp [symbols]

@[simp] theorem bytesOfWord_length (w : BitVec 32) : (bytesOfWord w).length = 4 := rfl

@[simp] theorem crcBytes_length (c : BitVec 16) : (crcBytes c).length = 2 := rfl

/-- The two bytes of a checksum, put together again, are the checksum (20_memory.md R48). -/
@[simp] theorem crcOfBytes_crcBytes (c : BitVec 16) : crcOfBytes (c.extractLsb' 0 8) (c.extractLsb' 8 8) = c := by
  apply BitVec.eq_of_getLsbD_eq
  intro i hi
  have h : (crcOfBytes (c.extractLsb' 0 8) (c.extractLsb' 8 8)).getLsbD i =
      (c.extractLsb' 8 8 ++ c.extractLsb' 0 8).getLsbD i := rfl
  rw [h, BitVec.getLsbD_append]
  by_cases h8 : i < 8
  · simp [h8]
  · simp [h8, show i - 8 < 8 by omega, show 8 + (i - 8) = i by omega]

/-- The first bad sample is one, and there is none exactly when every sample is 0 or 1 (20_memory.md R43). -/
theorem firstBadSample_none_iff (q : List Byte) (i : Nat) :
    firstBadSample i q = none ↔ ∀ x ∈ q, x = 0#8 ∨ x = 1#8 := by
  induction q generalizing i with
  | nil => simp [firstBadSample]
  | cons x xs ih =>
    by_cases h : x = 0#8 ∨ x = 1#8
    · simp [firstBadSample, h, ih]
    · simp [firstBadSample, h]

end Machine
end Sys2Proof
end

