-- ==== Sys2Proof/Laws/State.lean ====
section
/-! SUPPORT. One lemma per field and update: what each shared update of the state leaves in each field. -/

namespace Sys2Proof
namespace Machine

section respond
variable (r : Result) (ev : List Event) (s : State)
@[simp] theorem respond_dfr : (respond r ev s).dfr = s.dfr := rfl
@[simp] theorem respond_u : (respond r ev s).u = s.u := rfl
@[simp] theorem respond_fault : (respond r ev s).fault = s.fault := rfl
@[simp] theorem respond_cfgLoaded : (respond r ev s).cfgLoaded = s.cfgLoaded := rfl
@[simp] theorem respond_cfg : (respond r ev s).cfg = s.cfg := rfl
@[simp] theorem respond_port : (respond r ev s).port = s.port := rfl
@[simp] theorem respond_result : (respond r ev s).result = r := rfl
@[simp] theorem respond_events : (respond r ev s).events = ev := rfl
end respond

section raise
variable (e : Err) (s : State)
@[simp] theorem raise_dfr : (raise e s).dfr = s.dfr := rfl
@[simp] theorem raise_u : (raise e s).u = s.u := rfl
@[simp] theorem raise_fault : (raise e s).fault = (s.fault || isFatal e) := rfl
@[simp] theorem raise_cfgLoaded : (raise e s).cfgLoaded = s.cfgLoaded := rfl
@[simp] theorem raise_cfg : (raise e s).cfg = s.cfg := rfl
@[simp] theorem raise_port : (raise e s).port = s.port := rfl
@[simp] theorem raise_result : (raise e s).result = .error e := rfl
@[simp] theorem raise_events : (raise e s).events = [] := rfl
end raise

section hardwareReset
variable (s : State)
@[simp] theorem hardwareReset_dfr : (hardwareReset s).dfr = Deframer.reset := rfl
@[simp] theorem hardwareReset_u : (hardwareReset s).u = Scratch.reset := rfl
@[simp] theorem hardwareReset_fault : (hardwareReset s).fault = false := rfl
@[simp] theorem hardwareReset_cfgLoaded : (hardwareReset s).cfgLoaded = false := rfl
@[simp] theorem hardwareReset_cfg : (hardwareReset s).cfg = none := rfl
@[simp] theorem hardwareReset_port : (hardwareReset s).port = s.port := rfl
@[simp] theorem hardwareReset_result : (hardwareReset s).result = .none := rfl
@[simp] theorem hardwareReset_events : (hardwareReset s).events = [] := rfl
end hardwareReset

section buffers
variable (q : List Bit) (bs : List Byte) (n : Nat) (d : Deframer)
@[simp] theorem bufAppend_unbounded : bufAppend none q d = .ok { d with bitbuf := d.bitbuf ++ q } := rfl
@[simp] theorem bufAppend_params : bufAppend params.bitbufCap q d = .ok { d with bitbuf := d.bitbuf ++ q } := rfl
@[simp] theorem bufDrop_bitbuf : (bufDrop n d).bitbuf = d.bitbuf.drop n := rfl
@[simp] theorem bufDrop_fstate : (bufDrop n d).fstate = d.fstate := rfl
@[simp] theorem bufDrop_length : (bufDrop n d).length = d.length := rfl
@[simp] theorem bufDrop_decbuf : (bufDrop n d).decbuf = d.decbuf := rfl
@[simp] theorem bufDrop_pn9 : (bufDrop n d).pn9 = d.pn9 := rfl
@[simp] theorem bufDrop_vit : (bufDrop n d).vit = d.vit := rfl
@[simp] theorem decAppend_bitbuf : (decAppend bs d).bitbuf = d.bitbuf := rfl
@[simp] theorem decAppend_fstate : (decAppend bs d).fstate = d.fstate := rfl
@[simp] theorem decAppend_length : (decAppend bs d).length = d.length := rfl
@[simp] theorem decAppend_decbuf : (decAppend bs d).decbuf = d.decbuf ++ bs := rfl
@[simp] theorem decAppend_pn9 : (decAppend bs d).pn9 = d.pn9 := rfl
@[simp] theorem decAppend_vit : (decAppend bs d).vit = d.vit := rfl
@[simp] theorem bufLen_bufDrop : bufLen (bufDrop n d) = bufLen d - n := by simp [bufLen]
@[simp] theorem bufPeek_length : (bufPeek n d).length = min n (bufLen d) := by simp [bufPeek, bufLen]
end buffers

section frameEnd
variable (d : Deframer)
@[simp] theorem frameEnd_bitbuf : (frameEnd d).bitbuf = d.bitbuf := rfl
@[simp] theorem frameEnd_fstate : (frameEnd d).fstate = .seekingPreamble := rfl
@[simp] theorem frameEnd_length : (frameEnd d).length = none := rfl
@[simp] theorem frameEnd_decbuf : (frameEnd d).decbuf = [] := rfl
@[simp] theorem frameEnd_pn9 : (frameEnd d).pn9 = none := rfl
@[simp] theorem frameEnd_vit : (frameEnd d).vit = none := rfl
@[simp] theorem bufLen_frameEnd : bufLen (frameEnd d) = bufLen d := rfl
end frameEnd

section withRequest
variable (s : State) (nbits w : Nat)
@[simp] theorem withRequest_u : (withRequest s nbits w).u = s.u := rfl
@[simp] theorem withRequest_fault : (withRequest s nbits w).fault = s.fault := rfl
@[simp] theorem withRequest_cfgLoaded : (withRequest s nbits w).cfgLoaded = s.cfgLoaded := rfl
@[simp] theorem withRequest_cfg : (withRequest s nbits w).cfg = s.cfg := rfl
@[simp] theorem withRequest_result : (withRequest s nbits w).result = s.result := rfl
@[simp] theorem withRequest_events : (withRequest s nbits w).events = s.events := rfl
@[simp] theorem withRequest_bitbuf : (withRequest s nbits w).dfr.bitbuf = s.dfr.bitbuf := rfl
end withRequest

section advance
variable (v : Session) (g : Generation) (n : Nat)

/-- After the swap the generation just written is the one the next symbol reads (10_state.md R18: the one-generation form). -/
@[simp] theorem Session.advance_prev : (v.advance g n).prev = g := by
  cases h : v.cur <;> simp [Session.advance, Session.prev, h]

@[simp] theorem Session.advance_nbits : (v.advance g n).nbits = n := by
  cases h : v.cur <;> simp [Session.advance, h]

@[simp] theorem Session.advance_cur : (v.advance g n).cur = !v.cur := by
  cases h : v.cur <;> simp [Session.advance, h]

/-- The generation the symbol did not write keeps its values. -/
theorem Session.advance_other : (if v.cur then (v.advance g n).gen0 else (v.advance g n).gen1) = v.prev := by
  cases h : v.cur <;> simp [Session.advance, Session.prev, h]
end advance

@[simp] theorem startSession_prev (p : Config.Params) : (startSession p).prev = startGeneration p := rfl
@[simp] theorem startSession_nbits (p : Config.Params) : (startSession p).nbits = 0 := rfl

end Machine
end Sys2Proof
end

