-- ==== Sys2Proof/Laws/Ops.lean ====
section
/-! SUPPORT. What the shared operations of Machine/Ops.lean, Machine/Flags.lean and Machine/Issue.lean can do. -/

namespace Sys2Proof
namespace Machine

/-- With the latch clear the operation's own checks decide. -/
@[simp] theorem guarded_running {s : State} (h : s.fault = false) (k : Answer) : guarded s k = k := by simp [guarded, h]

/-- With the latch set every operation answers Faulted (60_exceptions.md R212). -/
@[simp] theorem guarded_faulted {s : State} (h : s.fault = true) (k : Answer) : guarded s k = .next (raise .faulted s) := by
  simp [guarded, h]

/-- All that a guarded operation can answer. -/
theorem guarded_next {s t : State} {k : Answer} (h : guarded s k = .next t) :
    (s.fault = true ∧ t = raise .faulted s) ∨ (s.fault = false ∧ k = .next t) := by
  cases hf : s.fault
  · exact .inr ⟨rfl, by simpa [guarded, hf] using h⟩
  · exact .inl ⟨rfl, by simpa [guarded, hf] using h.symm⟩

/-- An error other than a fatal one leaves the latch as it was (60_exceptions.md R200). -/
theorem raise_fault_of_not_fatal {e : Err} (h : isFatal e = false) (s : State) : (raise e s).fault = s.fault := by simp [h]

/-- A fatal error sets the latch (R200). -/
theorem raise_fault_of_fatal {e : Err} (h : isFatal e = true) (s : State) : (raise e s).fault = true := by simp [h]

@[simp] theorem isFatal_crcError (a b : BitVec 16) : isFatal (.crcError a b) = false := rfl
@[simp] theorem isFatal_malformed (n : Nat) : isFatal (.malformedInterleaveInput n) = true := rfl
@[simp] theorem isFatal_remainder (n : Nat) : isFatal (.unsupportedRemainder n) = true := rfl
@[simp] theorem isFatal_stateAbsent (r : RegName) : isFatal (.stateAbsent r) = true := rfl
@[simp] theorem isFatal_configError (k : ConfigCheck) : isFatal (.configError k) = false := rfl
@[simp] theorem isFatal_illegalOperation (op : Byte) : isFatal (.illegalOperation op) = false := rfl
@[simp] theorem isFatal_notConfigured : isFatal .notConfigured = false := rfl
@[simp] theorem isFatal_badMessageLength (n : Nat) : isFatal (.badMessageLength n) = false := rfl
@[simp] theorem isFatal_badBitSample (n : Nat) : isFatal (.badBitSample n) = false := rfl
@[simp] theorem isFatal_faulted : isFatal .faulted = false := rfl
@[simp] theorem isFatal_operandType (op : Byte) : isFatal (.operandType op) = false := rfl
@[simp] theorem isFatal_bufferOverflow (n : Nat) : isFatal (.bufferOverflow n) = false := rfl

/-- All that appending to the bit buffer can answer: the bits stand behind those held and fit, or they do not fit and are refused. -/
theorem bufAppend_cases (cap : Option Nat) (q : List Bit) (d : Deframer) :
    (bufAppend cap q d = .ok { d with bitbuf := d.bitbuf ++ q } ∧ ∀ n, cap = some n → bufLen d + q.length ≤ n) ∨
    (∃ n, cap = some n ∧ n < bufLen d + q.length ∧ bufAppend cap q d = .error (.bufferOverflow (bufLen d + q.length))) := by
  cases cap with
  | none => exact .inl ⟨rfl, nofun⟩
  | some n =>
    by_cases h : n < bufLen d + q.length
    · exact .inr ⟨n, rfl, h, by simp [bufAppend, h]⟩
    · refine .inl ⟨by simp [bufAppend, h], ?_⟩
      rintro _ ⟨rfl⟩
      omega

@[simp] theorem delivered_nil : delivered [] = [] := rfl
@[simp] theorem delivered_append (a b : List Event) : delivered (a ++ b) = delivered a ++ delivered b := by
  simp [delivered, List.filterMap_append]
@[simp] theorem delivered_deliver (m : Message) : delivered [.deliver m] = [m] := rfl
@[simp] theorem delivered_crcError (a b : BitVec 16) : delivered [.crcError a b] = [] := rfl
@[simp] theorem delivered_shortLength (n : Byte) : delivered [.shortLength n] = [] := rfl
@[simp] theorem delivered_filtered (f : Byte) : delivered [.filtered f] = [] := rfl

/-- All that a step can find at the port. -/
theorem issue_cases (s : State) :
    (s.port = [] ∧ issue s = .idle) ∨
    (∃ rest, s.port = .reset :: rest ∧ issue s = .answered (hardwareReset { s with port := rest })) ∨
    (∃ iss op a rest, s.port = .operation iss op a :: rest ∧ issue s = issueOperation iss op a { s with port := rest }) := by
  unfold issue
  match h : s.port with
  | [] => exact .inl ⟨rfl, rfl⟩
  | .reset :: rest => exact .inr (.inl ⟨rest, rfl, rfl⟩)
  | .operation iss op a :: rest => exact .inr (.inr ⟨iss, op, a, rest, rfl, rfl⟩)

/-- All that an operation request can become. -/
theorem issueOperation_cases (iss : Issuer) (op : Byte) (a : List Byte) (s : State) :
    (∃ e, isFatal e = false ∧ issueOperation iss op a s = .answered (raise e s)) ∨
    (∃ i, decode op a = .instr i ∧ ¬ (iss = .host ∧ isInternalOp op = true) ∧ issueOperation iss op a s = .run i s) := by
  unfold issueOperation
  split
  · exact .inl ⟨_, rfl, rfl⟩
  · rename_i hi
    match h : decode op a with
    | .illegalOperation o => exact .inl ⟨.illegalOperation o, rfl, rfl⟩
    | .operandType o =>
      refine .inl ⟨if s.fault then .faulted else .operandType o, ?_, rfl⟩
      cases s.fault <;> rfl
    | .instr i => exact .inr ⟨i, rfl, hi, rfl⟩

end Machine
end Sys2Proof
end

