-- ==== Sys2Proof/Laws/Units.lean ====
section
/-! SUPPORT. What the unit functions can do: lengths, compositions, and the inversion lemmas of the ones that can raise an error. -/

namespace Sys2Proof
namespace Machine

/-! ### Whitening -/

theorem pn9Advance_add (m n : Nat) (s : BitVec 9) : pn9Advance (m + n) s = pn9Advance n (pn9Advance m s) := by
  induction m generalizing s with
  | zero => simp [pn9Advance]
  | succ m ih => rw [show m + 1 + n = (m + n) + 1 by omega]; exact ih (pn9Step s)

@[simp] theorem whiten_length (bs : List Byte) (s : BitVec 9) : (whiten bs s).1.length = bs.length := by
  induction bs generalizing s with
  | nil => rfl
  | cons b bs ih => simp [whiten, ih]

/-- Whitening goes on where it stopped: the deframer whitens a frame piece by piece (40_whitening.md R95, R97). -/
theorem whiten_append (a b : List Byte) (s : BitVec 9) :
    whiten (a ++ b) s = ((whiten a s).1 ++ (whiten b (whiten a s).2).1, (whiten b (whiten a s).2).2) := by
  induction a generalizing s with
  | nil => rfl
  | cons x a ih => simp [whiten, ih]

/-! ### Checksum -/

theorem crc16_append_one (a : List Byte) (b : Byte) : crc16 (a ++ [b]) = crcByte (crc16 a) b := by simp [crc16]

/-! ### Interleaver -/

/-- All that ILV.XFORM can answer (42_interleaver.md R111). -/
theorem interleave_cases (p : Config.Params) (blk : List Byte) :
    (∃ b0 b1 b2 b3, blk = [b0, b1, b2, b3] ∧
      interleave p blk = .ok (bytesOfWord (interleaveWord p (wordOfBytes b0 b1 b2 b3)))) ∨
    (blk.length ≠ 4 ∧ interleave p blk = .error (.malformedInterleaveInput blk.length)) := by
  match blk with
  | [] => exact .inr ⟨by simp, rfl⟩
  | [_] => exact .inr ⟨by simp, rfl⟩
  | [_, _] => exact .inr ⟨by simp, rfl⟩
  | [_, _, _] => exact .inr ⟨by simp, rfl⟩
  | [b0, b1, b2, b3] => exact .inl ⟨b0, b1, b2, b3, rfl, rfl⟩
  | _ :: _ :: _ :: _ :: _ :: _ => exact .inr ⟨by simp, rfl⟩

/-- A block of four bytes goes through. -/
theorem interleave_ok_of_length {p : Config.Params} {blk : List Byte} (h : blk.length = 4) :
    ∃ w, interleave p blk = .ok (bytesOfWord w) := by
  obtain ⟨b0, b1, b2, b3, -, h'⟩ | ⟨hl, -⟩ := interleave_cases p blk
  · exact ⟨_, h'⟩
  · exact absurd h hl

/-! ### Encoder -/

@[simp] theorem encByte_length (p : Config.Params) (enc : BitVec 11) (b : Byte) : (encByte p enc b).1.length = 2 := rfl

/-- Two output bytes per input byte (43_conv_encoder.md R124). -/
@[simp] theorem encBytes_length (p : Config.Params) (bs : List Byte) (enc : BitVec 11) :
    (encBytes p bs enc).length = 2 * bs.length := by
  induction bs generalizing enc with
  | nil => rfl
  | cons b bs ih => simp [encBytes, ih]; omega

/-- The register between bits has its low byte 0 (10_state.md R13). -/
theorem encBit_low (p : Config.Params) (enc : BitVec 11) (x : Bit) : (encBit p enc x).2.extractLsb' 0 8 = 0#8 := by
  simp only [encBit]
  generalize (encIndex enc x).extractLsb' 0 3 = t
  revert t; decide

theorem encBits_low (p : Config.Params) (xs : List Bit) (out : BitVec 16) (enc : BitVec 11)
    (h : enc.extractLsb' 0 8 = 0#8) : (encBits p xs out enc).2.extractLsb' 0 8 = 0#8 := by
  induction xs generalizing out enc with
  | nil => exact h
  | cons x xs ih => exact ih _ _ (encBit_low p enc x)

theorem encByte_low (p : Config.Params) (enc : BitVec 11) (b : Byte) : (encByte p enc b).2.extractLsb' 0 8 = 0#8 := by
  simp only [encByte, serByte, encBits]
  exact encBit_low _ _ _

/-- Whole blocks of four go through the interleaver, and their number of bytes is kept (43_conv_encoder.md R129). -/
theorem interleaveBlocks_ok (p : Config.Params) (n : Nat) (e : List Byte) (h : e.length = 4 * n) :
    ∃ out, interleaveBlocks p n e = .ok out ∧ out.length = 4 * n := by
  induction n generalizing e with
  | zero => exact ⟨[], rfl, rfl⟩
  | succ n ih =>
    obtain ⟨w, hw⟩ := interleave_ok_of_length (p := p) (blk := e.take 4) (by simp; omega)
    obtain ⟨rest, hr, hl⟩ := ih (e.drop 4) (by simp; omega)
    exact ⟨bytesOfWord w ++ rest, by simp [interleaveBlocks, hw, hr], by simp [hl]; omega⟩

/-! ### Viterbi decoder -/

@[simp] theorem perState_get {α : Type} (f : Trellis → α) (d : Trellis) : (perState f).get d.toFin = f d := by
  have hd : d = 0#3 ∨ d = 1#3 ∨ d = 2#3 ∨ d = 3#3 ∨ d = 4#3 ∨ d = 5#3 ∨ d = 6#3 ∨ d = 7#3 := by revert d; decide
  rcases hd with h | h | h | h | h | h | h | h <;> subst h <;> rfl

/-- All that VIT.SYMBOL can do (44_viterbi.md R143): the new generation becomes the one the next symbol reads, and a byte comes out
exactly when the counter reaches 32. -/
theorem vitSymbol_cases (p : Config.Params) (v : Session) (y : Symbol) :
    (v.nbits + 1 = 32 ∧ vitSymbol p v y =
      ([((nextGeneration p v.prev y).path.get 0).extractLsb' 24 8], v.advance (nextGeneration p v.prev y) 24)) ∨
    (v.nbits + 1 ≠ 32 ∧ vitSymbol p v y = ([], v.advance (nextGeneration p v.prev y) (v.nbits + 1))) := by
  by_cases h : v.nbits + 1 = 32
  · exact .inl ⟨h, by simp [vitSymbol, vitFill, h]⟩
  · exact .inr ⟨h, by simp [vitSymbol, vitFill, h]⟩

@[simp] theorem vitSymbol_prev (p : Config.Params) (v : Session) (y : Symbol) :
    (vitSymbol p v y).2.prev = nextGeneration p v.prev y := by
  obtain ⟨-, h⟩ | ⟨-, h⟩ := vitSymbol_cases p v y <;> simp [h]

theorem vitSymbols_append (p : Config.Params) (v : Session) (a b : List Symbol) :
    vitSymbols p v (a ++ b) =
      ((vitSymbols p v a).1 ++ (vitSymbols p (vitSymbols p v a).2 b).1, (vitSymbols p (vitSymbols p v a).2 b).2) := by
  induction a generalizing v with
  | nil => rfl
  | cons y a ih => simp [vitSymbols, ih]

/-- The counter's book-keeping over any number of symbols (10_state.md R17). -/
theorem vitSymbols_count (p : Config.Params) (v : Session) (ys : List Symbol) (h : v.nbits < 32) :
    8 * (vitSymbols p v ys).1.length + (vitSymbols p v ys).2.nbits = v.nbits + ys.length ∧
      (vitSymbols p v ys).2.nbits < 32 ∧ ((vitSymbols p v ys).1 ≠ [] → 24 ≤ (vitSymbols p v ys).2.nbits) ∧
      (24 ≤ v.nbits → 24 ≤ (vitSymbols p v ys).2.nbits) := by
  induction ys generalizing v with
  | nil => simp [vitSymbols, h]
  | cons y ys ih =>
    obtain ⟨hn, hv⟩ | ⟨hn, hv⟩ := vitSymbol_cases p v y
    · obtain ⟨h1, h2, -, h4⟩ := ih (vitSymbol p v y).2 (by simp [hv])
      simp only [vitSymbols, hv, Session.advance_nbits, List.length_append, List.length_cons, List.length_nil] at h1 h2 h4 ⊢
      exact ⟨by omega, h2, fun _ => h4 (Nat.le_refl _), fun _ => h4 (Nat.le_refl _)⟩
    · obtain ⟨h1, h2, h3, h4⟩ := ih (vitSymbol p v y).2 (by simp [hv]; omega)
      simp only [vitSymbols, hv, Session.advance_nbits, List.length_cons, List.nil_append] at h1 h2 h3 h4 ⊢
      exact ⟨by omega, h2, h3, fun h24 => h4 (by omega)⟩

/-- A chunk of four bytes is decoded as sixteen symbols (44_viterbi.md R147). -/
theorem vitSend_ok_of_length {p : Config.Params} {v : Session} {chunk : List Byte} (h : chunk.length = 4) :
    ∃ ys : List Symbol, ys.length = 16 ∧ vitSend p v chunk = .ok (vitSymbols p v ys) := by
  obtain ⟨w, hw⟩ := interleave_ok_of_length (p := p) h
  exact ⟨_, symbols_length _, by simp only [vitSend, hw, bytesOfWord]; rfl⟩

/-- Any other chunk is refused before the session changes (R147). -/
theorem vitSend_malformed {p : Config.Params} {v : Session} {chunk : List Byte} (h : chunk.length ≠ 4) :
    vitSend p v chunk = .error (.malformedInterleaveInput chunk.length) := by
  obtain ⟨b0, b1, b2, b3, hb, -⟩ | ⟨-, h'⟩ := interleave_cases p chunk
  · exact absurd (by simp [hb]) h
  · simp [vitSend, h']

end Machine
end Sys2Proof
end

