-- ==== Sys2Proof/Laws/Deframing.lean ====
section
/-! SUPPORT. What the deframer's steps can do (spec/46_deframer.md R173, R176): every one that moves makes progress by a measure, so the
driver's loop ends. -/

namespace Sys2Proof
namespace Machine

/-- The first two chunks of a session yield exactly one byte (44_viterbi.md R146, 46_deframer.md R183). -/
theorem vitSend_two_fresh_chunks (p : Config.Params) (a b : List Byte) (ha : a.length = 4) (hb : b.length = 4) :
    ∃ x v, vitSendAll p (startSession p) [a, b] = .ok ([x], v) ∧ v.nbits = 24 := by
  obtain ⟨ya, hya, h1⟩ := vitSend_ok_of_length (p := p) (v := startSession p) ha
  obtain ⟨yb, hyb, h2⟩ := vitSend_ok_of_length (p := p) (v := (vitSymbols p (startSession p) ya).2) hb
  have hc := vitSymbols_count p (startSession p) (ya ++ yb) (by simp)
  rw [vitSymbols_append] at hc
  simp only [List.length_append, startSession_nbits, hya, hyb] at hc
  obtain ⟨c1, c2, c3, -⟩ := hc
  have hne : (vitSymbols p (startSession p) ya).1 ++ (vitSymbols p (vitSymbols p (startSession p) ya).2 yb).1 ≠ [] := by
    intro h0
    have := congrArg List.length h0
    simp only [List.length_append, List.length_nil] at this
    omega
  have h24 := c3 hne
  obtain ⟨x, hx⟩ : ∃ x, (vitSymbols p (startSession p) ya).1 ++ (vitSymbols p (vitSymbols p (startSession p) ya).2 yb).1 = [x] :=
    List.length_eq_one_iff.mp (by simp only [List.length_append]; omega)
  have hl := congrArg List.length hx
  simp only [List.length_append, List.length_cons, List.length_nil] at hl
  exact ⟨x, (vitSymbols p (vitSymbols p (startSession p) ya).2 yb).2, by simp [vitSendAll, h1, h2, hx], by omega⟩

/-- All that dewhitening in the deframer can do: with WHITEN_EN off nothing, with it on `Whiten` from the register, which must exist. -/
theorem dewhiten_cases (c : Cfg) (bs : List Byte) (r : Option (BitVec 9)) :
    (c.whitenEn = false ∧ dewhiten c bs r = .ok (bs, r)) ∨
    (c.whitenEn = true ∧ r = none ∧ dewhiten c bs r = .error (.stateAbsent .dPn9)) ∨
    (∃ k, c.whitenEn = true ∧ r = some k ∧ dewhiten c bs r = .ok ((whiten bs k).1, some (whiten bs k).2)) := by
  cases hw : c.whitenEn
  · exact .inl ⟨rfl, by simp [dewhiten, hw]⟩
  · match r with
    | none => exact .inr (.inl ⟨rfl, rfl, by simp [dewhiten, hw]⟩)
    | some k => exact .inr (.inr ⟨k, rfl, rfl, by simp [dewhiten, hw]⟩)

/-- DFR.VALIDATE never waits, and whatever it reports, the frame ends (46_deframer.md R188, R189). -/
theorem validate_cases (cfg : Option Cfg) (len : Byte) (body : List Byte) (d : Deframer) :
    (∃ ev, judge cfg len body = .ok ev ∧ validate cfg len body d = .moved (frameEnd d) [ev]) ∨
    (∃ e, judge cfg len body = .error e ∧ validate cfg len body d = .raised e) := by
  unfold validate
  match judge cfg len body with
  | .ok ev => exact .inl ⟨ev, rfl, rfl⟩
  | .error e => exact .inr ⟨e, rfl, rfl⟩

/-- How many bit-free moves can still follow in a state. -/
def stepRank : FState → Nat
  | .awaitingLength => 0
  | .awaitingLengthFEC => 0
  | .seekingSyncWord => 1
  | .seekingPreamble => 2
  | .awaitingData => 3
  | .awaitingDataFEC => 3

/-- The measure that every move lowers. -/
def stepMeasure (d : Deframer) : Nat := 4 * bufLen d + stepRank d.fstate

theorem stepMeasure_lt_bound (d : Deframer) : stepMeasure d < stepBound d := by
  unfold stepMeasure stepBound
  cases d.fstate <;> simp [stepRank]

/-- All that DFR.STEP.SeekingPreamble can do (46_deframer.md R178). -/
theorem stepSeekingPreamble_cases (cfg : Option Cfg) (d : Deframer) :
    (cfg = none ∧ stepSeekingPreamble cfg d = .raised (.stateAbsent .cfg)) ∨
    ∃ c, cfg = some c ∧
      (((bufLen d < preambleBits c ∨ bufLen d = 0) ∧ stepSeekingPreamble cfg d = .wait) ∨
       (preambleBits c ≤ bufLen d ∧ 0 < bufLen d ∧ d.bitbuf.head? = some true ∧
          c.quality.toNat ≤ matchCount true (bufPeek (preambleBits c) d) ∧
          stepSeekingPreamble cfg d = .moved { bufDrop (preambleBits c) d with fstate := .seekingSyncWord } []) ∨
       (preambleBits c ≤ bufLen d ∧ 0 < bufLen d ∧
          ¬ (d.bitbuf.head? = some true ∧ c.quality.toNat ≤ matchCount true (bufPeek (preambleBits c) d)) ∧
          stepSeekingPreamble cfg d = .moved (bufDrop 1 d) [])) := by
  match cfg with
  | none => exact .inl ⟨rfl, rfl⟩
  | some c =>
    refine .inr ⟨c, rfl, ?_⟩
    have hh : (bufPeek 1 d).head? = d.bitbuf.head? := by cases h : d.bitbuf <;> simp [bufPeek, h]
    by_cases hw : bufLen d < preambleBits c ∨ bufLen d = 0
    · exact .inl ⟨hw, by simp [stepSeekingPreamble, hw]⟩
    · by_cases ha : d.bitbuf.head? = some true ∧ c.quality.toNat ≤ matchCount true (bufPeek (preambleBits c) d)
      · exact .inr (.inl ⟨by omega, by omega, ha.1, ha.2, by simp only [stepSeekingPreamble, hw, hh, ha]; simp⟩)
      · exact .inr (.inr ⟨by omega, by omega, ha, by simp only [stepSeekingPreamble, hw, hh, ha]; simp⟩)

/-- All that DFR.STEP.SeekingSyncWord can do (R180). -/
theorem stepSeekingSyncWord_cases (cfg : Option Cfg) (d : Deframer) :
    (cfg = none ∧ stepSeekingSyncWord cfg d = .raised (.stateAbsent .cfg)) ∨
    ∃ c, cfg = some c ∧
      ((bufLen d < syncBits c ∧ stepSeekingSyncWord cfg d = .wait) ∨
       (syncBits c ≤ bufLen d ∧ pack (bufPeek (syncBits c) d) = syncWord c ∧
          stepSeekingSyncWord cfg d = .moved { bufDrop (syncBits c) d with
            fstate := if c.fecEn then .awaitingLengthFEC else .awaitingLength } []) ∨
       (syncBits c ≤ bufLen d ∧ 0 < syncBits c ∧ pack (bufPeek (syncBits c) d) ≠ syncWord c ∧
          stepSeekingSyncWord cfg d = .moved { bufDrop 1 d with fstate := .seekingPreamble } [])) := by
  match cfg with
  | none => exact .inl ⟨rfl, rfl⟩
  | some c =>
    refine .inr ⟨c, rfl, ?_⟩
    by_cases hw : bufLen d < syncBits c
    · exact .inl ⟨hw, by simp [stepSeekingSyncWord, hw]⟩
    · by_cases he : pack (bufPeek (syncBits c) d) = syncWord c
      · exact .inr (.inl ⟨by omega, he, by simp [stepSeekingSyncWord, hw, he]⟩)
      · refine .inr (.inr ⟨by omega, ?_, he, by simp [stepSeekingSyncWord, hw, he]⟩)
        rcases Nat.eq_zero_or_pos (syncBits c) with h0 | h0
        · have hr : c.syncRep.toNat = 0 := by simpa [syncBits] using h0
          exact absurd (by simp [h0, bufPeek, pack, packBytes, syncWord, hr]) he
        · exact h0

/-- All that DFR.STEP.AwaitingLength can do (R182). -/
theorem stepAwaitingLength_cases (cfg : Option Cfg) (d : Deframer) :
    (bufLen d < 8 ∧ stepAwaitingLength cfg d = .wait) ∨
    (8 ≤ bufLen d ∧ cfg = none ∧ stepAwaitingLength cfg d = .raised (.stateAbsent .cfg)) ∨
    ∃ c, 8 ≤ bufLen d ∧ cfg = some c ∧ stepAwaitingLength cfg d =
      .moved { bufDrop 8 d with
        length := some (if c.whitenEn then packByte (bufPeek 8 d) ^^^ (pn9Next pn9Seed).1 else packByte (bufPeek 8 d))
        pn9 := if c.whitenEn then some (pn9Next pn9Seed).2 else d.pn9
        fstate := .awaitingData } [] := by
  by_cases hw : bufLen d < 8
  · exact .inl ⟨hw, by simp [stepAwaitingLength, hw]⟩
  · match cfg with
    | none => exact .inr (.inl ⟨by omega, rfl, by simp [stepAwaitingLength, hw]⟩)
    | some c =>
      refine .inr (.inr ⟨c, by omega, rfl, ?_⟩)
      cases he : c.whitenEn <;> simp [stepAwaitingLength, hw, he]

/-- All that DFR.STEP.AwaitingLengthFEC can do (R183): with 64 bits and a configuration, two chunks give the Length byte and
nothing more. -/
theorem stepAwaitingLengthFEC_cases (p : Config.Params) (cfg : Option Cfg) (d : Deframer) :
    (bufLen d < 64 ∧ stepAwaitingLengthFEC p cfg d = .wait) ∨
    (64 ≤ bufLen d ∧ cfg = none ∧ stepAwaitingLengthFEC p cfg d = .raised (.stateAbsent .cfg)) ∨
    ∃ c x v, 64 ≤ bufLen d ∧ cfg = some c ∧ v.nbits = 24 ∧
      vitSendAll p (startSession p) [(pack (bufPeek 64 d)).take 4, (pack (bufPeek 64 d)).drop 4] = .ok ([x], v) ∧
      stepAwaitingLengthFEC p cfg d =
        .moved { bufDrop 64 d with
          vit := some v
          length := some (if c.whitenEn then x ^^^ (pn9Next pn9Seed).1 else x)
          pn9 := if c.whitenEn then some (pn9Next pn9Seed).2 else d.pn9
          decbuf := []
          fstate := .awaitingDataFEC } [] := by
  by_cases hw : bufLen d < 64
  · exact .inl ⟨hw, by simp [stepAwaitingLengthFEC, hw]⟩
  · have hl : (pack (bufPeek 64 d)).length = 8 := by simp [show min 64 (bufLen d) = 64 by omega]
    obtain ⟨x, v, hv, hn⟩ := vitSend_two_fresh_chunks p ((pack (bufPeek 64 d)).take 4) ((pack (bufPeek 64 d)).drop 4)
      (by simp [hl]) (by simp [hl])
    match cfg with
    | none => exact .inr (.inl ⟨by omega, rfl, by simp only [stepAwaitingLengthFEC, hw, hv]; rfl⟩)
    | some c =>
      refine .inr (.inr ⟨c, x, v, by omega, rfl, hn, hv, ?_⟩)
      simp only [stepAwaitingLengthFEC, hw, hv]
      cases he : c.whitenEn <;> simp [dewhiten, he, whiten]

/-- All that DFR.STEP.AwaitingData can do (R184). -/
theorem stepAwaitingData_cases (cfg : Option Cfg) (d : Deframer) :
    (∃ e, stepAwaitingData cfg d = .raised e) ∨
    ∃ len, d.length = some len ∧
      ((bufLen d < 8 * len.toNat ∧ stepAwaitingData cfg d = .wait) ∨
       ∃ c body r ev, 8 * len.toNat ≤ bufLen d ∧ cfg = some c ∧
        dewhiten c (pack (bufPeek (8 * len.toNat) d)) d.pn9 = .ok (body, r) ∧ judge cfg len body = .ok ev ∧
        stepAwaitingData cfg d = .moved (frameEnd (bufDrop (8 * len.toNat) d)) [ev]) := by
  match hl : d.length with
  | none => exact .inl ⟨.stateAbsent .length, by simp [stepAwaitingData, hl]⟩
  | some len =>
    by_cases hw : bufLen d < 8 * len.toNat
    · exact .inr ⟨len, rfl, .inl ⟨hw, by simp [stepAwaitingData, hl, hw]⟩⟩
    · match cfg with
      | none => exact .inl ⟨.stateAbsent .cfg, by simp [stepAwaitingData, hl, hw]⟩
      | some c =>
        match hd : dewhiten c (pack (bufPeek (8 * len.toNat) d)) d.pn9 with
        | .error e => exact .inl ⟨e, by simp [stepAwaitingData, hl, hw, hd]⟩
        | .ok (body, r) =>
          obtain ⟨ev, hj, hv⟩ | ⟨e, -, hv⟩ := validate_cases (some c) len body { bufDrop (8 * len.toNat) d with pn9 := r }
          · exact .inr ⟨len, rfl, .inr ⟨c, body, r, ev, by omega, rfl, hd, hj, by
              simp only [stepAwaitingData, hl, hw, hd, hv]; rfl⟩⟩
          · exact .inl ⟨e, by simp only [stepAwaitingData, hl, hw, hd, hv]; rfl⟩

/-- All that DFR.STEP.AwaitingDataFEC can do (R186). -/
theorem stepAwaitingDataFEC_cases (p : Config.Params) (cfg : Option Cfg) (d : Deframer) :
    (∃ e, stepAwaitingDataFEC p cfg d = .raised e) ∨
    ∃ len, d.length = some len ∧
      ((∃ ev, len.toNat ≤ d.decbuf.length ∧ judge cfg len (d.decbuf.take len.toNat) = .ok ev ∧
          stepAwaitingDataFEC p cfg d = .moved (frameEnd d) [ev]) ∨
       (d.decbuf.length < len.toNat ∧ bufLen d < 32 ∧ stepAwaitingDataFEC p cfg d = .wait) ∨
       ∃ c v dec v' bs r, d.decbuf.length < len.toNat ∧ 32 ≤ bufLen d ∧ cfg = some c ∧ d.vit = some v ∧
        vitSend p v (pack (bufPeek 32 d)) = .ok (dec, v') ∧ dewhiten c dec d.pn9 = .ok (bs, r) ∧
        stepAwaitingDataFEC p cfg d = .moved (decAppend bs { bufDrop 32 d with vit := some v', pn9 := r }) []) := by
  match hl : d.length with
  | none => exact .inl ⟨.stateAbsent .length, by simp [stepAwaitingDataFEC, hl]⟩
  | some len =>
    by_cases hc : len.toNat ≤ d.decbuf.length
    · obtain ⟨ev, hj, hv⟩ | ⟨e, -, hv⟩ := validate_cases cfg len (d.decbuf.take len.toNat) d
      · exact .inr ⟨len, rfl, .inl ⟨ev, hc, hj, by simp [stepAwaitingDataFEC, hl, hc, hv]⟩⟩
      · exact .inl ⟨e, by simp [stepAwaitingDataFEC, hl, hc, hv]⟩
    · by_cases hw : bufLen d < 32
      · exact .inr ⟨len, rfl, .inr (.inl ⟨by omega, hw, by simp [stepAwaitingDataFEC, hl, hc, hw]⟩)⟩
      · match hv : d.vit with
        | none => exact .inl ⟨.stateAbsent .vit, by simp [stepAwaitingDataFEC, hl, hc, hw, hv]⟩
        | some v =>
          match hs : vitSend p v (pack (bufPeek 32 d)) with
          | .error e => exact .inl ⟨e, by simp [stepAwaitingDataFEC, hl, hc, hw, hv, hs]⟩
          | .ok (dec, v') =>
            match cfg with
            | none => exact .inl ⟨.stateAbsent .cfg, by simp [stepAwaitingDataFEC, hl, hc, hw, hv, hs]⟩
            | some c =>
              match hd : dewhiten c dec d.pn9 with
              | .error e => exact .inl ⟨e, by simp [stepAwaitingDataFEC, hl, hc, hw, hv, hs, hd]⟩
              | .ok (bs, r) =>
                exact .inr ⟨len, rfl, .inr (.inr ⟨c, v, dec, v', bs, r, by omega, by omega, rfl, rfl, hs, hd, by
                  simp [stepAwaitingDataFEC, hl, hc, hw, hv, hs, hd]⟩)⟩

/-- Every move lowers the measure: it drops a bit, or it goes to a state from which fewer bit-free moves can follow (R173). -/
theorem dfrStep_decreases {p : Config.Params} {cfg : Option Cfg} {d d' : Deframer} {ev : List Event}
    (h : dfrStep p cfg d = .moved d' ev) : stepMeasure d' < stepMeasure d := by
  unfold dfrStep at h
  split at h <;> rename_i hf
  · obtain ⟨-, hs⟩ | ⟨c, -, ⟨-, hs⟩ | ⟨h1, h2, -, -, hs⟩ | ⟨h1, h2, -, hs⟩⟩ := stepSeekingPreamble_cases cfg d <;>
      rw [hs] at h <;> cases h
    · simp only [stepMeasure, hf, stepRank, bufLen, bufDrop, List.length_drop] at *; omega
    · simp only [stepMeasure, hf, stepRank, bufLen, bufDrop, List.length_drop] at *; omega
  · obtain ⟨-, hs⟩ | ⟨c, -, ⟨-, hs⟩ | ⟨h1, -, hs⟩ | ⟨h1, h2, -, hs⟩⟩ := stepSeekingSyncWord_cases cfg d <;>
      rw [hs] at h <;> cases h
    · cases c.fecEn <;> simp [stepMeasure, hf, stepRank, bufLen] at *
    · simp only [stepMeasure, hf, stepRank, bufLen, bufDrop, List.length_drop] at *; omega
  · obtain ⟨-, hs⟩ | ⟨-, -, hs⟩ | ⟨c, h1, -, hs⟩ := stepAwaitingLength_cases cfg d <;> rw [hs] at h <;> cases h
    simp only [stepMeasure, hf, stepRank, bufLen, bufDrop, List.length_drop] at *; omega
  · obtain ⟨-, hs⟩ | ⟨-, -, hs⟩ | ⟨c, x, v, h1, -, -, -, hs⟩ := stepAwaitingLengthFEC_cases p cfg d <;>
      rw [hs] at h <;> cases h
    simp only [stepMeasure, hf, stepRank, bufLen, bufDrop, List.length_drop] at *; omega
  · obtain ⟨e, hs⟩ | ⟨len, -, ⟨-, hs⟩ | ⟨c, body, r, ev', h1, -, -, -, hs⟩⟩ := stepAwaitingData_cases cfg d <;>
      rw [hs] at h <;> cases h
    simp only [stepMeasure, hf, stepRank, bufLen, bufDrop, frameEnd, List.length_drop] at *; omega
  · obtain ⟨e, hs⟩ | ⟨len, -, ⟨ev', -, -, hs⟩ | ⟨-, -, hs⟩ | ⟨c, v, dec, v', bs, r, -, h1, -, -, -, -, hs⟩⟩ :=
      stepAwaitingDataFEC_cases p cfg d <;> rw [hs] at h <;> cases h
    · simp only [stepMeasure, hf, stepRank, bufLen, frameEnd] at *; omega
    · simp only [stepMeasure, hf, stepRank, bufLen, bufDrop, decAppend, List.length_drop] at *; omega

end Machine
end Sys2Proof
end

