-- ==== Sys2Proof/Laws/PerInstr.lean ====
section
/-! SUPPORT. What holds of every instruction as syntax: the row of the operation table that its number selects is its own, with its
mnemonic and its issuer. -/

namespace Sys2Proof
namespace Laws
namespace ListedAsItself

/-- The table row of the instruction's number is the instruction's own (spec/30_encoding.md R75). -/
def Statement (i : Instr) : Prop :=
  opRow? (opcode i) = some ⟨opcode i, mnemonic i, if i.isInternal then .sequencer else .host⟩

theorem cfgLoad (rec : CfgRecord) : Statement (.cfgLoad rec) := rfl
theorem pn9Seed : Statement .pn9Seed := rfl
theorem pn9Next : Statement .pn9Next := rfl
theorem pn9Whiten (b : Byte) : Statement (.pn9Whiten b) := rfl
theorem crcInit : Statement .crcInit := rfl
theorem crcUpdate (b : Byte) : Statement (.crcUpdate b) := rfl
theorem crcCalc (data : List Byte) : Statement (.crcCalc data) := rfl
theorem crcVerify (f : List Byte) : Statement (.crcVerify f) := rfl
theorem ilvXform (blk : List Byte) : Statement (.ilvXform blk) := rfl
theorem cencSeed : Statement .cencSeed := rfl
theorem cencBit (x : Bit) : Statement (.cencBit x) := rfl
theorem cencByte (b : Byte) : Statement (.cencByte b) := rfl
theorem fecEncode (data : List Byte) : Statement (.fecEncode data) := rfl
theorem vitStart : Statement .vitStart := rfl
theorem vitSymbol (y : Symbol) : Statement (.vitSymbol y) := rfl
theorem vitSend (chunk : List Byte) : Statement (.vitSend chunk) := rfl
theorem frmEncode (m : Message) : Statement (.frmEncode m) := rfl
theorem frmSerialize (f : List Byte) : Statement (.frmSerialize f) := rfl
theorem dfrPush (q : List Byte) : Statement (.dfrPush q) := rfl
theorem dfrReset : Statement .dfrReset := rfl
theorem dfrValidate (body : List Byte) : Statement (.dfrValidate body) := rfl
theorem dfrStepSeekingPreamble : Statement .dfrStepSeekingPreamble := rfl
theorem dfrStepSeekingSyncWord : Statement .dfrStepSeekingSyncWord := rfl
theorem dfrStepAwaitingLength : Statement .dfrStepAwaitingLength := rfl
theorem dfrStepAwaitingLengthFEC : Statement .dfrStepAwaitingLengthFEC := rfl
theorem dfrStepAwaitingData : Statement .dfrStepAwaitingData := rfl
theorem dfrStepAwaitingDataFEC : Statement .dfrStepAwaitingDataFEC := rfl

end ListedAsItself
end Laws
end Sys2Proof
end

