-- ==== Sys2Proof/Tests/Slice0.lean ====
section
/-! SUPPORT. The model's own tests. Expected values come from spec/95_test_vectors.md and the examples of the unit files (each test names
its source); the witnesses at the end show, for each statement with hypotheses, a state and operands that meet them. -/

namespace Sys2Proof
namespace Tests
open Machine Claims

set_option maxRecDepth 100000

/-! ### The well-formedness checks refuse an ill-formed record -/

/-- The record of the source's scenario (46_deframer.md R170). -/
def rec0 : CfgRecord := ⟨4, 32, 0xD3, 0x91, 2, 0, 0, 1, 1⟩

theorem test_wf_accepts : WellFormed (.cfgLoad rec0) = true := by decide
theorem test_wf_preambleLen : WellFormed (.cfgLoad { rec0 with preambleLen := 65536 }) = false := by decide
theorem test_wf_quality : WellFormed (.cfgLoad { rec0 with quality := 65536 }) = false := by decide
theorem test_wf_sync0 : WellFormed (.cfgLoad { rec0 with sync0 := 65536 }) = false := by decide
theorem test_wf_sync1 : WellFormed (.cfgLoad { rec0 with sync1 := 65536 }) = false := by decide
theorem test_wf_syncRep : WellFormed (.cfgLoad { rec0 with syncRep := 65536 }) = false := by decide
theorem test_wf_flags : WellFormed (.cfgLoad { rec0 with flags := 65536 }) = false := by decide
theorem test_wf_flagsMask : WellFormed (.cfgLoad { rec0 with flagsMask := 65536 }) = false := by decide
theorem test_wf_fecEn : WellFormed (.cfgLoad { rec0 with fecEn := 65536 }) = false := by decide
theorem test_wf_whitenEn : WellFormed (.cfgLoad { rec0 with whitenEn := 65536 }) = false := by decide

/-! ### Decoding: one word for every row of 30_encoding.md R75, the number written out in bits from opcode_table.json -/

theorem test_decode_cfgLoad :
    decode 0b00000000#8 [4#8, 0#8, 32#8, 0#8, 0xD3#8, 0#8, 0x91#8, 0#8, 2#8, 0#8, 0#8, 0#8, 0#8, 0#8, 1#8, 0#8, 1#8, 0#8] =
      .instr (.cfgLoad rec0) := by decide
theorem test_decode_pn9Seed : decode 0b00010000#8 [] = .instr .pn9Seed := by decide
theorem test_decode_pn9Next : decode 0b00010001#8 [] = .instr .pn9Next := by decide
theorem test_decode_pn9Whiten : decode 0b00010010#8 [0x68#8] = .instr (.pn9Whiten 0x68#8) := by decide
theorem test_decode_crcInit : decode 0b00100000#8 [] = .instr .crcInit := by decide
theorem test_decode_crcUpdate : decode 0b00100001#8 [0x68#8] = .instr (.crcUpdate 0x68#8) := by decide
theorem test_decode_crcCalc : decode 0b00100010#8 [1#8, 2#8] = .instr (.crcCalc [1#8, 2#8]) := by decide
theorem test_decode_crcVerify : decode 0b00100011#8 [1#8, 2#8] = .instr (.crcVerify [1#8, 2#8]) := by decide
theorem test_decode_ilvXform : decode 0b00110000#8 [1#8, 2#8] = .instr (.ilvXform [1#8, 2#8]) := by decide
theorem test_decode_cencSeed : decode 0b01000000#8 [] = .instr .cencSeed := by decide
theorem test_decode_cencBit : decode 0b01000001#8 [1#8] = .instr (.cencBit true) := by decide
theorem test_decode_cencByte : decode 0b01000010#8 [3#8] = .instr (.cencByte 3#8) := by decide
theorem test_decode_fecEncode : decode 0b01000011#8 [3#8] = .instr (.fecEncode [3#8]) := by decide
theorem test_decode_vitStart : decode 0b01010000#8 [] = .instr .vitStart := by decide
theorem test_decode_vitSymbol : decode 0b01010001#8 [2#8] = .instr (.vitSymbol 2#2) := by decide
theorem test_decode_vitSend : decode 0b01010010#8 [2#8] = .instr (.vitSend [2#8]) := by decide
theorem test_decode_frmEncode : decode 0b01100000#8 [2#8] = .instr (.frmEncode [2#8]) := by decide
theorem test_decode_frmSerialize : decode 0b01100001#8 [2#8] = .instr (.frmSerialize [2#8]) := by decide
theorem test_decode_dfrPush : decode 0b01110000#8 [0#8, 1#8] = .instr (.dfrPush [0#8, 1#8]) := by decide
theorem test_decode_dfrReset : decode 0b01110001#8 [] = .instr .dfrReset := by decide
theorem test_decode_dfrValidate : decode 0b01110010#8 [2#8] = .instr (.dfrValidate [2#8]) := by decide
theorem test_decode_seekingPreamble : decode 0b01111000#8 [] = .instr .dfrStepSeekingPreamble := by decide
theorem test_decode_seekingSyncWord : decode 0b01111001#8 [] = .instr .dfrStepSeekingSyncWord := by decide
theorem test_decode_awaitingLength : decode 0b01111010#8 [] = .instr .dfrStepAwaitingLength := by decide
theorem test_decode_awaitingLengthFEC : decode 0b01111011#8 [] = .instr .dfrStepAwaitingLengthFEC := by decide
theorem test_decode_awaitingData : decode 0b01111100#8 [] = .instr .dfrStepAwaitingData := by decide
theorem test_decode_awaitingDataFEC : decode 0b01111101#8 [] = .instr .dfrStepAwaitingDataFEC := by decide

/-- R76(a), with the number of program P5 (95_test_vectors.md section 8). -/
theorem test_decode_unlisted : decode 0x99#8 [] = .illegalOperation 0x99#8 := by decide
theorem test_decode_bad_bit : decode 0x41#8 [2#8] = .operandType 0x41#8 := by decide
theorem test_decode_bad_symbol : decode 0x51#8 [4#8] = .operandType 0x51#8 := by decide
theorem test_decode_extra_operand : decode 0x10#8 [0#8] = .operandType 0x10#8 := by decide

/-- The table lists 27 rows with 27 different numbers (R75). -/
theorem test_table_rows_distinct : opTable.length = 27 ∧ (opTable.map OpRow.op).Nodup := by decide

theorem test_word_of_row : decodeTableWord 8 0x7B = some .dfrStepAwaitingLengthFEC := by decide
theorem test_word_with_zero_operand : decodeTableWord 8 0x00 = some (.cfgLoad ⟨0, 0, 0, 0, 0, 0, 0, 0, 0⟩) := by decide
theorem test_word_unlisted : decodeTableWord 8 0x99 = none := by decide

/-! ### Small states -/

/-- The state an operation leaves, if it answers one. -/
def after (i : Instr) (s : State) : Option State :=
  match exec i s with
  | .next t => some t
  | .fault _ => none
  | .refused _ => none

/-- The result an operation answers. -/
def answers (i : Instr) (s : State) : Option Result := (after i s).map State.result

/-- The configuration of the source's scenario in the four modes (95_test_vectors.md section 6.1). -/
def cfgM (fec white : Bool) : Cfg := ⟨4#8, 32#11, 0xD3#8, 0x91#8, 2#2, 0#8, 0#8, fec, white⟩

/-- A configured pipeline with the given deframer registers. -/
def configured (c : Cfg) (d : Deframer) : State := { State.reset with cfgLoaded := true, cfg := some c, dfr := d }

/-- A state with the given scratch registers. -/
def withScratch (u : Scratch) : State := { State.reset with u := u }

/-- A state after a fatal error. -/
def faultedState : State := { State.reset with fault := true }

def hello : List Byte := [0x68#8, 0x65#8, 0x6C#8, 0x6C#8, 0x6F#8]
def digits : List Byte := [0x31#8, 0x32#8, 0x33#8, 0x34#8, 0x35#8, 0x36#8, 0x37#8, 0x38#8, 0x39#8]

/-- The scenario message (45_framer.md R163). -/
def msg0 : Message := [0x34#8, 0x12#8, 0x01#8, 0x00#8] ++ hello

/-- Its frame without FEC and whitening (R163, first row). -/
def framePlain : List Byte :=
  [0xAA#8, 0xAA#8, 0xAA#8, 0xAA#8, 0xD3#8, 0x91#8, 0xD3#8, 0x91#8, 0x0C#8, 0x00#8, 0x01#8, 0x00#8, 0x68#8, 0x65#8, 0x6C#8, 0x6C#8,
   0x6F#8, 0x34#8, 0x12#8, 0xB6#8, 0x33#8]

/-- The coded part of its frame with both modes on (R163, last row). -/
def codedBoth : List Byte :=
  [0xD4#8, 0x8B#8, 0x48#8, 0xA7#8, 0x62#8, 0xD6#8, 0xDF#8, 0xC2#8, 0x04#8, 0xB7#8, 0xD8#8, 0xC4#8, 0x14#8, 0xDD#8, 0x6B#8, 0x2F#8,
   0xC8#8, 0x72#8, 0xD9#8, 0xCD#8, 0xFF#8, 0x46#8, 0x8D#8, 0x0E#8, 0x7B#8, 0xC1#8, 0xBC#8, 0xE1#8, 0xB0#8, 0x10#8, 0xC0#8, 0x10#8]

def frameBoth : List Byte := [0xAA#8, 0xAA#8, 0xAA#8, 0xAA#8, 0xD3#8, 0x91#8, 0xD3#8, 0x91#8] ++ codedBoth

/-- The Body of the scenario frame (46_deframer.md R184). -/
def body0 : List Byte :=
  [0x00#8, 0x01#8, 0x00#8, 0x68#8, 0x65#8, 0x6C#8, 0x6C#8, 0x6F#8, 0x34#8, 0x12#8, 0xB6#8, 0x33#8]

/-! ### PN9 (95_test_vectors.md section 2, program P2) -/

theorem test_pn9_steps : (List.range 3).map (fun k => pn9Advance (k + 1) 0x1FF#9) = [0x0FF#9, 0x07F#9, 0x03F#9] := by decide
theorem test_pn9_seed : (after .pn9Seed State.reset).map (·.u.pn9) = some (some 0x1FF#9) := by decide
theorem test_pn9_next :
    (after .pn9Next (withScratch ⟨some 0x1E1#9, none, none, none⟩)).map (fun t => (t.result, t.u.pn9)) =
      some (.byte 0xE1#8, some 0x01D#9) := by decide
theorem test_pn9_next_absent :
    (after .pn9Next State.reset).map (fun t => (t.result, t.fault)) = some (.error (.stateAbsent .uPn9), true) := by decide
theorem test_pn9_whiten :
    (after (.pn9Whiten 0x6C#8) (withScratch ⟨some 0x01D#9, none, none, none⟩)).map (fun t => (t.result, t.u.pn9)) =
      some (.byte 0x71#8, some 0x19A#9) := by decide
theorem test_whiten_hello : whiten hello 0x1FF#9 = ([0x97#8, 0x84#8, 0x71#8, 0xF6#8, 0x82#8], 0x185#9) := by decide

/-! ### CRC (section 3) -/

theorem test_crc_init : (after .crcInit State.reset).map (·.u.crc) = some (some 0xFFFF#16) := by decide
theorem test_crc_update :
    (after (.crcUpdate 0x01#8) (withScratch ⟨none, some 0xFFFF#16, none, none⟩)).map (·.u.crc) = some (some 0x7D07#16) := by
  decide
theorem test_crc_update_absent : answers (.crcUpdate 0x01#8) State.reset = some (.error (.stateAbsent .uCrc)) := by decide
theorem test_crc_calc : answers (.crcCalc digits) State.reset = some (.word 0xAEE7#16) := by decide +kernel
theorem test_crc_calc_empty : answers (.crcCalc []) State.reset = some (.word 0xFFFF#16) := by decide
theorem test_crc_verify_ok : answers (.crcVerify (hello ++ [0xC5#8, 0x1C#8])) State.reset = some .ok := by decide +kernel
theorem test_crc_verify_swapped :
    answers (.crcVerify (hello ++ [0x1C#8, 0xC5#8])) State.reset = some (.error (.crcError 0x1CC5#16 0xC51C#16)) := by
  decide +kernel

/-! ### ILV, CENC, FEC (section 4) -/

theorem test_ilv :
    answers (.ilvXform [0xDE#8, 0xAD#8, 0xBE#8, 0xEF#8]) State.reset = some (.bytes [0xEB#8, 0x6E#8, 0xFF#8, 0x9B#8]) := by
  decide +kernel
theorem test_ilv_short :
    (after (.ilvXform [0x01#8, 0x23#8, 0x45#8]) State.reset).map (fun t => (t.result, t.fault)) =
      some (.error (.malformedInterleaveInput 3), true) := by decide
theorem test_cenc_seed : (after .cencSeed State.reset).map (·.u.enc) = some (some 0#11) := by decide
theorem test_cenc_bit :
    (after (.cencBit true) (withScratch ⟨none, none, some 0x500#11, none⟩)).map (fun t => (t.result, t.u.enc)) =
      some (.symbol 1#2, some 0x300#11) := by decide
theorem test_cenc_bit_absent : answers (.cencBit true) State.reset = some (.error (.stateAbsent .uEnc)) := by decide
theorem test_cenc_byte :
    (after (.cencByte 0x0B#8) (withScratch ⟨none, none, some 0x300#11, none⟩)).map (fun t => (t.result, t.u.enc)) =
      some (.bytes [0x8C#8, 0xD1#8], some 0x300#11) := by decide +kernel
theorem test_cenc_byte_from_seven :
    answers (.cencByte 0xFF#8) (withScratch ⟨none, none, some 0x700#11, none⟩) = some (.bytes [0xAA#8, 0xAA#8]) := by
  decide +kernel
theorem test_fec_odd :
    answers (.fecEncode [0x03#8]) State.reset =
      some (.bytes [0x0B#8, 0x01#8, 0x3C#8, 0x21#8, 0xB0#8, 0x10#8, 0xC0#8, 0x10#8]) := by decide +kernel
theorem test_fec_even :
    answers (.fecEncode [0x03#8, 0x00#8]) State.reset =
      some (.bytes [0x08#8, 0x00#8, 0x3C#8, 0x20#8, 0x3B#8, 0x11#8, 0x0C#8, 0x11#8]) := by decide +kernel

/-! ### VIT (section 5) -/

theorem test_vit_start :
    (after .vitStart State.reset).map (fun t => t.u.vit.map fun v => (v.prev.cost, v.nbits)) =
      some (some (#v[0, 100, 100, 100, 100, 100, 100, 100], 0)) := by decide
theorem test_vit_symbol :
    (after (.vitSymbol 0#2) (withScratch ⟨none, none, none, some (startSession params)⟩)).map (fun t =>
        t.u.vit.map fun v => (v.prev.cost, v.prev.path, v.nbits, v.cur)) =
      some (some (#v[0, 2, 101, 101, 100, 100, 101, 101],
        #v[0#32, 1#32, 0#32, 1#32, 0#32, 1#32, 0#32, 1#32], 1, true)) := by decide +kernel
theorem test_vit_symbol_absent : answers (.vitSymbol 0#2) State.reset = some (.error (.stateAbsent .uVit)) := by decide
theorem test_vit_send_first :
    (after (.vitSend [0x0B#8, 0x01#8, 0x3C#8, 0x21#8]) (withScratch ⟨none, none, none, some (startSession params)⟩)).map (fun t =>
        (t.result, t.u.vit.map fun v => (v.prev.cost, v.nbits))) =
      some (.bytes [], some (#v[3, 3, 2, 0, 4, 4, 3, 4], 16)) := by decide +kernel
theorem test_vit_send_malformed :
    (after (.vitSend [0x0B#8]) (withScratch ⟨none, none, none, some (startSession params)⟩)).map (fun t =>
        (t.result, t.fault)) = some (.error (.malformedInterleaveInput 1), true) := by decide

/-- The two tie-breaks give different bytes on input that is no code sequence (44_viterbi.md R147). -/
theorem test_vit_tie :
    (vitSendAll params (startSession params) (List.replicate 2 [0x12#8, 0x34#8, 0x56#8, 0x78#8])).toOption.map (·.1) =
      some [0x21#8] ∧
    (vitSendAll { params with vitTie := .second } (startSession params)
      (List.replicate 2 [0x12#8, 0x34#8, 0x56#8, 0x78#8])).toOption.map (·.1) = some [0x11#8] := by decide +kernel

/-! ### FRM (section 6) -/

theorem test_frm_encode_plain :
    answers (.frmEncode msg0) (configured (cfgM false false) Deframer.reset) = some (.bytes framePlain) := by decide +kernel
theorem test_frm_encode_both :
    answers (.frmEncode msg0) (configured (cfgM true true) Deframer.reset) = some (.bytes frameBoth) := by decide +kernel
theorem test_frm_serialize :
    answers (.frmSerialize [0xAA#8, 0xD3#8]) State.reset =
      some (.bits [true, false, true, false, true, false, true, false, true, true, false, true, false, false, true, true]) := by
  decide

/-! ### CFG.LOAD and DFR (sections 7 and 8) -/

theorem test_cfg_load : (after (.cfgLoad rec0) State.reset).map (·.cfg) = some (some (cfgM true true)) := by decide
theorem test_cfg_load_syncRep :
    answers (.cfgLoad { rec0 with syncRep := 3 }) State.reset = some (.error (.configError .syncRep)) := by decide
theorem test_push_scenario :
    (after (.dfrPush (samplesOf (ser frameBoth))) (configured (cfgM true true) Deframer.reset)).map (fun t =>
        (t.result, t.dfr)) = some (.messages [msg0], Deframer.reset) := by decide +kernel
/-- Two bits of the stream's own alternation ahead of the preamble: accepted two bits early, lost (section 7.2). -/
theorem test_push_early_preamble :
    (after (.dfrPush (samplesOf ([false, false, true, true, false] ++ ser framePlain)))
      (configured (cfgM false false) Deframer.reset)).map (fun t => (t.result, t.dfr.fstate)) =
      some (.messages [], .seekingPreamble) := by decide +kernel
theorem test_dfr_reset :
    (after .dfrReset (configured (cfgM true true) ⟨.seekingSyncWord, [true], none, [], none, none⟩)).map (·.dfr) =
      some Deframer.reset := by decide
/-- The flag filter's frame (section 7.5). -/
theorem test_validate_filtered :
    (after (.dfrValidate [0x80#8, 0x01#8, 0x00#8, 0x68#8, 0x65#8, 0x6C#8, 0x6C#8, 0x6F#8, 0x34#8, 0x12#8, 0x15#8, 0xB9#8])
      (configured { cfgM false false with flagsMask := 0x80#8 }
        ⟨.awaitingData, [], some 12#8, [], none, none⟩)).map (·.events) = some [.filtered 0x80#8] := by decide +kernel
theorem test_validate_delivers :
    (after (.dfrValidate body0)
      (configured (cfgM false false) ⟨.awaitingData, [], some 12#8, [], none, none⟩)).map (·.events) =
      some [.deliver msg0] := by decide +kernel
/-- QUALITY 30 with 30 and with 29 matching bits (46_deframer.md R178). -/
theorem test_seekingPreamble_quality :
    let c := { cfgM false false with quality := 30#11 }
    (after .dfrStepSeekingPreamble (configured c ⟨.seekingPreamble, ser [0xBE#8, 0xAA#8, 0xAA#8, 0xAA#8], none, [], none, none⟩)).map
        (fun t => (t.dfr.fstate, t.dfr.bitbuf.length)) = some (.seekingSyncWord, 0) ∧
    (after .dfrStepSeekingPreamble (configured c ⟨.seekingPreamble, ser [0xBF#8, 0xAA#8, 0xAA#8, 0xAA#8], none, [], none, none⟩)).map
        (fun t => (t.dfr.fstate, t.dfr.bitbuf.length)) = some (.seekingPreamble, 31) := by decide +kernel
theorem test_seekingSyncWord_match :
    (after .dfrStepSeekingSyncWord (configured (cfgM true true)
      ⟨.seekingSyncWord, ser [0xD3#8, 0x91#8, 0xD3#8, 0x91#8], none, [], none, none⟩)).map (fun t =>
        (t.dfr.fstate, t.dfr.bitbuf)) = some (.awaitingLengthFEC, []) := by decide +kernel
theorem test_seekingSyncWord_mismatch :
    (after .dfrStepSeekingSyncWord (configured (cfgM true true)
      ⟨.seekingSyncWord, ser [0xD2#8, 0x91#8, 0xD3#8, 0x91#8], none, [], none, none⟩)).map (fun t =>
        (t.dfr.fstate, t.dfr.bitbuf.length)) = some (.seekingPreamble, 31) := by decide +kernel
theorem test_awaitingLength :
    (after .dfrStepAwaitingLength (configured (cfgM false true)
      ⟨.awaitingLength, ser [0xF3#8], none, [], none, none⟩)).map (fun t => (t.dfr.length, t.dfr.pn9)) =
      some (some 0x0C#8, some 0x1E1#9) := by decide +kernel
theorem test_awaitingLengthFEC :
    (after .dfrStepAwaitingLengthFEC (configured (cfgM true true)
      ⟨.awaitingLengthFEC, ser (codedBoth.take 8), none, [], none, none⟩)).map (fun t =>
        (t.dfr.length, t.dfr.pn9, t.dfr.decbuf)) = some (some 0x0C#8, some 0x1E1#9, []) := by decide +kernel
/-- The session the step leaves has 24 bits waiting (46_deframer.md R183). -/
theorem test_awaitingLengthFEC_session :
    (after .dfrStepAwaitingLengthFEC (configured (cfgM true true)
      ⟨.awaitingLengthFEC, ser (codedBoth.take 8), none, [], none, none⟩)).bind (fun t => t.dfr.vit.map Session.nbits) =
        some 24 := by decide +kernel
theorem test_awaitingData_waits :
    answers .dfrStepAwaitingData (configured (cfgM false false)
      ⟨.awaitingData, ser [1#8], some 12#8, [], none, none⟩) = some (.progress false) := by decide +kernel
/-- A Length of 0 to 4 ends the frame (section 7.7). -/
theorem test_awaitingData_short :
    (after .dfrStepAwaitingData (configured (cfgM false false)
      ⟨.awaitingData, ser [0x11#8, 0x22#8, 0x33#8, 0x44#8], some 3#8, [], none, none⟩)).map (fun t =>
        (t.events, t.dfr.fstate, t.dfr.bitbuf.length)) = some ([.shortLength 3#8], .seekingPreamble, 8) := by decide +kernel
/-- The first data chunk of the scenario (section 7.1, chunk 2), dewhitened from the register after the Length byte. -/
theorem test_awaitingDataFEC_chunk :
    ((after .dfrStepAwaitingLengthFEC (configured (cfgM true true)
        ⟨.awaitingLengthFEC, ser (codedBoth.take 12), none, [], none, none⟩)).bind (after .dfrStepAwaitingDataFEC)).map (fun t =>
          (t.dfr.decbuf, t.dfr.pn9)) = some ([0x00#8, 0x01#8], some 0x19A#9) := by decide +kernel
theorem test_awaitingDataFEC_complete :
    (after .dfrStepAwaitingDataFEC (configured (cfgM true false)
      ⟨.awaitingDataFEC, [], some 12#8, body0, none, some (startSession params)⟩)).map (fun t => (t.events, t.dfr)) =
      some ([.deliver msg0], Deframer.reset) := by decide +kernel

/-! ### The port (program P5, 60_exceptions.md R206, R212, R213) -/

/-- The state a step leaves. -/
def stepped (s : State) : Option State :=
  match step s with
  | .next t => some t
  | .fault _ => none
  | .refused _ => none

theorem test_port_unlisted :
    (stepped { faultedState with port := [.operation .host 0x99#8 []] }).map (·.result) =
      some (.error (.illegalOperation 0x99#8)) := by decide
theorem test_port_internal_from_host :
    (stepped { State.reset with port := [.operation .host 0x78#8 []] }).map (·.result) =
      some (.error (.illegalOperation 0x78#8)) := by decide
theorem test_port_faulted :
    (stepped { faultedState with port := [.operation .host 0x71#8 []] }).map (·.result) = some (.error .faulted) := by decide
theorem test_port_reset :
    stepped { faultedState with port := [.reset, .operation .host 0x10#8 []] } =
      some { State.reset with port := [.operation .host 0x10#8 []] } := by decide
theorem test_port_idle : stepped faultedState = some faultedState := by decide
theorem test_fetch_word_runs :
    (stepped (State.reset.withFetchWord 8 0x10)).map (·.u.pn9) = some (some 0x1FF#9) := by decide
theorem test_fetch_word_internal :
    stepped (State.reset.withFetchWord 8 0x7B) =
      after .dfrStepAwaitingLengthFEC { State.reset with dfr := { Deframer.reset with fstate := .awaitingLengthFEC } } := by decide

/-! ### The model parameters at other values than their defaults -/

/-- The bytes that chunks sent to a fresh session return, under the given parameters. -/
def decodedWith (p : Config.Params) (chunks : List (List Byte)) : Option (List Byte) :=
  (vitSendAll p (startSession p) chunks).toOption.map (·.1)

/-- The second example of 44_viterbi.md R147: the second result is 21, and 11 under the opposite tie-break. -/
theorem test_vitTie_second :
    let chunks := List.replicate 2 [0x12#8, 0x34#8, 0x56#8, 0x78#8]
    decodedWith params chunks = some [0x21#8] ∧ decodedWith { params with vitTie := .second } chunks = some [0x11#8] := by
  decide +kernel

/-- 44_viterbi.md R148, 90_conflicts.md C8: under the source's literal costs a flip in the first chunk of FEC.ENCODE("hello") gives 08. -/
theorem test_vitInitCost_literal :
    decodedWith { params with vitInitCost := #v[100, 0, 0, 0, 0, 0, 0, 0] }
      [[0x30#8, 0xEC#8, 0xB9#8, 0x38#8], [0xBF#8, 0x1D#8, 0x6A#8, 0x88#8]] = some [0x08#8] := by decide +kernel

/-- A buffer of three bits takes a push of three bits and refuses one of four (log entry 16). -/
theorem test_bitbufCap :
    let pushed := fun q => match execWith { params with bitbufCap := some 3 } (.dfrPush q) (configured (cfgM true true) Deframer.reset) with
      | .next t => some (t.result, t.dfr.bitbuf.length)
      | .fault _ => none
      | .refused _ => none
    pushed [1#8, 0#8, 1#8] = some (.messages [], 3) ∧ pushed [1#8, 0#8, 1#8, 0#8] = some (.error (.bufferOverflow 4), 0) := by decide

/-! ### Witnesses: a state and operands that meet the hypotheses of each statement of Certificates/Slice0/Obligations.lean -/

/-- Every statement whose only hypothesis is a clear latch. -/
theorem witness_running : State.reset.fault = false := by decide

theorem witness_pn9 :
    (withScratch ⟨some 0x1FF#9, none, none, none⟩).fault = false ∧
    (withScratch ⟨some 0x1FF#9, none, none, none⟩).u.pn9 = some 0x1FF#9 ∧
    State.reset.fault = false ∧ State.reset.u.pn9 = none := by decide

theorem witness_whiten_bytes : hello[0]? = some 0x68#8 ∧ hello[4]? = some 0x6F#8 := by decide

theorem witness_crcUpdate :
    (withScratch ⟨none, some 0#16, none, none⟩).fault = false ∧
    (withScratch ⟨none, some 0#16, none, none⟩).u.crc = some 0#16 ∧ State.reset.u.crc = none := by decide

theorem witness_crcVerify_refused : State.reset.fault = false ∧ ([] : List Byte).length < 2 ∧ [0#8].length < 2 := by decide

/-- A verified sequence, and a change of its first and of its last byte. -/
theorem witness_crcVerify_changed :
    State.reset.fault = false ∧ 0 < (hello ++ [0xC5#8, 0x1C#8]).length ∧ (hello ++ [0xC5#8, 0x1C#8])[0]? ≠ some 0#8 ∧
    6 < (hello ++ [0xC5#8, 0x1C#8]).length ∧ (hello ++ [0xC5#8, 0x1C#8])[6]? ≠ some 0#8 ∧
    (after (.crcVerify (hello ++ [0xC5#8, 0x1C#8])) State.reset).map State.result = some .ok := by decide +kernel

theorem witness_crcVerify_answers :
    exec (.crcVerify [0xFF#8, 0xFF#8]) State.reset = .next { State.reset with result := .ok } := by rfl

theorem witness_ilv : State.reset.fault = false ∧ ([1#8, 2#8, 3#8, 4#8] : List Byte).length = 4 ∧
    ([1#8, 2#8, 3#8] : List Byte).length ≠ 4 ∧ ([1#8, 2#8, 3#8, 4#8, 5#8] : List Byte).length ≠ 4 := by decide

theorem witness_enc :
    (withScratch ⟨none, none, some 0x700#11, none⟩).fault = false ∧
    (withScratch ⟨none, none, some 0x700#11, none⟩).u.enc = some 0x700#11 ∧ State.reset.u.enc = none := by decide

theorem witness_linear : ([1#8, 2#8] : List Byte).length = ([3#8, 4#8] : List Byte).length := by decide

theorem witness_vit :
    (withScratch ⟨none, none, none, some (startSession params)⟩).fault = false ∧
    (withScratch ⟨none, none, none, some (startSession params)⟩).u.vit = some (startSession params) ∧
    State.reset.u.vit = none ∧ ([1#8, 2#8, 3#8, 4#8] : List Byte).length = 4 ∧ ([1#8] : List Byte).length ≠ 4 := by decide

/-- At the boundary where a byte comes out: the counter at 31. -/
theorem witness_vit_emits :
    let v := { startSession params with nbits := 31 }
    (withScratch ⟨none, none, none, some v⟩).u.vit = some v ∧ v.nbits + 1 = 32 := by decide

theorem witness_costs : CostsBounded (startSession params).prev.cost := by
  refine ⟨⟨0#3, by decide⟩, .inl ?_⟩
  unfold CostsAtMost
  decide

theorem witness_chunks : ∀ ch ∈ [[1#8, 2#8, 3#8, 4#8], [5#8, 6#8, 7#8, 8#8]], ch.length = 4 := by decide

theorem witness_flip :
    (fecEncode params [0x03#8]).toOption = some [0x0B#8, 0x01#8, 0x3C#8, 0x21#8, 0xB0#8, 0x10#8, 0xC0#8, 0x10#8] ∧
    0 < 8 * 8 ∧ 63 < 8 * 8 := by decide +kernel

/-- Messages of the least and the greatest length, a configured and an unconfigured state. -/
theorem witness_frmEncode :
    (configured (cfgM true true) Deframer.reset).fault = false ∧ (configured (cfgM true true) Deframer.reset).cfgLoaded = true ∧
    (configured (cfgM true true) Deframer.reset).cfg = some (cfgM true true) ∧
    2 ≤ ([0x34#8, 0x12#8] : List Byte).length ∧ (List.replicate 252 0#8).length ≤ 252 ∧ State.reset.cfgLoaded = false ∧
    ([0x34#8] : List Byte).length < 2 ∧ 252 < (List.replicate 253 0#8).length := by decide +kernel

theorem witness_serialize : ([0xAA#8, 0xD3#8] : List Byte)[1]? = some 0xD3#8 := by decide

/-- One record for each branch of CFG.LOAD's checks, each at a boundary, and the state for the first. -/
theorem witness_cfgLoad :
    (configured (cfgM true true) Deframer.reset).cfgLoaded = true ∧ State.reset.cfgLoaded = false ∧
    { rec0 with syncRep := 0 }.syncRep ≠ 1 ∧ { rec0 with syncRep := 0 }.syncRep ≠ 2 ∧
    { rec0 with preambleLen := 0 }.preambleLen = 0 ∧ rec0.syncRep = 2 ∧
    2048 ≤ { rec0 with quality := 2048 }.quality ∧ { rec0 with quality := 2047, preambleLen := 255 }.quality < 2048 := by decide

theorem witness_immutable :
    (configured (cfgM true true) Deframer.reset).cfgLoaded = true ∧
    exec .dfrReset (configured (cfgM true true) Deframer.reset) = .next (configured (cfgM true true) Deframer.reset) :=
  ⟨rfl, rfl⟩

theorem witness_push_refusals :
    State.reset.fault = false ∧ State.reset.cfgLoaded = false ∧
    (configured (cfgM true true) Deframer.reset).cfgLoaded = true ∧ (∀ g ∈ [0#8, 1#8], g = 0#8 ∨ g = 1#8) ∧
    2#8 ≠ 0#8 ∧ 2#8 ≠ 1#8 := by decide

/-- A configured idle pipeline has the invariant. -/
theorem witness_inv : (configured (cfgM true true) Deframer.reset).Inv := by
  refine ⟨rfl, ?_, ⟨rfl, rfl, rfl, rfl⟩, nofun, nofun, nofun⟩
  intro c hc
  cases hc
  exact ⟨by decide, .inr rfl⟩

theorem witness_push :
    (configured (cfgM true true) Deframer.reset).fault = false ∧ (configured (cfgM true true) Deframer.reset).cfgLoaded = true ∧
    (configured (cfgM true true) Deframer.reset).Inv := ⟨rfl, rfl, witness_inv⟩

theorem cfg_legal (fec white : Bool) : (cfgM fec white).Legal := ⟨by cases fec <;> cases white <;> decide, .inr rfl⟩

/-- The three branches of R178: a short buffer, an accepted and a rejected window. -/
theorem witness_seekingPreamble :
    (configured (cfgM false false) Deframer.reset).dfr.fstate = .seekingPreamble ∧
    (configured (cfgM false false) Deframer.reset).cfg = some (cfgM false false) ∧ (cfgM false false).Legal ∧
    Deframer.reset.bitbuf.length < 32 ∧ (ser [0xAA#8, 0xAA#8, 0xAA#8, 0xAA#8]).length = 32 ∧
    (ser [0xAA#8, 0xAA#8, 0xAA#8, 0xAA#8])[0]? = some true ∧ (ser [0x55#8, 0x55#8, 0x55#8, 0x55#8])[0]? ≠ some true :=
  ⟨rfl, rfl, cfg_legal false false, by decide, rfl, rfl, by decide⟩

/-- The three branches of R180. -/
theorem witness_seekingSyncWord :
    (configured (cfgM true true) ⟨.seekingSyncWord, [], none, [], none, none⟩).dfr.fstate = .seekingSyncWord ∧
    (cfgM true true).Legal ∧ ([] : List Bit).length < 32 ∧
    (ser [0xD3#8, 0x91#8, 0xD3#8, 0x91#8]).take 32 =
      ser (List.replicate (cfgM true true).syncRep.toNat [(cfgM true true).sync0, (cfgM true true).sync1]).flatten ∧
    (ser [0xD2#8, 0x91#8, 0xD3#8, 0x91#8]).take 32 ≠
      ser (List.replicate (cfgM true true).syncRep.toNat [(cfgM true true).sync0, (cfgM true true).sync1]).flatten :=
  ⟨rfl, cfg_legal true true, by decide, by decide +kernel, by decide +kernel⟩

theorem witness_awaitingLength :
    let s := configured (cfgM false true) ⟨.awaitingLength, ser [0xF3#8] ++ [true], none, [], none, none⟩
    let short := configured (cfgM false true) ⟨.awaitingLength, (ser [0xF3#8]).take 7, none, [], none, none⟩
    s.fault = false ∧ s.dfr.fstate = .awaitingLength ∧ s.cfg = some (cfgM false true) ∧
    s.dfr.bitbuf = ser [0xF3#8] ++ [true] ∧ short.fault = false ∧ short.dfr.fstate = .awaitingLength ∧
    short.dfr.bitbuf.length < 8 := by decide

theorem witness_awaitingLengthFEC :
    let s := configured (cfgM true true) ⟨.awaitingLengthFEC, ser (codedBoth.take 8) ++ [], none, [], none, none⟩
    let short := configured (cfgM true true) ⟨.awaitingLengthFEC, (ser (codedBoth.take 8)).take 63, none, [], none, none⟩
    s.fault = false ∧ s.dfr.fstate = .awaitingLengthFEC ∧ s.cfg = some (cfgM true true) ∧ (codedBoth.take 8).length = 8 ∧
    s.dfr.bitbuf = ser (codedBoth.take 8) ++ [] ∧ short.dfr.fstate = .awaitingLengthFEC ∧ short.dfr.bitbuf.length < 64 := by
  decide +kernel

/-- The waiting clause with a nonzero Length, the taking clause at Length 0 and 1, with and without whitening. -/
theorem witness_awaitingData :
    let w := configured (cfgM false true) ⟨.awaitingData, ser [0x55#8] ++ [], some 1#8, [], some 0x1E1#9, none⟩
    let z := configured (cfgM false false) ⟨.awaitingData, ser [] ++ [true], some 0#8, [], none, none⟩
    let short := configured (cfgM false false) ⟨.awaitingData, (ser [0x55#8]).take 7, some 1#8, [], none, none⟩
    w.dfr.fstate = .awaitingData ∧ w.dfr.length = some 1#8 ∧ ([0x55#8] : List Byte).length = (1#8).toNat ∧
    w.dfr.bitbuf = ser [0x55#8] ++ [] ∧ (cfgM false true).whitenEn = true ∧ w.dfr.pn9 = some 0x1E1#9 ∧
    z.dfr.length = some 0#8 ∧ ([] : List Byte).length = (0#8).toNat ∧ z.dfr.bitbuf = ser [] ++ [true] ∧
    (cfgM false false).whitenEn = false ∧ short.dfr.bitbuf.length < 8 * (1#8).toNat := by decide

/-- The three clauses of R186: complete, waiting with 31 bits, one more chunk with 32. -/
theorem witness_awaitingDataFEC :
    let v := startSession params
    let full := configured (cfgM true false) ⟨.awaitingDataFEC, [], some 12#8, body0, none, some v⟩
    let short := configured (cfgM true true) ⟨.awaitingDataFEC, List.replicate 31 true, some 12#8, [], some 0x1E1#9, some v⟩
    let more := configured (cfgM true true)
      ⟨.awaitingDataFEC, ser [4#8, 0xB7#8, 0xD8#8, 0xC4#8] ++ [], some 12#8, [], some 0x1E1#9, some v⟩
    full.dfr.length = some 12#8 ∧ (12#8).toNat ≤ full.dfr.decbuf.length ∧ short.dfr.decbuf.length < (12#8).toNat ∧
    short.dfr.bitbuf.length < 32 ∧ more.dfr.fstate = .awaitingDataFEC ∧ more.dfr.vit = some v ∧
    ([4#8, 0xB7#8, 0xD8#8, 0xC4#8] : List Byte).length = 4 ∧ more.dfr.bitbuf = ser [4#8, 0xB7#8, 0xD8#8, 0xC4#8] ++ [] ∧
    more.dfr.pn9 ≠ none := by decide +kernel

/-- Bodies of the least length, of a short Length and of the scenario. -/
theorem witness_validate :
    let s := configured (cfgM false false) ⟨.awaitingData, [], some 12#8, [], none, none⟩
    s.fault = false ∧ (s.dfr.fstate = .awaitingData ∨ s.dfr.fstate = .awaitingDataFEC) ∧ s.cfg = some (cfgM false false) ∧
    s.dfr.length = some 12#8 ∧ body0.length = (12#8).toNat ∧ ([1#8, 2#8, 3#8, 4#8] : List Byte).length = (4#8).toNat ∧
    ([1#8, 2#8, 3#8, 4#8, 5#8] : List Byte).length = (5#8).toNat := by decide

theorem witness_unselected :
    State.reset.fault = false ∧ State.reset.dfr.fstate ≠ .awaitingData ∧
    (configured (cfgM true true) ⟨.awaitingLength, [], none, [], none, none⟩).dfr.fstate ≠ .seekingPreamble := by decide

/-- DFR.VALIDATE in a state that does not select it, with a body one byte short and one byte long, and with no `length`. -/
theorem witness_validate_refused :
    let s := configured (cfgM false false) ⟨.awaitingData, [], some 5#8, [], none, none⟩
    let fec := configured (cfgM true false) ⟨.awaitingDataFEC, [], some 5#8, [], none, none⟩
    let bare := configured (cfgM false false) ⟨.awaitingData, [], none, [], none, none⟩
    State.reset.fault = false ∧ State.reset.dfr.fstate ≠ .awaitingData ∧ State.reset.dfr.fstate ≠ .awaitingDataFEC ∧
    s.fault = false ∧ s.dfr.fstate = .awaitingData ∧ fec.dfr.fstate = .awaitingDataFEC ∧ s.dfr.length = some 5#8 ∧
    ([1#8, 2#8, 3#8, 4#8] : List Byte).length ≠ (5#8).toNat ∧
    ([1#8, 2#8, 3#8, 4#8, 5#8, 6#8] : List Byte).length ≠ (5#8).toNat ∧ bare.dfr.length = none := by decide

/-- A finite capacity that a push fills exactly, and one bit more. -/
theorem witness_bitbufCap :
    let s := configured (cfgM true true) Deframer.reset
    s.fault = false ∧ s.cfgLoaded = true ∧ { params with bitbufCap := some 3 }.bitbufCap = some 3 ∧
    s.dfr.bitbuf.length + [true, false, true].length ≤ 3 ∧ 3 < s.dfr.bitbuf.length + [true, false, true, false].length := by decide

theorem witness_roundTrip (fec : Bool) :
    let s := configured (cfgM fec true) Deframer.reset
    s.fault = false ∧ s.cfgLoaded = true ∧ s.cfg = some (cfgM fec true) ∧ (cfgM fec true).Legal ∧ (cfgM fec true).fecEn = fec ∧
    (cfgM fec true).quality.toNat ≤ 8 * (cfgM fec true).preambleLen.toNat ∧
    (cfgM fec true).flags &&& (cfgM fec true).flagsMask = (cfgM fec true).flags ∧ s.dfr = Deframer.reset ∧ 2 ≤ msg0.length ∧
    msg0.length ≤ 252 ∧ ([] : List Bit).length = (if msg0.length % 2 = 0 then 32 else 0) ∧
    (List.replicate 32 true).length = (if ([0x34#8, 0x12#8] : List Byte).length % 2 = 0 then 32 else 0) :=
  ⟨rfl, rfl, rfl, cfg_legal fec true, rfl, by cases fec <;> decide, by cases fec <;> decide, rfl, by decide, by decide, by decide, by decide⟩

theorem witness_error :
    exec .pn9Next State.reset = .next (raise (.stateAbsent .uPn9) State.reset) ∧
    (raise (.stateAbsent .uPn9) State.reset).result = .error (.stateAbsent .uPn9) := ⟨rfl, rfl⟩

theorem witness_faulted :
    faultedState.fault = true ∧ step { faultedState with port := [.reset] } = .next State.reset ∧ State.reset.fault = false :=
  ⟨rfl, rfl, rfl⟩

theorem witness_cleared :
    let s := { configured (cfgM true true) Deframer.reset with port := [.reset] }
    s.cfgLoaded = true ∧ step s = .next State.reset ∧ State.reset.cfgLoaded = false := ⟨rfl, rfl, rfl⟩

theorem witness_port :
    { State.reset with port := [.operation .host 0x10#8 []] }.port = [.operation .host 0x10#8 []] ∧
    decode 0x10#8 [] = .instr .pn9Seed ∧ isInternalOp 0x10#8 = false ∧ decode 0x78#8 [] = .instr .dfrStepSeekingPreamble ∧
    isInternalOp 0x78#8 = true ∧ State.reset.port = [] ∧ { State.reset with port := [.reset] }.port = [.reset] := by decide

theorem witness_illegal : (0x73#8 ∉ opTable.map OpRow.op) ∧ (0x7E#8 ∉ opTable.map OpRow.op) := by decide

theorem witness_step_inv :
    (configured (cfgM true true) Deframer.reset).Inv ∧
    step (configured (cfgM true true) Deframer.reset) = .next (configured (cfgM true true) Deframer.reset) :=
  ⟨witness_inv, rfl⟩

theorem witness_separate :
    exec .pn9Seed State.reset = .next { State.reset with u := ⟨some 0x1FF#9, none, none, none⟩ } ∧
    0x10 ≤ (opcode .pn9Seed).toNat ∧ (opcode .pn9Seed).toNat ≤ 0x61 ∧ exec .dfrReset State.reset = .next State.reset :=
  ⟨rfl, by decide, by decide, rfl⟩

end Tests
end Sys2Proof
end

/-! Proofs for the family 00_scope.md: the model parameters as arguments. The one part of the machine that reads BITBUF_CAP is
`BufAppend`, so two capacities that both take a push's bits give the same push. -/

namespace Sys2Proof
namespace Machine
open Claims

/-! ### Bit sequences as samples at the port (20_memory.md R43) -/

/-- A bit sequence passes the sample check of DFR.PUSH. -/
@[simp] theorem firstBadSample_samplesOf (i : Nat) (q : List Bit) : firstBadSample i (samplesOf q) = none := by
  rw [firstBadSample_none_iff]
  intro x hx
  obtain ⟨b, -, rfl⟩ := List.mem_map.mp hx
  cases b <;> simp

/-- The bits of a bit sequence's samples are the sequence. -/
@[simp] theorem bitsOfSamples_samplesOf (q : List Bit) : bitsOfSamples (samplesOf q) = q := by
  induction q with
  | nil => rfl
  | cons b q ih =>
    have hb : (if b then 1#8 else 0#8 : Byte).getLsbD 0 = b := by cases b <;> rfl
    exact congrArg₂ List.cons hb ih

/-! ### Appending within a finite capacity (20_memory.md R44) -/

/-- Bits that fit a finite capacity are appended as with no bound. -/
theorem bufAppend_eq_unbounded_of_fits {n : Nat} {q : List Bit} {d : Deframer} (h : bufLen d + q.length ≤ n) :
    bufAppend (some n) q d = bufAppend none q d := by
  simp [bufAppend, Nat.not_lt.mpr h]

/-- Bits that do not fit a finite capacity are refused as a whole. -/
theorem bufAppend_overflow {n : Nat} {q : List Bit} {d : Deframer} (h : n < bufLen d + q.length) :
    bufAppend (some n) q d = .error (.bufferOverflow (bufLen d + q.length)) := by
  simp [bufAppend, h]

/-! ### The deframer's steps do not read BITBUF_CAP -/

section capacity
variable (p : Config.Params) (cap : Option Nat)

theorem startSession_bitbufCap : startSession { p with bitbufCap := cap } = startSession p := rfl

theorem interleave_bitbufCap (blk : List Byte) : interleave { p with bitbufCap := cap } blk = interleave p blk := rfl

theorem vitSymbol_bitbufCap (v : Session) (y : Symbol) :
    vitSymbol { p with bitbufCap := cap } v y = vitSymbol p v y := rfl

theorem vitSymbols_bitbufCap (v : Session) (ys : List Symbol) :
    vitSymbols { p with bitbufCap := cap } v ys = vitSymbols p v ys := by
  induction ys generalizing v with
  | nil => rfl
  | cons y ys ih => simp only [vitSymbols, vitSymbol_bitbufCap, ih]

theorem vitSend_bitbufCap (v : Session) (chunk : List Byte) :
    vitSend { p with bitbufCap := cap } v chunk = vitSend p v chunk := by
  simp only [vitSend, interleave_bitbufCap, vitSymbols_bitbufCap]

theorem vitSendAll_bitbufCap (v : Session) (chunks : List (List Byte)) :
    vitSendAll { p with bitbufCap := cap } v chunks = vitSendAll p v chunks := by
  induction chunks generalizing v with
  | nil => rfl
  | cons chunk rest ih => simp only [vitSendAll, vitSend_bitbufCap, ih]

/-- Of the six step rules only the two with error correction take parameters, and they use them in the decoder alone. -/
theorem dfrStep_bitbufCap (cfg : Option Cfg) (d : Deframer) :
    dfrStep { p with bitbufCap := cap } cfg d = dfrStep p cfg d := by
  simp only [dfrStep, stepAwaitingLengthFEC, stepAwaitingDataFEC, startSession_bitbufCap, vitSendAll_bitbufCap, vitSend_bitbufCap]

theorem runSteps_bitbufCap (cfg : Option Cfg) (n : Nat) (d : Deframer) (ev : List Event) :
    runSteps { p with bitbufCap := cap } cfg n d ev = runSteps p cfg n d ev := by
  induction n generalizing d ev with
  | zero => rfl
  | succ n ih => simp only [runSteps, dfrStep_bitbufCap, ih]

theorem runUntilWait_bitbufCap (cfg : Option Cfg) (d : Deframer) :
    runUntilWait { p with bitbufCap := cap } cfg d = runUntilWait p cfg d := runSteps_bitbufCap p cap cfg (stepBound d) d []

end capacity

/-! ### DFR.PUSH under a finite capacity -/

/-- A push whose bits the buffer cannot hold answers the overflow, an error that is not fatal. -/
theorem execDfrPushWith_overflow {p : Config.Params} {s : State} {q : List Bit} {n : Nat} (hf : s.fault = false)
    (hl : s.cfgLoaded = true) (hcap : p.bitbufCap = some n) (h : n < bufLen s.dfr + q.length) :
    execDfrPushWith p (samplesOf q) s = .next (raise (.bufferOverflow (bufLen s.dfr + q.length)) s) := by
  simp [execDfrPushWith, hf, hl, hcap, bufAppend_overflow h]

/-- A push whose bits fit a finite capacity is the push with no bound. -/
theorem execDfrPushWith_eq_unbounded_of_fits {p : Config.Params} {s : State} {q : List Bit} {n : Nat}
    (hcap : p.bitbufCap = some n) (h : bufLen s.dfr + q.length ≤ n) :
    execDfrPushWith p (samplesOf q) s = execDfrPushWith { p with bitbufCap := none } (samplesOf q) s := by
  simp only [execDfrPushWith, bitsOfSamples_samplesOf, hcap, bufAppend_eq_unbounded_of_fits h, runUntilWait_bitbufCap]

/-- An error that is not fatal has no effect but its report (60_exceptions.md R200). -/
theorem raise_of_not_fatal {e : Err} (h : isFatal e = false) (s : State) :
    raise e s = { s with result := .error e, events := [] } := by
  simp [raise, h]

/-! ### The machine at the defaults -/

/-- Every arm of `exec` is the parametric meaning at the defaults. -/
theorem exec_eq_execWith_params (i : Instr) (s : State) : exec i s = execWith params i s := by
  cases i <;> rfl

theorem step_eq_stepWith_params (s : State) : step s = stepWith params s := by
  unfold step stepWith
  cases issue s with
  | idle => rfl
  | answered t => rfl
  | run i t => exact exec_eq_execWith_params i t

/-- Settles O60: BITBUF_CAP is read by `BufAppend` alone. -/
theorem parametersAreArguments : Obligations.ParametersAreArguments := by
  refine ⟨exec_eq_execWith_params, step_eq_stepWith_params, ⟨rfl, rfl, rfl, rfl, rfl, rfl⟩, ?_,
    fun p s q n hcap h => execDfrPushWith_eq_unbounded_of_fits hcap h⟩
  intro p s q n hf hl hcap h
  refine ⟨.bufferOverflow (bufLen s.dfr + q.length), rfl, ?_⟩
  rw [← raise_of_not_fatal (isFatal_bufferOverflow _)]
  exact execDfrPushWith_overflow hf hl hcap h

end Machine
end Sys2Proof

/-! Proofs for the family 10_state.md: the invariant of the block, the immutable configuration, and the separation of the units from
the decode pipeline. `Effect` says once what an operation can do to the registers; the three claims are read off it. -/

namespace Sys2Proof
namespace Machine

/-! ### The whitening register never reaches 0 (40_whitening.md R92) -/

/-- The bits above the lowest of a register whose right shift is 0 are 0. -/
theorem getLsbD_succ_of_ushiftRight_one_eq_zero {s : BitVec 9} (h : s >>> 1 = 0#9) (i : Nat) : s.getLsbD (i + 1) = false := by
  have hi := congrArg (·.getLsbD i) h
  simpa [BitVec.getLsbD_ushiftRight, Nat.add_comm] using hi

/-- A step that reaches 0 shifts only zeros down and feeds a 0 in, so bit 0 was 0 too. -/
theorem pn9Step_ne_zero {s : BitVec 9} (h : s ≠ 0#9) : pn9Step s ≠ 0#9 := by
  intro hz
  obtain ⟨hin, hshift⟩ := BitVec.or_eq_zero_iff.mp hz
  have hhigh := getLsbD_succ_of_ushiftRight_one_eq_zero hshift
  have hfb : pn9Feedback s = false := by
    revert hin
    cases pn9Feedback s <;> decide
  have h5 : s.getLsbD 5 = false := hhigh 4
  have hlow : s.getLsbD 0 = false := by rwa [pn9Feedback, h5, Bool.false_xor] at hfb
  refine h (BitVec.eq_of_getLsbD_eq fun i _ => ?_)
  cases i with
  | zero => rw [hlow]; rfl
  | succ i => simp [hhigh i]

theorem pn9Advance_ne_zero (n : Nat) {s : BitVec 9} (h : s ≠ 0#9) : pn9Advance n s ≠ 0#9 := by
  induction n generalizing s with
  | zero => exact h
  | succ n ih => exact ih (pn9Step_ne_zero h)

theorem pn9Next_ne_zero {s : BitVec 9} (h : s ≠ 0#9) : (pn9Next s).2 ≠ 0#9 := pn9Advance_ne_zero 8 h

theorem pn9Seed_ne_zero : pn9Seed ≠ 0#9 := by decide

theorem whiten_ne_zero (bs : List Byte) {s : BitVec 9} (h : s ≠ 0#9) : (whiten bs s).2 ≠ 0#9 := by
  induction bs generalizing s with
  | nil => exact h
  | cons b bs ih => exact ih (pn9Next_ne_zero h)

/-! ### The costs of a Viterbi session (44_viterbi.md R142) -/

/-- `least` is an entry, and no entry is below it. -/
theorem least_mem_and_le (c : Vector Nat 8) :
    least c ∈ c.get 0 :: c.toList ∧ ∀ n ∈ c.get 0 :: c.toList, least c ≤ n :=
  List.min?_eq_some_iff.mp List.min?_cons'

theorem get_mem_toList (c : Vector Nat 8) (i : Fin 8) : c.get i ∈ c.toList :=
  Vector.mem_toList_iff.mpr (Vector.getElem_mem i.isLt)

theorem least_le (c : Vector Nat 8) (d : Trellis) : least c ≤ c.get d.toFin :=
  (least_mem_and_le c).2 _ (List.mem_cons_of_mem _ (get_mem_toList c d.toFin))

theorem exists_get_eq_least (c : Vector Nat 8) : ∃ d : Trellis, c.get d.toFin = least c := by
  obtain h0 | hmem := List.mem_cons.mp (least_mem_and_le c).1
  · exact ⟨0#3, h0.symm⟩
  · obtain ⟨i, hi, hget⟩ := Vector.mem_iff_getElem.mp (Vector.mem_toList_iff.mp hmem)
    exact ⟨.ofFin ⟨i, hi⟩, hget⟩

@[simp] theorem normalise_get (c : Vector Nat 8) (d : Trellis) : (normalise c).get d.toFin = c.get d.toFin - least c := by
  simp [normalise]

theorem exists_normalise_eq_zero (c : Vector Nat 8) : ∃ d : Trellis, (normalise c).get d.toFin = 0 := by
  obtain ⟨d, hd⟩ := exists_get_eq_least c
  exact ⟨d, by simp [hd]⟩

theorem hamming2_le_two (a b : Symbol) : hamming2 a b ≤ 2 :=
  Nat.add_le_add (Bool.toNat_le _) (Bool.toNat_le _)

/-- The survivor is a candidate that costs no more than the other one, whichever way a tie goes (R140). -/
theorem survivor_cases (p : Config.Params) (g : Generation) (y : Symbol) (d : Trellis) :
    (survivor p g y d = false ∧ candidate p g y d false ≤ candidate p g y d true) ∨
    (survivor p g y d = true ∧ candidate p g y d true ≤ candidate p g y d false) := by
  cases ht : p.vitTie with
  | first =>
    simp only [survivor, ht, Bool.not_eq_false', Bool.not_eq_true', decide_eq_true_eq, decide_eq_false_iff_not]
    omega
  | second =>
    simp only [survivor, ht, decide_eq_true_eq, decide_eq_false_iff_not]
    omega

theorem newCost_le_candidate (p : Config.Params) (g : Generation) (y : Symbol) (d : Trellis) (j : Bit) :
    newCost p g y d ≤ candidate p g y d j := by
  unfold newCost
  obtain ⟨hs, hle⟩ | ⟨hs, hle⟩ := survivor_cases p g y d <;> rw [hs] <;> cases j
  · exact Nat.le_refl _
  · exact hle
  · exact hle
  · exact Nat.le_refl _

/-- Every state that `s` leads to has `s` as one of its two sources (30_encoding.md R82). -/
theorem exists_trellisSrc_trellisNext (s : Trellis) (b : Bit) : ∃ j, trellisSrc (trellisNext s b) j = s := by
  revert s b
  decide

theorem newCost_le_src (p : Config.Params) (g : Generation) (y : Symbol) (d : Trellis) (j : Bit) :
    newCost p g y d ≤ g.cost.get (trellisSrc d j).toFin + 2 :=
  (newCost_le_candidate p g y d j).trans (Nat.add_le_add_left (hamming2_le_two _ _) _)

/-- Normalising adds nothing. -/
theorem nextGeneration_cost_le_newCost (p : Config.Params) (g : Generation) (y : Symbol) (d : Trellis) :
    (nextGeneration p g y).cost.get d.toFin ≤ newCost p g y d := by
  simp [nextGeneration]

/-- One symbol adds at most 2 on the way out of a state. -/
theorem nextGeneration_cost_trellisNext_le (p : Config.Params) (g : Generation) (y : Symbol) (s : Trellis) (b : Bit) :
    (nextGeneration p g y).cost.get (trellisNext s b).toFin ≤ g.cost.get s.toFin + 2 := by
  obtain ⟨j, hj⟩ := exists_trellisSrc_trellisNext s b
  have h := newCost_le_src p g y (trellisNext s b) j
  rw [hj] at h
  exact (nextGeneration_cost_le_newCost p g y _).trans h

/-- One symbol raises a bound on all costs by at most 2. -/
theorem costsAtMost_nextGeneration {p : Config.Params} {g : Generation} {n : Nat} (y : Symbol) (h : CostsAtMost n g.cost) :
    CostsAtMost (n + 2) (nextGeneration p g y).cost := fun d =>
  calc (nextGeneration p g y).cost.get d.toFin
    _ ≤ newCost p g y d := nextGeneration_cost_le_newCost p g y d
    _ ≤ g.cost.get (trellisSrc d false).toFin + 2 := newCost_le_src p g y d false
    _ ≤ n + 2 := Nat.add_le_add_right (h (trellisSrc d false)) 2

/-- A cost of 0 is near its successors after one symbol. -/
theorem nearAfterOne_nextGeneration {p : Config.Params} {g : Generation} (y : Symbol) (h : ∃ d : Trellis, g.cost.get d.toFin = 0) :
    NearAfterOne (nextGeneration p g y).cost := by
  obtain ⟨s, hs⟩ := h
  refine ⟨s, fun b => ?_⟩
  have := nextGeneration_cost_trellisNext_le p g y s b
  omega

theorem nearAfterTwo_nextGeneration {p : Config.Params} {g : Generation} (y : Symbol) (h : NearAfterOne g.cost) :
    NearAfterTwo (nextGeneration p g y).cost := by
  obtain ⟨s, hs⟩ := h
  refine ⟨s, fun a b => ?_⟩
  have := nextGeneration_cost_trellisNext_le p g y (trellisNext s a) b
  have := hs a
  omega

/-- Three symbols lead from any state to any other. -/
theorem exists_three_trellisNext (s d : Trellis) : ∃ a b c, trellisNext (trellisNext (trellisNext s a) b) c = d := by
  revert s d
  decide

/-- After three symbols every state has a path of cost at most 6 from the state that had cost 0. -/
theorem costsAtMost_six_nextGeneration {p : Config.Params} {g : Generation} (y : Symbol) (h : NearAfterTwo g.cost) :
    CostsAtMost 6 (nextGeneration p g y).cost := by
  obtain ⟨s, hs⟩ := h
  intro d
  obtain ⟨a, b, c, rfl⟩ := exists_three_trellisNext s d
  have := nextGeneration_cost_trellisNext_le p g y (trellisNext (trellisNext s a) b) c
  have := hs a b
  omega

/-- The four cases of the bound are the session after 0, 1, 2, and 3 or more symbols: each leads to the next, the last to itself. -/
theorem costsBounded_nextGeneration {p : Config.Params} {g : Generation} (y : Symbol) (h : CostsBounded g.cost) :
    CostsBounded (nextGeneration p g y).cost := by
  obtain ⟨hzero, hcase⟩ := h
  refine ⟨exists_normalise_eq_zero _, .inr ?_⟩
  have hone := nearAfterOne_nextGeneration (p := p) y hzero
  obtain h0 | ⟨h1, hnear⟩ | ⟨-, hnear, hnear2⟩ | ⟨-, hnear, hnear2⟩ := hcase
  · exact .inl ⟨costsAtMost_nextGeneration y h0, hone⟩
  · exact .inr (.inl ⟨costsAtMost_nextGeneration y h1, hone, nearAfterTwo_nextGeneration y hnear⟩)
  · exact .inr (.inr ⟨costsAtMost_six_nextGeneration y hnear2, hone, nearAfterTwo_nextGeneration y hnear⟩)
  · exact .inr (.inr ⟨costsAtMost_six_nextGeneration y hnear2, hone, nearAfterTwo_nextGeneration y hnear⟩)

theorem CostsAtMost.mono {m n : Nat} {c : Vector Nat 8} (h : CostsAtMost m c) (hmn : m ≤ n) : CostsAtMost n c :=
  fun d => (h d).trans hmn

theorem CostsBounded.atMost {c : Vector Nat 8} (h : CostsBounded c) : CostsAtMost 106 c := by
  obtain ⟨-, h | ⟨h, -⟩ | ⟨h, -⟩ | ⟨h, -⟩⟩ := h <;> exact h.mono (by decide)

/-- The default VIT_INIT_COST meets the bound (R137). -/
theorem costsBounded_startGeneration : CostsBounded (startGeneration params).cost := by
  refine ⟨⟨0#3, rfl⟩, .inl ?_⟩
  unfold CostsAtMost
  decide

/-! ### What VIT operations keep of a session -/

theorem startSession_ok : (startSession params).Ok :=
  ⟨by decide, costsBounded_startGeneration, costsBounded_startGeneration.atMost, costsBounded_startGeneration.atMost⟩

/-- The generation written is bounded, and the other one is as it was (10_state.md R18). -/
theorem Session.Ok.after_advance {v : Session} {g : Generation} {n : Nat} (hv : v.Ok) (hg : CostsBounded g.cost) (hn : n < vitFill) :
    (v.advance g n).Ok := by
  obtain ⟨-, -, h0, h1⟩ := hv
  refine ⟨by simpa using hn, by simpa using hg, ?_, ?_⟩
  all_goals
    cases hc : v.cur <;> simp only [Session.advance, hc, if_true, Bool.false_eq_true, if_false]
  · exact hg.atMost
  · exact h0
  · exact h1
  · exact hg.atMost

theorem Session.Ok.after_vitSymbol {p : Config.Params} {v : Session} (h : v.Ok) (y : Symbol) : (vitSymbol p v y).2.Ok := by
  have ⟨hn, hcost, _, _⟩ := h
  have hg := costsBounded_nextGeneration (p := p) y hcost
  obtain ⟨-, hv⟩ | ⟨hne, hv⟩ := vitSymbol_cases p v y <;> rw [hv]
  · exact h.after_advance hg (by decide)
  · exact h.after_advance hg (Nat.lt_of_le_of_ne hn hne)

theorem Session.Ok.after_vitSymbols {p : Config.Params} {v : Session} (h : v.Ok) (ys : List Symbol) : (vitSymbols p v ys).2.Ok := by
  induction ys generalizing v with
  | nil => exact h
  | cons y ys ih => exact ih (h.after_vitSymbol y)

/-- A chunk that VIT.SEND decodes is sixteen symbols (44_viterbi.md R147). -/
theorem vitSend_eq_ok {p : Config.Params} {v : Session} {chunk : List Byte} {r : List Byte × Session}
    (h : vitSend p v chunk = .ok r) : ∃ ys : List Symbol, ys.length = 16 ∧ r = vitSymbols p v ys := by
  by_cases hl : chunk.length = 4
  · obtain ⟨ys, hys, hv⟩ := vitSend_ok_of_length (p := p) (v := v) hl
    exact ⟨ys, hys, Except.ok.inj (h.symm.trans hv)⟩
  · rw [vitSend_malformed hl] at h
    cases h

theorem Session.Ok.after_vitSendAll {p : Config.Params} {chunks : List (List Byte)} {v v' : Session} {out : List Byte} (hv : v.Ok)
    (h : vitSendAll p v chunks = .ok (out, v')) : v'.Ok := by
  induction chunks generalizing v v' out with
  | nil => cases h; exact hv
  | cons chunk rest ih =>
    simp only [vitSendAll] at h
    split at h
    · cases h
    next q hq =>
      obtain ⟨ys, -, rfl⟩ := vitSend_eq_ok hq
      split at h
      · cases h
      next q' hq' =>
        cases h
        exact ih (hv.after_vitSymbols ys) hq'

/-- A chunk on a session past its first bytes gives two bytes (44_viterbi.md R146). -/
theorem vitSymbols_chunk_count {p : Config.Params} {v : Session} {ys : List Symbol} (hn : v.nbits = 24) (hys : ys.length = 16) :
    (vitSymbols p v ys).1.length = 2 ∧ (vitSymbols p v ys).2.nbits = 24 := by
  obtain ⟨hsum, hlt, -, hge⟩ := vitSymbols_count p v ys (by omega)
  have := hge (by omega)
  omega

/-! ### What the deframer holds in each of its states (10_state.md R19 to R24) -/

section okPerState
variable {cfg : Option Cfg} {d : Deframer}

theorem Deframer.ok_seekingPreamble_iff (h : d.fstate = .seekingPreamble) : d.Ok cfg ↔ d.Idle := by
  simp only [Deframer.Ok, h]

theorem Deframer.ok_seekingSyncWord_iff (h : d.fstate = .seekingSyncWord) : d.Ok cfg ↔ d.Idle ∧ cfg.isSome = true := by
  simp only [Deframer.Ok, h]

theorem Deframer.ok_awaitingLength_iff (h : d.fstate = .awaitingLength) :
    d.Ok cfg ↔ d.Idle ∧ ∃ c, cfg = some c ∧ c.fecEn = false := by
  simp only [Deframer.Ok, h]

theorem Deframer.ok_awaitingLengthFEC_iff (h : d.fstate = .awaitingLengthFEC) :
    d.Ok cfg ↔ d.Idle ∧ ∃ c, cfg = some c ∧ c.fecEn = true := by
  simp only [Deframer.Ok, h]

theorem Deframer.ok_awaitingData_iff (h : d.fstate = .awaitingData) :
    d.Ok cfg ↔ ∃ c len, cfg = some c ∧ c.fecEn = false ∧ d.length = some len ∧ d.decbuf = [] ∧ d.vit = none ∧
      d.pn9.isSome = c.whitenEn ∧ d.pn9 ≠ some 0#9 := by
  simp only [Deframer.Ok, h]

theorem Deframer.ok_awaitingDataFEC_iff (h : d.fstate = .awaitingDataFEC) :
    d.Ok cfg ↔ ∃ c len v, cfg = some c ∧ c.fecEn = true ∧ d.length = some len ∧ d.vit = some v ∧ v.Ok ∧ v.nbits = 24 ∧
      d.decbuf.length ≤ len.toNat + 1 ∧ d.decbuf.length % 2 = 0 ∧ d.pn9.isSome = c.whitenEn ∧ d.pn9 ≠ some 0#9 := by
  simp only [Deframer.Ok, h]

theorem Deframer.reset_ok : Deframer.reset.Ok cfg := ⟨rfl, rfl, rfl, rfl⟩

theorem frameEnd_ok : (frameEnd d).Ok cfg := ⟨rfl, rfl, rfl, rfl⟩

/-- The bits in the buffer bear on no other register. -/
theorem Deframer.ok_bitbuf_iff (q : List Bit) : Deframer.Ok cfg { d with bitbuf := q } ↔ d.Ok cfg := Iff.rfl

/-- Without a configuration only the idle search for a preamble is possible, and it is so under every configuration. -/
theorem Deframer.Ok.of_none (h : d.Ok none) : d.Ok cfg := by
  cases hf : d.fstate with
  | seekingPreamble => exact (ok_seekingPreamble_iff hf).mpr ((ok_seekingPreamble_iff hf).mp h)
  | seekingSyncWord =>
    obtain ⟨-, hc⟩ := (ok_seekingSyncWord_iff hf).mp h
    cases hc
  | awaitingLength =>
    obtain ⟨-, c, hc, -⟩ := (ok_awaitingLength_iff hf).mp h
    cases hc
  | awaitingLengthFEC =>
    obtain ⟨-, c, hc, -⟩ := (ok_awaitingLengthFEC_iff hf).mp h
    cases hc
  | awaitingData =>
    obtain ⟨c, len, hc, -⟩ := (ok_awaitingData_iff hf).mp h
    cases hc
  | awaitingDataFEC =>
    obtain ⟨c, len, v, hc, -⟩ := (ok_awaitingDataFEC_iff hf).mp h
    cases hc

end okPerState

/-! ### The deframer's steps keep what each state holds -/

/-- The whitening register of a frame after its Length byte, from none (46_deframer.md R182, R183). -/
theorem lengthPn9_ok (c : Cfg) :
    (if c.whitenEn then some (pn9Next pn9Seed).2 else none).isSome = c.whitenEn ∧
      (if c.whitenEn then some (pn9Next pn9Seed).2 else none) ≠ some 0#9 := by
  cases c.whitenEn with
  | false => exact ⟨rfl, nofun⟩
  | true => exact ⟨rfl, fun h => pn9Next_ne_zero pn9Seed_ne_zero (Option.some.inj h)⟩

/-- Dewhitening keeps the number of bytes, and its register stays present when in use and other than 0. -/
theorem dewhiten_keeps {c : Cfg} {bs bs' : List Byte} {r r' : Option (BitVec 9)} (h : dewhiten c bs r = .ok (bs', r'))
    (hs : r.isSome = c.whitenEn) (h0 : r ≠ some 0#9) :
    bs'.length = bs.length ∧ r'.isSome = c.whitenEn ∧ r' ≠ some 0#9 := by
  obtain ⟨-, hd⟩ | ⟨-, -, hd⟩ | ⟨k, hw, rfl, hd⟩ := dewhiten_cases c bs r <;> rw [hd] at h <;> cases h
  · exact ⟨rfl, hs, h0⟩
  · refine ⟨whiten_length bs k, hw.symm, fun hz => ?_⟩
    exact whiten_ne_zero bs (fun hk => h0 (congrArg some hk)) (Option.some.inj hz)

section steps
variable {cfg : Option Cfg} {d d' : Deframer} {ev : List Event}

theorem stepSeekingPreamble_keeps_ok (hf : d.fstate = .seekingPreamble) (hok : d.Ok cfg)
    (h : stepSeekingPreamble cfg d = .moved d' ev) : d'.Ok cfg := by
  have hidle := (Deframer.ok_seekingPreamble_iff hf).mp hok
  obtain ⟨-, hs⟩ | ⟨c, rfl, ⟨-, hs⟩ | ⟨-, -, -, -, hs⟩ | ⟨-, -, -, hs⟩⟩ := stepSeekingPreamble_cases cfg d <;>
    rw [hs] at h <;> cases h
  · exact (Deframer.ok_seekingSyncWord_iff rfl).mpr ⟨hidle, rfl⟩
  · exact hok

theorem stepSeekingSyncWord_keeps_ok (hf : d.fstate = .seekingSyncWord) (hok : d.Ok cfg)
    (h : stepSeekingSyncWord cfg d = .moved d' ev) : d'.Ok cfg := by
  obtain ⟨hidle, -⟩ := (Deframer.ok_seekingSyncWord_iff hf).mp hok
  obtain ⟨-, hs⟩ | ⟨c, rfl, ⟨-, hs⟩ | ⟨-, -, hs⟩ | ⟨-, -, -, hs⟩⟩ := stepSeekingSyncWord_cases cfg d <;>
    rw [hs] at h <;> cases h
  · cases hfec : c.fecEn with
    | false => exact (Deframer.ok_awaitingLength_iff rfl).mpr ⟨hidle, c, rfl, hfec⟩
    | true => exact (Deframer.ok_awaitingLengthFEC_iff rfl).mpr ⟨hidle, c, rfl, hfec⟩
  · exact (Deframer.ok_seekingPreamble_iff rfl).mpr hidle

theorem stepAwaitingLength_keeps_ok (hf : d.fstate = .awaitingLength) (hok : d.Ok cfg)
    (h : stepAwaitingLength cfg d = .moved d' ev) : d'.Ok cfg := by
  obtain ⟨⟨-, hdec, hpn9, hvit⟩, c, hc, hfec⟩ := (Deframer.ok_awaitingLength_iff hf).mp hok
  subst hc
  obtain ⟨-, hs⟩ | ⟨-, -, hs⟩ | ⟨_, -, ⟨⟩, hs⟩ := stepAwaitingLength_cases (some c) d <;> rw [hs] at h <;> cases h
  obtain ⟨hsome, hne⟩ := lengthPn9_ok c
  exact (Deframer.ok_awaitingData_iff rfl).mpr ⟨c, _, rfl, hfec, rfl, hdec, hvit, by rw [hpn9]; exact hsome, by rw [hpn9]; exact hne⟩

theorem stepAwaitingLengthFEC_keeps_ok (hf : d.fstate = .awaitingLengthFEC) (hok : d.Ok cfg)
    (h : stepAwaitingLengthFEC params cfg d = .moved d' ev) : d'.Ok cfg := by
  obtain ⟨⟨-, -, hpn9, -⟩, c, hc, hfec⟩ := (Deframer.ok_awaitingLengthFEC_iff hf).mp hok
  subst hc
  obtain ⟨-, hs⟩ | ⟨-, -, hs⟩ | ⟨_, x, v, -, ⟨⟩, hn, hv, hs⟩ := stepAwaitingLengthFEC_cases params (some c) d <;>
    rw [hs] at h <;> cases h
  obtain ⟨hsome, hne⟩ := lengthPn9_ok c
  exact (Deframer.ok_awaitingDataFEC_iff rfl).mpr ⟨c, _, v, rfl, hfec, rfl, rfl, startSession_ok.after_vitSendAll hv, hn,
    Nat.zero_le _, rfl, by rw [hpn9]; exact hsome, by rw [hpn9]; exact hne⟩

theorem stepAwaitingData_keeps_ok (h : stepAwaitingData cfg d = .moved d' ev) : d'.Ok cfg := by
  obtain ⟨e, hs⟩ | ⟨len, -, ⟨-, hs⟩ | ⟨c, body, r, ev', -, -, -, -, hs⟩⟩ := stepAwaitingData_cases cfg d <;>
    rw [hs] at h <;> cases h
  exact frameEnd_ok

/-- A chunk adds two bytes to a buffer shorter than the frame, so the buffer stays even and at most one byte too long. -/
theorem stepAwaitingDataFEC_keeps_ok (hf : d.fstate = .awaitingDataFEC) (hok : d.Ok cfg)
    (h : stepAwaitingDataFEC params cfg d = .moved d' ev) : d'.Ok cfg := by
  obtain ⟨c, len, v, hc, hfec, hlen, hvit, hvok, hn, -, heven, hsome, hne⟩ := (Deframer.ok_awaitingDataFEC_iff hf).mp hok
  subst hc
  obtain ⟨e, hs⟩ | ⟨len', hlen', ⟨ev', -, -, hs⟩ | ⟨-, -, hs⟩ | ⟨c', w, dec, w', bs, r, hshort, -, ⟨⟩, hw, hsend, hdew, hs⟩⟩ :=
    stepAwaitingDataFEC_cases params (some c) d <;> rw [hs] at h <;> cases h
  · exact frameEnd_ok
  · obtain rfl := Option.some.inj (hlen.symm.trans hlen')
    obtain rfl := Option.some.inj (hvit.symm.trans hw)
    obtain ⟨ys, hys, hr⟩ := vitSend_eq_ok hsend
    obtain ⟨rfl, rfl⟩ := Prod.ext_iff.mp hr
    obtain ⟨hdec, hn'⟩ := vitSymbols_chunk_count (p := params) hn hys
    obtain ⟨hbs, hsome', hne'⟩ := dewhiten_keeps hdew hsome hne
    refine Iff.mpr (Deframer.ok_awaitingDataFEC_iff hf)
      ⟨c, len, _, rfl, hfec, hlen, rfl, hvok.after_vitSymbols ys, hn', ?_, ?_, hsome', hne'⟩ <;>
      simp only [decAppend_decbuf, bufDrop_decbuf, List.length_append] <;> omega

/-- Whatever rule `fstate` selects keeps what the states hold. -/
theorem dfrStep_keeps_ok (hok : d.Ok cfg) (h : dfrStep params cfg d = .moved d' ev) : d'.Ok cfg := by
  cases hf : d.fstate <;> simp only [dfrStep, hf] at h
  case seekingPreamble => exact stepSeekingPreamble_keeps_ok hf hok h
  case seekingSyncWord => exact stepSeekingSyncWord_keeps_ok hf hok h
  case awaitingLength => exact stepAwaitingLength_keeps_ok hf hok h
  case awaitingLengthFEC => exact stepAwaitingLengthFEC_keeps_ok hf hok h
  case awaitingData => exact stepAwaitingData_keeps_ok h
  case awaitingDataFEC => exact stepAwaitingDataFEC_keeps_ok hf hok h

theorem runSteps_keeps_ok {n : Nat} {ev' : List Event} (hok : d.Ok cfg) (h : runSteps params cfg n d ev = .ok (d', ev')) :
    d'.Ok cfg := by
  induction n generalizing d ev with
  | zero => cases h; exact hok
  | succ n ih =>
    simp only [runSteps] at h
    split at h
    · cases h; exact hok
    next hs => exact ih (dfrStep_keeps_ok hok hs) h
    · cases h

end steps

/-! ### What one operation can do to the registers -/

/-- The operation is one of the units PN9, CRC, ILV, CENC, VIT and FRM: the numbers 0x10 to 0x61 of 30_encoding.md R75. -/
def Instr.ofUnit (i : Instr) : Bool := decide (0x10 ≤ (opcode i).toNat ∧ (opcode i).toNat ≤ 0x61)

theorem Instr.ofUnit_iff (i : Instr) : Instr.ofUnit i = true ↔ 0x10 ≤ (opcode i).toNat ∧ (opcode i).toNat ≤ 0x61 :=
  decide_eq_true_iff

/-- What the units write in their scratch registers. -/
inductive ScratchWrite (u : Scratch) : Scratch → Prop
  | pn9Seed : ScratchWrite u { u with pn9 := some pn9Seed }
  | pn9Next (r : BitVec 9) (h : u.pn9 = some r) : ScratchWrite u { u with pn9 := some (pn9Next r).2 }
  | crc (c : BitVec 16) : ScratchWrite u { u with crc := some c }
  | encSeed : ScratchWrite u { u with enc := some (encStart params) }
  | encBit (r : BitVec 11) (x : Bit) : ScratchWrite u { u with enc := some (encBit params r x).2 }
  | encByte (r : BitVec 11) (b : Byte) : ScratchWrite u { u with enc := some (encByte params r b).2 }
  | vitStart : ScratchWrite u { u with vit := some (startSession params) }
  | vitSymbols (v : Session) (ys : List Symbol) (h : u.vit = some v) :
      ScratchWrite u { u with vit := some (vitSymbols params v ys).2 }

/-- What the pipeline operations write in the deframer. -/
inductive DeframerWrite (cfg : Option Cfg) (d : Deframer) : Deframer → Prop
  | reset : DeframerWrite cfg d Deframer.reset
  | frameEnd : DeframerWrite cfg d (frameEnd d)
  | step (d' : Deframer) (ev : List Event) (h : dfrStep params cfg d = .moved d' ev) : DeframerWrite cfg d d'
  | push (q : List Bit) (d' : Deframer) (ev : List Event)
      (h : runUntilWait params cfg { d with bitbuf := d.bitbuf ++ q } = .ok (d', ev)) : DeframerWrite cfg d d'

/-- What an operation makes of a state: it raises an error, it only answers, or it answers and writes one part of the state. -/
inductive Effect (i : Instr) (s : State) : State → Prop
  | raised (e : Err) : Effect i s (raise e s)
  | answered (r : Result) (ev : List Event) : Effect i s (respond r ev s)
  | scratch (hi : Instr.ofUnit i = true) (r : Result) (u : Scratch) (hu : ScratchWrite s.u u) :
      Effect i s (respond r [] { s with u := u })
  | configured (hi : Instr.ofUnit i = false) (rec : CfgRecord) (hrec : configProblem s.cfgLoaded rec = none) :
      Effect i s (respond .none [] { s with cfg := some (cfgOfRecord rec), cfgLoaded := true })
  | deframer (hi : Instr.ofUnit i = false) (r : Result) (ev : List Event) (d : Deframer) (hd : DeframerWrite s.cfg s.dfr d) :
      Effect i s (respond r ev { s with dfr := d })

/-- The meaning answers a next state, and that state is an effect of the operation. -/
def Answers (i : Instr) (s : State) (k : Answer) : Prop := ∃ t, Effect i s t ∧ k = .next t

section answers
variable {i : Instr} {s : State}

theorem Effect.answers {t : State} (h : Effect i s t) : Answers i s (.next t) := ⟨t, h, rfl⟩

/-- The check of the fault latch adds only an error. -/
theorem guarded_answers {k : Answer} (h : Answers i s k) : Answers i s (guarded s k) := by
  cases hf : s.fault with
  | false => rwa [guarded_running hf]
  | true => rw [guarded_faulted hf]; exact (Effect.raised _).answers

theorem withPn9_answers {k : BitVec 9 → Answer} (h : ∀ r, s.u.pn9 = some r → Answers i s (k r)) : Answers i s (withPn9 s k) := by
  refine guarded_answers ?_
  split
  · exact (Effect.raised _).answers
  next r hr => exact h r hr

theorem withEnc_answers {k : BitVec 11 → Answer} (h : ∀ r, Answers i s (k r)) : Answers i s (withEnc s k) := by
  refine guarded_answers ?_
  split
  · exact (Effect.raised _).answers
  next r hr => exact h r

theorem withSession_answers {k : Session → Answer} (h : ∀ v, s.u.vit = some v → Answers i s (k v)) :
    Answers i s (withSession s k) := by
  refine guarded_answers ?_
  split
  · exact (Effect.raised _).answers
  next v hv => exact h v hv

/-- An internal operation is the driver's step when `fstate` selects it. -/
theorem internalStep_answers {f : FState} {op : Byte} {rule : Deframer → StepOutcome} (hi : Instr.ofUnit i = false)
    (hrule : s.dfr.fstate = f → rule s.dfr = dfrStep params s.cfg s.dfr) : Answers i s (internalStep f op rule s) := by
  refine guarded_answers ?_
  split
  · exact (Effect.raised _).answers
  next hf =>
    rw [hrule (not_not.mp hf)]
    split
    · exact (Effect.answered _ _).answers
    next d ev hd => exact (Effect.deframer hi _ _ _ (.step d ev hd)).answers
    · exact (Effect.raised _).answers

end answers

section operations
variable (s : State)

theorem execCfgLoad_answers (rec : CfgRecord) : Answers (.cfgLoad rec) s (execCfgLoad rec s) := by
  refine guarded_answers ?_
  split
  · exact (Effect.raised _).answers
  next h => exact (Effect.configured rfl rec h).answers

theorem execCrcUpdate_answers (b : Byte) : Answers (.crcUpdate b) s (execCrcUpdate b s) := by
  refine guarded_answers ?_
  split
  · exact (Effect.raised _).answers
  next c hc => exact (Effect.scratch rfl _ _ (.crc (crcByte c b))).answers

theorem execCrcVerify_answers (f : List Byte) : Answers (.crcVerify f) s (execCrcVerify f s) := by
  refine guarded_answers ?_
  split_ifs
  · exact (Effect.raised _).answers
  · exact (Effect.answered _ _).answers
  · exact (Effect.raised _).answers

theorem execIlvXform_answers (blk : List Byte) : Answers (.ilvXform blk) s (execIlvXform blk s) := by
  refine guarded_answers ?_
  split
  · exact (Effect.answered _ _).answers
  · exact (Effect.raised _).answers

theorem execFecEncode_answers (data : List Byte) : Answers (.fecEncode data) s (execFecEncode data s) := by
  refine guarded_answers ?_
  split
  · exact (Effect.answered _ _).answers
  · exact (Effect.raised _).answers

theorem execVitSymbol_answers (y : Symbol) : Answers (.vitSymbol y) s (execVitSymbol y s) :=
  withSession_answers fun v hv => (Effect.scratch rfl _ _ (.vitSymbols v [y] hv)).answers

theorem execVitSend_answers (chunk : List Byte) : Answers (.vitSend chunk) s (execVitSend chunk s) := by
  refine withSession_answers fun v hv => ?_
  split
  · exact (Effect.raised _).answers
  next r hr =>
    obtain ⟨ys, -, rfl⟩ := vitSend_eq_ok hr
    exact (Effect.scratch rfl _ _ (.vitSymbols v ys hv)).answers

theorem execFrmEncode_answers (m : Message) : Answers (.frmEncode m) s (execFrmEncode m s) := by
  refine guarded_answers ?_
  split_ifs
  · exact (Effect.raised _).answers
  · exact (Effect.raised _).answers
  · split
    · exact (Effect.raised _).answers
    · split
      · exact (Effect.answered _ _).answers
      · exact (Effect.raised _).answers

theorem execDfrPush_answers (q : List Byte) : Answers (.dfrPush q) s (execDfrPush q s) := by
  refine guarded_answers ?_
  split_ifs
  · exact (Effect.raised _).answers
  · split
    · exact (Effect.raised _).answers
    · rw [bufAppend_params]
      split
      · exact (Effect.raised _).answers
      next d0 hd0 =>
        cases hd0
        split
        · exact (Effect.raised _).answers
        next d ev hd => exact (Effect.deframer rfl _ _ _ (.push _ d ev hd)).answers

theorem execDfrValidate_answers (body : List Byte) : Answers (.dfrValidate body) s (execDfrValidate body s) := by
  refine guarded_answers ?_
  split_ifs
  · exact (Effect.raised _).answers
  · split
    · exact (Effect.raised _).answers
    next len hlen =>
      split_ifs
      · exact (Effect.raised _).answers
      · obtain ⟨ev, -, hv⟩ | ⟨e, -, hv⟩ := validate_cases s.cfg len body s.dfr <;> rw [hv]
        · exact (Effect.deframer rfl _ _ _ .frameEnd).answers
        · exact (Effect.raised _).answers

end operations

/-- Every operation answers, with one of the effects. -/
theorem exec_answers (i : Instr) (s : State) : Answers i s (exec i s) := by
  cases i with
  | cfgLoad rec => exact execCfgLoad_answers s rec
  | pn9Seed => exact guarded_answers (Effect.scratch rfl _ _ .pn9Seed).answers
  | pn9Next => exact withPn9_answers fun r hr => (Effect.scratch rfl _ _ (.pn9Next r hr)).answers
  | pn9Whiten b => exact withPn9_answers fun r hr => (Effect.scratch rfl _ _ (.pn9Next r hr)).answers
  | crcInit => exact guarded_answers (Effect.scratch rfl _ _ (.crc crcInit)).answers
  | crcUpdate b => exact execCrcUpdate_answers s b
  | crcCalc data => exact guarded_answers (Effect.answered _ _).answers
  | crcVerify f => exact execCrcVerify_answers s f
  | ilvXform blk => exact execIlvXform_answers s blk
  | cencSeed => exact guarded_answers (Effect.scratch rfl _ _ .encSeed).answers
  | cencBit x => exact withEnc_answers fun r => (Effect.scratch rfl _ _ (.encBit r x)).answers
  | cencByte b => exact withEnc_answers fun r => (Effect.scratch rfl _ _ (.encByte r b)).answers
  | fecEncode data => exact execFecEncode_answers s data
  | vitStart => exact guarded_answers (Effect.scratch rfl _ _ .vitStart).answers
  | vitSymbol y => exact execVitSymbol_answers s y
  | vitSend chunk => exact execVitSend_answers s chunk
  | frmEncode m => exact execFrmEncode_answers s m
  | frmSerialize f => exact guarded_answers (Effect.answered _ _).answers
  | dfrPush q => exact execDfrPush_answers s q
  | dfrReset => exact guarded_answers (Effect.deframer rfl _ _ _ .reset).answers
  | dfrValidate body => exact execDfrValidate_answers s body
  | dfrStepSeekingPreamble => exact internalStep_answers rfl fun hf => by simp only [dfrStep, hf]
  | dfrStepSeekingSyncWord => exact internalStep_answers rfl fun hf => by simp only [dfrStep, hf]
  | dfrStepAwaitingLength => exact internalStep_answers rfl fun hf => by simp only [dfrStep, hf]
  | dfrStepAwaitingLengthFEC => exact internalStep_answers rfl fun hf => by simp only [dfrStep, hf]
  | dfrStepAwaitingData => exact internalStep_answers rfl fun hf => by simp only [dfrStep, hf]
  | dfrStepAwaitingDataFEC => exact internalStep_answers rfl fun hf => by simp only [dfrStep, hf]

theorem exec_effect {i : Instr} {s t : State} (h : exec i s = .next t) : Effect i s t := by
  obtain ⟨t', he, ht⟩ := exec_answers i s
  obtain rfl : t' = t := Host.Outcome.next.inj (ht.symm.trans h)
  exact he

/-! ### The invariant of the block -/

theorem encStart_low : (encStart params).extractLsb' 0 8 = 0#8 := by decide

theorem Scratch.reset_ok : Scratch.reset.Ok := ⟨nofun, nofun, nofun⟩

/-- Every write of a unit keeps its register's own condition and leaves the others. -/
theorem ScratchWrite.keeps_ok {u u' : Scratch} (h : ScratchWrite u u') (hok : u.Ok) : u'.Ok := by
  obtain ⟨hpn9, henc, hvit⟩ := hok
  cases h with
  | pn9Seed => exact ⟨fun h => pn9Seed_ne_zero (Option.some.inj h), henc, hvit⟩
  | pn9Next r hr =>
    refine ⟨fun h => pn9Next_ne_zero (fun h0 => hpn9 ?_) (Option.some.inj h), henc, hvit⟩
    rw [hr, h0]
  | crc c => exact ⟨hpn9, henc, hvit⟩
  | encSeed => exact ⟨hpn9, fun _ h => Option.some.inj h ▸ encStart_low, hvit⟩
  | encBit r x => exact ⟨hpn9, fun _ h => Option.some.inj h ▸ encBit_low params r x, hvit⟩
  | encByte r b => exact ⟨hpn9, fun _ h => Option.some.inj h ▸ encByte_low params r b, hvit⟩
  | vitStart => exact ⟨hpn9, henc, fun _ h => Option.some.inj h ▸ startSession_ok⟩
  | vitSymbols v ys hv => exact ⟨hpn9, henc, fun _ h => Option.some.inj h ▸ (hvit v hv).after_vitSymbols ys⟩

theorem DeframerWrite.keeps_ok {cfg : Option Cfg} {d d' : Deframer} (h : DeframerWrite cfg d d') (hok : d.Ok cfg) : d'.Ok cfg := by
  cases h with
  | reset => exact Deframer.reset_ok
  | frameEnd => exact frameEnd_ok
  | step _ ev hs => exact dfrStep_keeps_ok hok hs
  | push q _ ev hp => exact runSteps_keeps_ok ((Deframer.ok_bitbuf_iff _).mpr hok) hp

/-- What a record that passes the four checks of CFG.LOAD meets (46_deframer.md R170). -/
theorem configProblem_eq_none {loaded : Bool} {r : CfgRecord} (h : configProblem loaded r = none) :
    loaded = false ∧ (r.syncRep = 1 ∨ r.syncRep = 2) ∧ r.preambleLen ≠ 0 ∧ inRange r = true := by
  unfold configProblem at h
  split_ifs at h with hl hs hp hr
  refine ⟨by simpa using hl, by omega, hp, by simpa using hr⟩

theorem cfgOfRecord_legal {loaded : Bool} {r : CfgRecord} (h : configProblem loaded r = none) : (cfgOfRecord r).Legal := by
  obtain ⟨-, hsync, hpre, hrange⟩ := configProblem_eq_none h
  have hlt : r.preambleLen < 256 := by
    simp only [inRange, Bool.and_eq_true, decide_eq_true_eq] at hrange
    omega
  refine ⟨fun h0 => hpre ?_, hsync.imp (congrArg (BitVec.ofNat 2)) (congrArg (BitVec.ofNat 2))⟩
  have h0' := congrArg BitVec.toNat h0
  simp only [cfgOfRecord, BitVec.toNat_ofNat] at h0'
  omega

section inv
variable {s : State}

/-- The invariant reads neither the latch nor the ports. -/
theorem State.inv_raise_iff (e : Err) : (raise e s).Inv ↔ s.Inv := Iff.rfl
theorem State.inv_respond_iff (r : Result) (ev : List Event) : (respond r ev s).Inv ↔ s.Inv := Iff.rfl
theorem State.inv_port_iff (q : List Request) : State.Inv { s with port := q } ↔ s.Inv := Iff.rfl

end inv

theorem Effect.keeps_inv {i : Instr} {s t : State} (h : Effect i s t) (hinv : s.Inv) : t.Inv := by
  cases h with
  | raised e => exact (State.inv_raise_iff e).mpr hinv
  | answered r ev => exact (State.inv_respond_iff r ev).mpr hinv
  | scratch hi r u hu =>
    obtain ⟨hloaded, hlegal, hdfr, hok⟩ := hinv
    exact ⟨hloaded, hlegal, hdfr, hu.keeps_ok hok⟩
  | configured hi rec hrec =>
    obtain ⟨hloaded, -, hdfr, hok⟩ := hinv
    obtain ⟨hfresh, -⟩ := configProblem_eq_none hrec
    have hnone : s.cfg = none := Option.isNone_iff_eq_none.mp (by simpa [hfresh] using hloaded.symm)
    rw [hnone] at hdfr
    exact ⟨rfl, fun c hc => Option.some.inj hc ▸ cfgOfRecord_legal hrec, hdfr.of_none, hok⟩
  | deframer hi r ev d hd =>
    obtain ⟨hloaded, hlegal, hdfr, hok⟩ := hinv
    exact ⟨hloaded, hlegal, hd.keeps_ok hdfr, hok⟩

/-- Settles O58: nothing is loaded, nothing is received and no scratch register holds a value. -/
theorem resetStateHasTheInvariant : Obligations.ResetStateHasTheInvariant :=
  ⟨rfl, nofun, Deframer.reset_ok, Scratch.reset_ok⟩

theorem hardwareReset_inv (s : State) : (hardwareReset s).Inv := (State.inv_port_iff s.port).mpr resetStateHasTheInvariant

/-- Settles O57: a step does nothing, resets, refuses the request, or runs an operation with one of the effects. -/
theorem everyStepKeepsTheInvariant : Obligations.EveryStepKeepsTheInvariant := by
  intro s t hinv h
  unfold step at h
  obtain ⟨-, hi⟩ | ⟨rest, -, hi⟩ | ⟨iss, op, a, rest, -, hi⟩ := issue_cases s <;> rw [hi] at h
  · cases h
    exact hinv
  · cases h
    exact hardwareReset_inv _
  · have hport : State.Inv { s with port := rest } := (State.inv_port_iff rest).mpr hinv
    obtain ⟨e, -, ho⟩ | ⟨i, -, -, ho⟩ := issueOperation_cases iss op a { s with port := rest } <;> rw [ho] at h
    · cases h
      exact (State.inv_raise_iff e).mpr hport
    · exact (exec_effect h).keeps_inv hport

/-! ### The configuration and the separation of the parts -/

/-- Settles O32: the one effect that writes CFG needs `cfg_loaded = 0`. -/
theorem configurationIsImmutable : Obligations.ConfigurationIsImmutable := by
  intro i s t hloaded h
  cases exec_effect h with
  | raised e => exact ⟨rfl, hloaded⟩
  | answered r ev => exact ⟨rfl, hloaded⟩
  | scratch hi r u hu => exact ⟨rfl, hloaded⟩
  | configured hi rec hrec =>
    obtain ⟨hfresh, -⟩ := configProblem_eq_none hrec
    exact absurd hfresh (by simp [hloaded])
  | deframer hi r ev d hd => exact ⟨rfl, hloaded⟩

/-- Settles O59: the effect on the scratch registers belongs to the units, the two on the pipeline to the other operations. -/
theorem unitsAndPipelineAreSeparate : Obligations.UnitsAndPipelineAreSeparate := by
  intro i s t h
  have he := exec_effect h
  split
  next hi =>
    have hunit := (Instr.ofUnit_iff i).mpr hi
    cases he with
    | raised e => exact ⟨rfl, rfl, rfl⟩
    | answered r ev => exact ⟨rfl, rfl, rfl⟩
    | scratch _ r u hu => exact ⟨rfl, rfl, rfl⟩
    | configured hnot rec hrec => exact absurd hunit (by simp [hnot])
    | deframer hnot r ev d hd => exact absurd hunit (by simp [hnot])
  next hi =>
    cases he with
    | raised e => rfl
    | answered r ev => rfl
    | scratch hunit r u hu => exact absurd ((Instr.ofUnit_iff i).mp hunit) hi
    | configured hnot rec hrec => rfl
    | deframer hnot r ev d hd => rfl

end Machine
end Sys2Proof

/-! Proofs for the family 20_memory.md: every step answers, a step runs the decoded instruction, and pushes depend only on the
concatenation of their bits. The last rests on two facts about a step rule: one that moves reads only bits the buffer holds, so bits
behind them change nothing; and under the invariant none raises an error, so a push runs until a step waits. -/

namespace Sys2Proof
namespace Machine
open Claims

/-! ### What a step makes of the port (20_memory.md R52, 60_exceptions.md R210) -/

/-- A request that its issuer may make runs the operation it decodes to. -/
theorem issueOperation_run {iss : Issuer} {op : Byte} {a : List Byte} {i : Instr} (s : State) (hd : decode op a = .instr i)
    (hiss : iss = .sequencer ∨ isInternalOp op = false) : issueOperation iss op a s = .run i s := by
  have hmay : ¬ (iss = .host ∧ isInternalOp op = true) := by
    rintro ⟨rfl, hint⟩
    simp [hint] at hiss
  simp [issueOperation, hmay, hd]

/-- Settles O51: the oldest request is taken from the port, and nothing is taken from an empty one. -/
theorem stepRunsTheDecodedInstruction : Obligations.StepRunsTheDecodedInstruction := by
  constructor
  · intro s iss op a rest i hport hd hiss
    have hissue : issue s = .run i { s with port := rest } := by
      simp only [issue, hport]
      exact issueOperation_run _ hd hiss
    simp only [step, hissue]
  · intro s hport
    have hissue : issue s = .idle := by simp only [issue, hport]
    simp only [step, hissue]

/-- Settles O56: an idle port, a reset and a refused request are answered at once, and every operation answers. -/
theorem everyStepAnswersANextState : Obligations.EveryStepAnswersANextState := by
  intro s
  unfold step
  obtain ⟨-, hi⟩ | ⟨rest, -, hi⟩ | ⟨iss, op, a, rest, -, hi⟩ := issue_cases s <;> rw [hi]
  · exact ⟨s, rfl⟩
  · exact ⟨_, rfl⟩
  · obtain ⟨e, -, ho⟩ | ⟨i, -, -, ho⟩ := issueOperation_cases iss op a { s with port := rest } <;> rw [ho]
    · exact ⟨_, rfl⟩
    · obtain ⟨t, -, ht⟩ := exec_answers i { s with port := rest }
      exact ⟨t, ht⟩

/-! ### More bits behind those in the buffer (20_memory.md R41) -/

/-- The deframer with the bits `q` behind those it holds. -/
def Deframer.feed (q : List Bit) (d : Deframer) : Deframer := { d with bitbuf := d.bitbuf ++ q }

section feed
variable {q : List Bit} {n : Nat} {d : Deframer}

/-- At the default capacity `BufAppend` is `feed`. -/
theorem bufAppend_params_eq_feed : bufAppend params.bitbufCap q d = .ok (d.feed q) := rfl

@[simp] theorem Deframer.feed_length : (d.feed q).length = d.length := rfl
@[simp] theorem Deframer.feed_decbuf : (d.feed q).decbuf = d.decbuf := rfl
@[simp] theorem Deframer.feed_pn9 : (d.feed q).pn9 = d.pn9 := rfl
@[simp] theorem Deframer.feed_vit : (d.feed q).vit = d.vit := rfl
@[simp] theorem Deframer.feed_fstate : (d.feed q).fstate = d.fstate := rfl
@[simp] theorem bufLen_feed : bufLen (d.feed q) = bufLen d + q.length := List.length_append

theorem Deframer.feed_append (q₁ q₂ : List Bit) : d.feed (q₁ ++ q₂) = (d.feed q₁).feed q₂ := by
  simp only [feed, List.append_assoc]

/-- Bits that the buffer holds are read alike with more bits behind them. -/
theorem bufPeek_feed (h : n ≤ bufLen d) : bufPeek n (d.feed q) = bufPeek n d := List.take_append_of_le_length h

theorem bufDrop_feed (h : n ≤ bufLen d) : bufDrop n (d.feed q) = (bufDrop n d).feed q := by
  simp only [bufDrop, Deframer.feed, List.drop_append_of_le_length h]

theorem bufLen_feed_not_lt (h : n ≤ bufLen d) : ¬ bufLen (d.feed q) < n := by
  rw [bufLen_feed]
  omega

end feed

/-! ### A rule that moves reads no further than the bits it has -/

section feedSteps
variable {cfg : Option Cfg} {d d' : Deframer} {ev : List Event} (q : List Bit)

theorem stepSeekingPreamble_feed (h : stepSeekingPreamble cfg d = .moved d' ev) :
    stepSeekingPreamble cfg (d.feed q) = .moved (d'.feed q) ev := by
  cases cfg with
  | none => cases h
  | some c =>
    have hbits : ¬ (bufLen d < preambleBits c ∨ bufLen d = 0) := fun hwait => by simp [stepSeekingPreamble, hwait] at h
    have hbits' : ¬ (bufLen (d.feed q) < preambleBits c ∨ bufLen (d.feed q) = 0) := by rw [bufLen_feed]; omega
    have hp : preambleBits c ≤ bufLen d := by omega
    have hpos : 1 ≤ bufLen d := by omega
    simp only [stepSeekingPreamble, hbits, hbits', if_false, bufPeek_feed hp, bufPeek_feed hpos, bufDrop_feed hp,
      bufDrop_feed hpos] at h ⊢
    split_ifs at h ⊢ <;> cases h <;> rfl

theorem stepSeekingSyncWord_feed (h : stepSeekingSyncWord cfg d = .moved d' ev) :
    stepSeekingSyncWord cfg (d.feed q) = .moved (d'.feed q) ev := by
  obtain ⟨-, hs⟩ | ⟨c, rfl, ⟨-, hs⟩ | ⟨hlen, heq, hs⟩ | ⟨hlen, hpos, hne, hs⟩⟩ := stepSeekingSyncWord_cases cfg d <;>
    rw [hs] at h <;> cases h
  · simp only [stepSeekingSyncWord, bufLen_feed_not_lt hlen, if_false, bufPeek_feed hlen, heq, if_true, bufDrop_feed hlen]
    rfl
  · simp only [stepSeekingSyncWord, bufLen_feed_not_lt hlen, if_false, bufPeek_feed hlen, hne, bufDrop_feed (hpos.trans_le hlen)]
    rfl

theorem stepAwaitingLength_feed (h : stepAwaitingLength cfg d = .moved d' ev) :
    stepAwaitingLength cfg (d.feed q) = .moved (d'.feed q) ev := by
  obtain ⟨-, hs⟩ | ⟨-, -, hs⟩ | ⟨c, hlen, rfl, hs⟩ := stepAwaitingLength_cases cfg d <;> rw [hs] at h <;> cases h
  simp only [stepAwaitingLength, bufLen_feed_not_lt hlen, if_false, bufPeek_feed hlen, bufDrop_feed hlen]
  cases c.whitenEn <;> rfl

theorem stepAwaitingLengthFEC_feed {p : Config.Params} (h : stepAwaitingLengthFEC p cfg d = .moved d' ev) :
    stepAwaitingLengthFEC p cfg (d.feed q) = .moved (d'.feed q) ev := by
  obtain ⟨-, hs⟩ | ⟨-, -, hs⟩ | ⟨c, x, v, hlen, rfl, -, hv, hs⟩ := stepAwaitingLengthFEC_cases p cfg d <;>
    rw [hs] at h <;> cases h
  simp only [stepAwaitingLengthFEC, bufLen_feed_not_lt hlen, if_false, bufPeek_feed hlen, hv, bufDrop_feed hlen]
  cases hw : c.whitenEn <;> simp [dewhiten, hw, whiten] <;> rfl

theorem stepAwaitingData_feed (h : stepAwaitingData cfg d = .moved d' ev) :
    stepAwaitingData cfg (d.feed q) = .moved (d'.feed q) ev := by
  obtain ⟨e, hs⟩ | ⟨len, hl, ⟨-, hs⟩ | ⟨c, body, r, ev', hlen, rfl, hdew, hj, hs⟩⟩ := stepAwaitingData_cases cfg d <;>
    rw [hs] at h <;> cases h
  simp only [stepAwaitingData, Deframer.feed_length, hl, bufLen_feed_not_lt hlen, if_false, bufPeek_feed hlen, Deframer.feed_pn9,
    hdew, bufDrop_feed hlen, validate, hj]
  rfl

theorem stepAwaitingDataFEC_feed {p : Config.Params} (h : stepAwaitingDataFEC p cfg d = .moved d' ev) :
    stepAwaitingDataFEC p cfg (d.feed q) = .moved (d'.feed q) ev := by
  obtain ⟨e, hs⟩ | ⟨len, hl, ⟨ev', hdone, hj, hs⟩ | ⟨-, -, hs⟩ | ⟨c, v, dec, v', bs, r, hmore, hlen, rfl, hv, hsend, hdew, hs⟩⟩ :=
    stepAwaitingDataFEC_cases p cfg d <;> rw [hs] at h <;> cases h
  · simp only [stepAwaitingDataFEC, Deframer.feed_length, hl, Deframer.feed_decbuf, hdone, if_true, validate, hj]
    rfl
  · simp only [stepAwaitingDataFEC, Deframer.feed_length, hl, Deframer.feed_decbuf, Nat.not_le.mpr hmore, if_false,
      bufLen_feed_not_lt hlen, Deframer.feed_vit, hv, bufPeek_feed hlen, hsend, Deframer.feed_pn9, hdew, bufDrop_feed hlen]
    rfl

/-- A step that moves makes the same move with more bits behind those in the buffer. -/
theorem dfrStep_feed {p : Config.Params} (h : dfrStep p cfg d = .moved d' ev) : dfrStep p cfg (d.feed q) = .moved (d'.feed q) ev := by
  cases hf : d.fstate <;> simp only [dfrStep, Deframer.feed_fstate, hf] at h ⊢
  case seekingPreamble => exact stepSeekingPreamble_feed q h
  case seekingSyncWord => exact stepSeekingSyncWord_feed q h
  case awaitingLength => exact stepAwaitingLength_feed q h
  case awaitingLengthFEC => exact stepAwaitingLengthFEC_feed q h
  case awaitingData => exact stepAwaitingData_feed q h
  case awaitingDataFEC => exact stepAwaitingDataFEC_feed q h

end feedSteps

/-! ### Under the invariant no rule raises an error (60_exceptions.md R214) -/

/-- A whitening register that is there when it is in use serves every dewhitening. -/
theorem exists_dewhiten_ok {c : Cfg} {r : Option (BitVec 9)} (bs : List Byte) (hr : r.isSome = c.whitenEn) :
    ∃ out, dewhiten c bs r = .ok out := by
  obtain ⟨-, hd⟩ | ⟨hw, rfl, -⟩ | ⟨k, -, -, hd⟩ := dewhiten_cases c bs r
  · exact ⟨_, hd⟩
  · rw [hw] at hr
    cases hr
  · exact ⟨_, hd⟩

theorem exists_judge_ok (c : Cfg) (len : Byte) (body : List Byte) : ∃ ev, judge (some c) len body = .ok ev := by
  unfold judge
  dsimp only
  split_ifs <;> exact ⟨_, rfl⟩

theorem validate_ne_raised (c : Cfg) (len : Byte) (body : List Byte) (d : Deframer) (e : Err) :
    validate (some c) len body d ≠ .raised e := by
  obtain ⟨ev, hev⟩ := exists_judge_ok c len body
  simp [validate, hev]

section noError
variable {c : Cfg} {d : Deframer} {e : Err}

theorem stepAwaitingData_ne_raised (hf : d.fstate = .awaitingData) (hok : d.Ok (some c)) :
    stepAwaitingData (some c) d ≠ .raised e := by
  obtain ⟨_, len, ⟨⟩, -, hl, -, -, hpn9, -⟩ := (Deframer.ok_awaitingData_iff hf).mp hok
  simp only [stepAwaitingData, hl]
  split_ifs with hlen
  · exact nofun
  · obtain ⟨out, hdew⟩ := exists_dewhiten_ok (pack (bufPeek (8 * len.toNat) d)) hpn9
    simp [hdew, validate_ne_raised]

theorem stepAwaitingDataFEC_ne_raised (hf : d.fstate = .awaitingDataFEC) (hok : d.Ok (some c)) :
    stepAwaitingDataFEC params (some c) d ≠ .raised e := by
  obtain ⟨_, len, v, ⟨⟩, -, hl, hvit, -, -, -, -, hpn9, -⟩ := (Deframer.ok_awaitingDataFEC_iff hf).mp hok
  simp only [stepAwaitingDataFEC, hl, hvit]
  split_ifs with hdone hlen
  · exact validate_ne_raised c len _ d e
  · exact nofun
  · have hchunk : (pack (bufPeek 32 d)).length = 4 := by
      rw [pack_length, bufPeek_length]
      omega
    obtain ⟨ys, -, hsend⟩ := vitSend_ok_of_length (p := params) (v := v) hchunk
    obtain ⟨out, hdew⟩ := exists_dewhiten_ok (vitSymbols params v ys).1 hpn9
    simp [hsend, hdew]

/-- With a configuration the four rules that read no register of a frame raise nothing, and the two that do find what they read. -/
theorem dfrStep_ne_raised (hok : d.Ok (some c)) : dfrStep params (some c) d ≠ .raised e := by
  cases hf : d.fstate <;> simp only [dfrStep, hf]
  case seekingPreamble =>
    obtain ⟨⟨⟩, -⟩ | ⟨_, -, ⟨-, hs⟩ | ⟨-, -, -, -, hs⟩ | ⟨-, -, -, hs⟩⟩ := stepSeekingPreamble_cases (some c) d <;> simp [hs]
  case seekingSyncWord =>
    obtain ⟨⟨⟩, -⟩ | ⟨_, -, ⟨-, hs⟩ | ⟨-, -, hs⟩ | ⟨-, -, -, hs⟩⟩ := stepSeekingSyncWord_cases (some c) d <;> simp [hs]
  case awaitingLength =>
    obtain ⟨-, hs⟩ | ⟨-, ⟨⟩, -⟩ | ⟨_, -, -, hs⟩ := stepAwaitingLength_cases (some c) d <;> simp [hs]
  case awaitingLengthFEC =>
    obtain ⟨-, hs⟩ | ⟨-, ⟨⟩, -⟩ | ⟨_, _, _, -, -, -, -, hs⟩ := stepAwaitingLengthFEC_cases params (some c) d <;> simp [hs]
  case awaitingData => exact stepAwaitingData_ne_raised hf hok
  case awaitingDataFEC => exact stepAwaitingDataFEC_ne_raised hf hok

end noError

/-! ### Runs of moves (46_deframer.md R172) -/

section moves
variable {cfg : Option Cfg} {d d' d₁ d₂ : Deframer} {ev ev₁ ev₂ : List Event}

theorem moves_trans (h₁ : Moves cfg d ev₁ d₁) (h₂ : Moves cfg d₁ ev₂ d₂) : Moves cfg d (ev₁ ++ ev₂) d₂ := by
  induction h₁ with
  | done => exact h₂
  | more hstep _ ih =>
    rw [List.append_assoc]
    exact .more hstep (ih h₂)

/-- A run of moves is the same run with more bits behind those in the buffer. -/
theorem moves_feed (q : List Bit) (h : Moves cfg d ev d') : Moves cfg (d.feed q) ev (d'.feed q) := by
  induction h with
  | done d => exact .done (d.feed q)
  | more hstep _ ih => exact .more (dfrStep_feed q hstep) ih

/-- A run of moves that ends in a waiting step is the only one: each step answers one outcome. -/
theorem moves_unique (h₁ : Moves cfg d ev₁ d₁) (hw₁ : dfrStep params cfg d₁ = .wait) (h₂ : Moves cfg d ev₂ d₂)
    (hw₂ : dfrStep params cfg d₂ = .wait) : d₁ = d₂ ∧ ev₁ = ev₂ := by
  induction h₁ generalizing ev₂ with
  | done =>
    cases h₂ with
    | done => exact ⟨rfl, rfl⟩
    | more hstep _ => cases hw₁.symm.trans hstep
  | more hstep₁ _ ih =>
    cases h₂ with
    | done => cases hw₂.symm.trans hstep₁
    | more hstep₂ hrest₂ =>
      cases hstep₁.symm.trans hstep₂
      obtain ⟨hd, hev⟩ := ih hw₁ hrest₂
      exact ⟨hd, congrArg _ hev⟩

/-- With more steps than the measure counts, the driver's loop ends because a step waits. -/
theorem runSteps_moves {c : Cfg} {n : Nat} (hok : d.Ok (some c)) (hn : stepMeasure d < n) (ev : List Event) :
    ∃ d' new, runSteps params (some c) n d ev = .ok (d', ev ++ new) ∧ Moves (some c) d new d' ∧
      dfrStep params (some c) d' = .wait := by
  induction n generalizing d ev with
  | zero => exact absurd hn (Nat.not_lt_zero _)
  | succ n ih =>
    cases hstep : dfrStep params (some c) d with
    | wait => exact ⟨d, [], by simp [runSteps, hstep], .done d, hstep⟩
    | moved d₁ ev₁ =>
      have hlt := dfrStep_decreases hstep
      obtain ⟨d', new, hrun, hmoves, hwait⟩ := ih (dfrStep_keeps_ok hok hstep) (by omega) (ev ++ ev₁)
      exact ⟨d', ev₁ ++ new, by simp [runSteps, hstep, hrun], .more hstep hmoves, hwait⟩
    | raised e => exact absurd hstep (dfrStep_ne_raised hok)

theorem runUntilWait_moves {c : Cfg} (hok : d.Ok (some c)) :
    ∃ d' ev, runUntilWait params (some c) d = .ok (d', ev) ∧ Moves (some c) d ev d' ∧ dfrStep params (some c) d' = .wait :=
  runSteps_moves hok (stepMeasure_lt_bound d) []

end moves

/-! ### DFR.PUSH (20_memory.md R54(a), 46_deframer.md R172) -/

theorem exec_dfrPush (q : List Byte) (s : State) : exec (.dfrPush q) s = execDfrPushWith params q s := rfl

/-- Under the invariant DFR.PUSH appends the bits and moves until a step waits. -/
theorem exec_dfrPush_moves {s : State} (q : List Bit) (hinv : s.Inv) (hf : s.fault = false) (hl : s.cfgLoaded = true) :
    ∃ d ev, exec (.dfrPush (samplesOf q)) s = .next (respond (.messages (delivered ev)) ev { s with dfr := d }) ∧
      Moves s.cfg (s.dfr.feed q) ev d ∧ dfrStep params s.cfg d = .wait := by
  obtain ⟨hloaded, -, hok, -⟩ := hinv
  obtain ⟨c, hc⟩ := Option.isSome_iff_exists.mp (hloaded.symm.trans hl)
  rw [hc] at hok ⊢
  have hfed : (s.dfr.feed q).Ok (some c) := (Deframer.ok_bitbuf_iff _).mpr hok
  obtain ⟨d, ev, hrun, hmoves, hwait⟩ := runUntilWait_moves hfed
  refine ⟨d, ev, ?_, hmoves, hwait⟩
  simp [exec_dfrPush, execDfrPushWith, -bufAppend_params, bufAppend_params_eq_feed, hf, hl, hc, hrun]

/-- Settles O35: the moves of the first push, made with the second push's bits already behind, and then the moves of the second
push are a run of the joined push, and the joined push has only one. -/
theorem chunkingOfPushesDoesNotMatter : Obligations.ChunkingOfPushesDoesNotMatter := by
  intro s q₁ q₂ hf hl hinv
  obtain ⟨d₁, ev₁, hpush₁, hmoves₁, -⟩ := exec_dfrPush_moves q₁ hinv hf hl
  have hinv₁ := (exec_effect hpush₁).keeps_inv hinv
  obtain ⟨d₂, ev₂, hpush₂, hmoves₂, hwait₂⟩ := exec_dfrPush_moves q₂ hinv₁ hf hl
  obtain ⟨d, ev, hpush, hmoves, hwait⟩ := exec_dfrPush_moves (q₁ ++ q₂) hinv hf hl
  have hjoined : Moves s.cfg (s.dfr.feed (q₁ ++ q₂)) (ev₁ ++ ev₂) d₂ := by
    rw [Deframer.feed_append]
    exact moves_trans (moves_feed q₂ hmoves₁) hmoves₂
  obtain ⟨rfl, rfl⟩ := moves_unique hjoined hwait₂ hmoves hwait
  exact ⟨_, _, _, _, _, hpush₁, rfl, hpush₂, rfl, hpush, by rw [respond_result, delivered_append], rfl, rfl⟩

end Machine
end Sys2Proof

/-! Proofs for the family 30_encoding.md: the decoder and the encoder, CRC.CALC by its component operations, and the two tables of R82
and R83. Each operand reader of the decoder accepts exactly the operand bytes that the encoder writes, which gives both directions of
decode and encode. -/

namespace Sys2Proof
namespace Machine
open Claims

/-! ### A 16-bit field of a configuration record (30_encoding.md R73) -/

section field
variable {n k : Nat} {a : List Byte}

theorem fieldAt_lt (a : List Byte) (k : Nat) : fieldAt a k < 65536 := by
  have hlow := (a.getD k 0#8).isLt
  have hhigh := (a.getD (k + 1) 0#8).isLt
  unfold fieldAt
  omega

/-- The bytes of a field that fits the port are read back as the field. -/
theorem fieldAt_fieldBytes_append (h : n < 65536) (a : List Byte) : fieldAt (fieldBytes n ++ a) 0 = n := by
  simp only [fieldAt, fieldBytes, List.cons_append, List.getD_cons_zero, List.getD_cons_succ, BitVec.toNat_ofNat]
  omega

theorem fieldAt_fieldBytes_append_add_two (n : Nat) (a : List Byte) (k : Nat) :
    fieldAt (fieldBytes n ++ a) (k + 2) = fieldAt a k := rfl

/-- A field holds two bytes, so the encoder's bytes of what is read at two bytes are these two. -/
theorem fieldBytes_fieldAt (h : k + 1 < a.length) : fieldBytes (fieldAt a k) = [a[k], a[k + 1]] := by
  have hlow := (a[k]).isLt
  have hhigh := (a[k + 1]).isLt
  have hk : fieldAt a k = a[k].toNat + 256 * a[k + 1].toNat := by
    simp [fieldAt, List.getElem?_eq_getElem h, List.getElem?_eq_getElem (show k < a.length by omega)]
  simp only [fieldBytes, hk, List.cons.injEq, and_true]
  constructor <;> apply BitVec.eq_of_toNat_eq <;> rw [BitVec.toNat_ofNat] <;> omega

theorem drop_eq_fieldBytes_append (h : k + 1 < a.length) : a.drop k = fieldBytes (fieldAt a k) ++ a.drop (k + 2) := by
  rw [fieldBytes_fieldAt h, List.drop_eq_getElem_cons (by omega), List.drop_eq_getElem_cons h]
  rfl

end field

/-! ### What each operand reader accepts -/

theorem CfgRecord.wf_iff (r : CfgRecord) :
    r.wf = true ↔ r.preambleLen < 65536 ∧ r.quality < 65536 ∧ r.sync0 < 65536 ∧ r.sync1 < 65536 ∧ r.syncRep < 65536 ∧
      r.flags < 65536 ∧ r.flagsMask < 65536 ∧ r.fecEn < 65536 ∧ r.whitenEn < 65536 := by
  simp [CfgRecord.wf, and_assoc]

theorem cfgOperand_cfgBytes {r : CfgRecord} (h : r.wf = true) : cfgOperand (cfgBytes r) = some r := by
  obtain ⟨hpre, hqual, hs0, hs1, hrep, hflags, hmask, hfec, hwhite⟩ := (CfgRecord.wf_iff r).mp h
  have hlen : (cfgBytes r).length = 18 := rfl
  have hlast : fieldBytes r.whitenEn = fieldBytes r.whitenEn ++ [] := (List.append_nil _).symm
  rw [cfgOperand, if_pos hlen, cfgBytes, hlast]
  simp only [List.append_assoc, fieldAt_fieldBytes_append_add_two, fieldAt_fieldBytes_append, hpre, hqual, hs0, hs1, hrep, hflags,
    hmask, hfec, hwhite]

theorem eq_cfgBytes_of_cfgOperand {a : List Byte} {r : CfgRecord} (h : cfgOperand a = some r) : a = cfgBytes r ∧ r.wf = true := by
  unfold cfgOperand at h
  split at h
  case isFalse => cases h
  case isTrue hlen =>
    cases h
    refine ⟨?_, by simp [CfgRecord.wf_iff, fieldAt_lt]⟩
    have hfield (k : Nat) (hk : k + 1 < 18) : a.drop k = fieldBytes (fieldAt a k) ++ a.drop (k + 2) :=
      drop_eq_fieldBytes_append (hlen ▸ hk)
    have hend : a.drop 18 = [] := List.drop_eq_nil_of_le hlen.le
    calc a = a.drop 0 := rfl
      _ = _ := by
        rw [hfield 0 (by omega), hfield 2 (by omega), hfield 4 (by omega), hfield 6 (by omega), hfield 8 (by omega),
          hfield 10 (by omega), hfield 12 (by omega), hfield 14 (by omega), hfield 16 (by omega), hend]
        simp only [cfgBytes, List.append_assoc, List.append_nil]

theorem cfgOperand_eq_some_iff {a : List Byte} {r : CfgRecord} : cfgOperand a = some r ↔ a = cfgBytes r ∧ r.wf = true :=
  ⟨eq_cfgBytes_of_cfgOperand, fun ⟨ha, hwf⟩ => ha ▸ cfgOperand_cfgBytes hwf⟩

theorem noOperand_eq_some_iff {a : List Byte} {x : Unit} : noOperand a = some x ↔ a = [] := by
  cases a <;> simp [noOperand]

theorem byteOperand_eq_some_iff {a : List Byte} {b : Byte} : byteOperand a = some b ↔ a = [b] := by
  match a with
  | [] => simp [byteOperand]
  | [x] => simp [byteOperand]
  | _ :: _ :: _ => simp [byteOperand]

theorem bitOperand_eq_some_iff {a : List Byte} {x : Bit} : bitOperand a = some x ↔ a = [if x then 1#8 else 0#8] := by
  match a with
  | [] => simp [bitOperand]
  | [b] =>
    simp only [bitOperand, List.cons.injEq, and_true]
    by_cases h0 : b = 0#8
    · cases x <;> simp [h0]
    · by_cases h1 : b = 1#8 <;> cases x <;> simp [h0, h1]
  | _ :: _ :: _ => simp [bitOperand]

theorem symbolOperand_eq_some_iff {a : List Byte} {y : Symbol} : symbolOperand a = some y ↔ a = [y.setWidth 8] := by
  match a with
  | [] => simp [symbolOperand]
  | [b] =>
    have hb : (if b.toNat < 4 then some (b.setWidth 2) else none) = some y ↔ b.toNat < 4 ∧ b.setWidth 2 = y := by
      split <;> simp [*]
    simp only [symbolOperand, hb, List.cons.injEq, and_true]
    bv_omega
  | _ :: _ :: _ => simp [symbolOperand]

theorem withOperand_eq_instr_iff {α : Type} {op : Byte} {a : Option α} {f : α → Instr} {i : Instr} :
    withOperand op a f = .instr i ↔ ∃ x, a = some x ∧ f x = i := by
  cases a <;> simp [withOperand]

/-! ### The decoder and the encoder -/

/-- Settles O53: the decoder's row for the operation's number reads the operand back. The rows whose operand bytes are empty, a plain
byte or the data itself do so by computation. -/
theorem decodeOfEncodeIsTheInstruction : Obligations.DecodeOfEncodeIsTheInstruction := by
  intro i hwf
  cases i with
  | cfgLoad r => exact (withOperand_eq_instr_iff (op := 0x00#8)).mpr ⟨r, cfgOperand_eq_some_iff.mpr ⟨rfl, hwf⟩, rfl⟩
  | cencBit x => exact (withOperand_eq_instr_iff (op := 0x41#8)).mpr ⟨x, bitOperand_eq_some_iff.mpr rfl, rfl⟩
  | vitSymbol y => exact (withOperand_eq_instr_iff (op := 0x51#8)).mpr ⟨y, symbolOperand_eq_some_iff.mpr rfl, rfl⟩
  | _ => rfl

/-- The row that answers an operation is the row of its number. -/
theorem opcode_of_decode {op : Byte} {a : List Byte} {i : Instr} (h : decode op a = .instr i) : op = opcode i := by
  apply BitVec.eq_of_toNat_eq
  unfold decode at h
  split at h <;> grind [withOperand_eq_instr_iff, opcode]

theorem eq_nil_of_noOperand {op : Byte} {a : List Byte} {i j : Instr} (h : withOperand op (noOperand a) (fun _ => j) = .instr i) :
    a = [] := by
  obtain ⟨_, ha, -⟩ := withOperand_eq_instr_iff.mp h
  exact noOperand_eq_some_iff.mp ha

/-- The row of an operation accepts the encoder's operand bytes only, and the record it reads fits the port. -/
theorem operandBytes_of_decode {a : List Byte} {i : Instr} (h : decode (opcode i) a = .instr i) :
    a = operandBytes i ∧ WellFormed i = true := by
  cases i with
  | cfgLoad r =>
    obtain ⟨_, ha, ⟨⟩⟩ := (withOperand_eq_instr_iff (op := 0x00#8)).mp h
    exact cfgOperand_eq_some_iff.mp ha
  | cencBit x =>
    obtain ⟨_, ha, ⟨⟩⟩ := (withOperand_eq_instr_iff (op := 0x41#8)).mp h
    exact ⟨bitOperand_eq_some_iff.mp ha, rfl⟩
  | vitSymbol y =>
    obtain ⟨_, ha, ⟨⟩⟩ := (withOperand_eq_instr_iff (op := 0x51#8)).mp h
    exact ⟨symbolOperand_eq_some_iff.mp ha, rfl⟩
  | pn9Whiten b | crcUpdate b | cencByte b =>
    obtain ⟨_, ha, ⟨⟩⟩ := (withOperand_eq_instr_iff (op := opcode _)).mp h
    exact ⟨byteOperand_eq_some_iff.mp ha, rfl⟩
  | crcCalc | crcVerify | ilvXform | fecEncode | vitSend | frmEncode | frmSerialize | dfrPush | dfrValidate =>
    cases h
    exact ⟨rfl, rfl⟩
  | _ => exact ⟨eq_nil_of_noOperand (op := opcode _) h, rfl⟩

/-- Settles O54: the operation fixes the row, and the row fixes the operand bytes. -/
theorem decodedRequestIsItsEncoding : Obligations.DecodedRequestIsItsEncoding := by
  intro op a i h
  obtain rfl := opcode_of_decode h
  obtain ⟨rfl, hwf⟩ := operandBytes_of_decode h
  exact ⟨rfl, hwf⟩

/-- Settles O55: each row is the decoding of its operation's encoding. -/
theorem operationNumbersDecodeAsListed : Obligations.OperationNumbersDecodeAsListed := by
  have hrow := decodeOfEncodeIsTheInstruction
  exact ⟨hrow (.cfgLoad ⟨4, 2047, 0xD3, 0x91, 2, 0x80, 0xC0, 0, 1⟩) rfl, hrow .pn9Seed rfl, hrow .pn9Next rfl,
    fun b => hrow (.pn9Whiten b) rfl, hrow .crcInit rfl, fun b => hrow (.crcUpdate b) rfl, fun a => hrow (.crcCalc a) rfl,
    fun a => hrow (.crcVerify a) rfl, fun a => hrow (.ilvXform a) rfl, hrow .cencSeed rfl, hrow (.cencBit false) rfl,
    hrow (.cencBit true) rfl, fun b => hrow (.cencByte b) rfl, fun a => hrow (.fecEncode a) rfl, hrow .vitStart rfl,
    fun y => hrow (.vitSymbol y) rfl, fun a => hrow (.vitSend a) rfl, fun a => hrow (.frmEncode a) rfl,
    fun a => hrow (.frmSerialize a) rfl, fun a => hrow (.dfrPush a) rfl, hrow .dfrReset rfl, fun a => hrow (.dfrValidate a) rfl,
    hrow .dfrStepSeekingPreamble rfl, hrow .dfrStepSeekingSyncWord rfl, hrow .dfrStepAwaitingLength rfl,
    hrow .dfrStepAwaitingLengthFEC rfl, hrow .dfrStepAwaitingData rfl, hrow .dfrStepAwaitingDataFEC rfl, rfl⟩

/-! ### CRC.CALC by its component operations (30_encoding.md R78, 41_crc16.md R104) -/

theorem execAll_cons {i : Instr} {is : List Instr} {s t : State} (h : exec i s = .next t) : execAll (i :: is) s = execAll is t := by
  simp only [execAll, h]

/-- The state after a checksum operation that leaves `c` in the register. -/
def State.withCrc (c : BitVec 16) (s : State) : State := respond .none [] { s with u := { s.u with crc := some c } }

section crc
variable {s : State} (hf : s.fault = false)
include hf

theorem exec_crcInit : exec .crcInit s = .next (s.withCrc crcInit) := guarded_running hf _

theorem exec_crcCalc (data : List Byte) : exec (.crcCalc data) s = .next (respond (.word (crc16 data)) [] s) := guarded_running hf _

theorem exec_crcUpdate_withCrc (c : BitVec 16) (b : Byte) :
    exec (.crcUpdate b) (s.withCrc c) = .next (s.withCrc (crcByte c b)) :=
  guarded_running (s := s.withCrc c) hf _

/-- CRC.UPDATE per byte folds the data into the register. -/
theorem execAll_crcUpdate (data : List Byte) (c : BitVec 16) :
    execAll (data.map .crcUpdate) (s.withCrc c) = .next (s.withCrc (data.foldl crcByte c)) := by
  induction data generalizing c with
  | nil => rfl
  | cons b data ih => rw [List.map_cons, execAll_cons (exec_crcUpdate_withCrc hf c b), ih, List.foldl_cons]

end crc

/-- Settles O10: both ways the checksum is the fold over the data from CRC.INIT's value. -/
theorem crcCalcIsInitThenUpdates : Obligations.CrcCalcIsInitThenUpdates := by
  intro s data hf
  refine ⟨crc16 data, ?_, exec_crcCalc hf data⟩
  rw [execAll_cons (exec_crcInit hf)]
  exact execAll_crcUpdate hf data crcInit

/-! ### The interleaver's permutation (R83) -/

/-- A position `4r + c` goes to `4c + r`. -/
theorem ilvPerm_get (k : Fin 16) : (params.ilvPerm.get k).val = 4 * (k.val % 4) + k.val / 4 := by
  revert k
  decide

/-- Settles O13: a transpose is its own inverse and fixes the diagonal. -/
theorem interleaverPermutationIsTranspose : Obligations.InterleaverPermutationIsTranspose := by
  refine ⟨fun r c => ?_, fun k => ?_, fun k => ?_⟩
  · rw [ilvPerm_get]
    dsimp only
    omega
  · apply Fin.ext
    rw [ilvPerm_get, ilvPerm_get]
    omega
  · rw [Fin.ext_iff, ilvPerm_get]
    omega

/-! ### The trellis tables (R82) -/

/-- The two generators of the default ENC_TABLE both read the oldest bit (R81). -/
theorem encTable_get_flip_oldest (k : BitVec 4) :
    params.encTable.get (k ^^^ 8#4).toFin = params.encTable.get k.toFin ^^^ 3#2 := by
  revert k
  decide

/-- The two sources of a state differ in the oldest bit, so their outputs are complements. -/
theorem trellisOut_true (d : Trellis) : trellisOut params d true = trellisOut params d false ^^^ 3#2 := by
  have hsrc : (trellisSrc d true).setWidth 4 <<< 1 ||| (BitVec.ofBool (trellisIn d)).setWidth 4 =
      ((trellisSrc d false).setWidth 4 <<< 1 ||| (BitVec.ofBool (trellisIn d)).setWidth 4) ^^^ 8#4 := by
    revert d
    decide
  rw [trellisOut, hsrc, encTable_get_flip_oldest, trellisOut]

/-- Settles O21: the eight rows are evaluated, the complement law follows from the generators. -/
theorem trellisTablesFollowTheEncoder : Obligations.TrellisTablesFollowTheEncoder := ⟨by decide, trellisOut_true⟩

end Machine
end Sys2Proof

/-! Proofs for the family 40_whitening.md: the bits of the whitening register after any number of steps, its period, and `Whiten` as
the xor with the bytes of successive PN9.NEXT. -/

namespace Sys2Proof
namespace Machine

/-! ### One step of the register (R92) -/

theorem pn9Step_getLsbD_eight (s : BitVec 9) : (pn9Step s).getLsbD 8 = pn9Feedback s := by
  simp [pn9Step]

theorem pn9Step_getLsbD_of_lt (s : BitVec 9) {i : Nat} (h : i < 8) : (pn9Step s).getLsbD i = s.getLsbD (i + 1) := by
  simp [pn9Step, h, Nat.add_comm 1 i]

/-- The bits that stay determine all but bit 0, and the feedback then determines bit 0. -/
theorem pn9Step_injective : Function.Injective pn9Step := by
  intro s t h
  have hhigh (i : Nat) (hi : i < 8) : s.getLsbD (i + 1) = t.getLsbD (i + 1) := by
    rw [← pn9Step_getLsbD_of_lt s hi, h, pn9Step_getLsbD_of_lt t hi]
  have hfb : pn9Feedback s = pn9Feedback t := by rw [← pn9Step_getLsbD_eight, h, pn9Step_getLsbD_eight]
  have hlow : s.getLsbD 0 = t.getLsbD 0 := by
    rwa [pn9Feedback, pn9Feedback, hhigh 4 (by omega), Bool.xor_right_inj] at hfb
  refine BitVec.eq_of_getLsbD_eq fun i hi => ?_
  cases i with
  | zero => exact hlow
  | succ i => exact hhigh i (by omega)

/-- Settles O1: injective on a finite type is bijective. -/
theorem pn9StepShiftsTowardBitZero : Obligations.Pn9StepShiftsTowardBitZero :=
  ⟨fun s => ⟨pn9Step_getLsbD_eight s, fun i => pn9Step_getLsbD_of_lt s i.isLt⟩, Finite.injective_iff_bijective.mp pn9Step_injective,
    by decide, fun n => pn9Advance_ne_zero n pn9Seed_ne_zero, by decide⟩

/-! ### Several steps of the register (R93) -/

theorem pn9Advance_succ (n : Nat) (s : BitVec 9) : pn9Advance (n + 1) s = pn9Step (pn9Advance n s) := pn9Advance_add n 1 s

/-- A bit that has come down `n` places from within the register. -/
theorem pn9Advance_getLsbD_of_le (s : BitVec 9) {n i : Nat} (h : i + n ≤ 8) : (pn9Advance n s).getLsbD i = s.getLsbD (i + n) := by
  induction n generalizing s with
  | zero => rfl
  | succ n ih => rw [pn9Advance, ih (pn9Step s) (by omega), pn9Step_getLsbD_of_lt s (by omega), Nat.add_assoc]

/-- The bit that entered after `n` steps has come down to bit `i` when `m = 8 - i` more steps are made. -/
theorem pn9Advance_getLsbD_of_entered (s : BitVec 9) (n : Nat) {m i : Nat} (h : i + m = 8) :
    (pn9Advance (n + 1 + m) s).getLsbD i = ((pn9Advance n s).getLsbD 5 ^^ (pn9Advance n s).getLsbD 0) := by
  rw [pn9Advance_add, pn9Advance_getLsbD_of_le _ h.le, h, pn9Advance_succ, pn9Step_getLsbD_eight, pn9Feedback]

/-- The first four feedback bits read bits the register held. -/
theorem pn9Advance_getLsbD_of_entered_early (s : BitVec 9) {n m i : Nat} (hn : n < 4) (h : i + m = 8) :
    (pn9Advance (n + 1 + m) s).getLsbD i = (s.getLsbD (n + 5) ^^ s.getLsbD n) := by
  rw [pn9Advance_getLsbD_of_entered s n h, pn9Advance_getLsbD_of_le s (by omega), pn9Advance_getLsbD_of_le s (by omega),
    Nat.add_comm 5, Nat.zero_add]

/-- The next four read, at bit 5, the feedback bit that entered three steps before. -/
theorem pn9Advance_getLsbD_of_entered_late (s : BitVec 9) {n m i : Nat} (hn : n < 4) (h : i + m = 8) :
    (pn9Advance (n + 4 + 1 + m) s).getLsbD i = (s.getLsbD (n + 5) ^^ s.getLsbD n ^^ s.getLsbD (n + 4)) := by
  have h5 : (pn9Advance (n + 4) s).getLsbD 5 = (s.getLsbD (n + 5) ^^ s.getLsbD n) :=
    pn9Advance_getLsbD_of_entered_early s (m := 3) hn rfl
  rw [pn9Advance_getLsbD_of_entered s (n + 4) h, h5, pn9Advance_getLsbD_of_le s (by omega), Nat.zero_add]

/-! ### The operations (R91, R93, R94) -/

theorem raise_of_fatal {e : Err} (h : isFatal e = true) (s : State) :
    raise e s = { s with fault := true, result := .error e, events := [] } := by
  simp [raise, h]

section operations
variable {s : State} (hf : s.fault = false)
include hf

theorem withPn9_some {r : BitVec 9} (hr : s.u.pn9 = some r) (k : BitVec 9 → Answer) : withPn9 s k = k r := by
  rw [withPn9, guarded_running hf, hr]

theorem withPn9_none (hr : s.u.pn9 = none) (k : BitVec 9 → Answer) :
    withPn9 s k = .next { s with fault := true, result := .error (.stateAbsent .uPn9), events := [] } := by
  rw [withPn9, guarded_running hf, hr, ← raise_of_fatal (isFatal_stateAbsent _)]

theorem exec_pn9Next {r : BitVec 9} (hr : s.u.pn9 = some r) :
    exec .pn9Next s = .next (respond (.byte (pn9Next r).1) [] { s with u := { s.u with pn9 := some (pn9Next r).2 } }) :=
  withPn9_some hf hr _

theorem exec_pn9Whiten (b : Byte) {r : BitVec 9} (hr : s.u.pn9 = some r) :
    exec (.pn9Whiten b) s =
      .next (respond (.byte (b ^^^ (pn9Next r).1)) [] { s with u := { s.u with pn9 := some (pn9Next r).2 } }) :=
  withPn9_some hf hr _

end operations

/-- Settles O2: the write does not read the register. -/
theorem pn9SeedWritesAllOnes : Obligations.Pn9SeedWritesAllOnes := fun _ hf => guarded_running hf _

/-- Settles O3: bit 0 was bit 8, bits 1 to 4 are the early feedback bits and bits 5 to 8 the late ones. -/
theorem pn9NextReturnsLowByteThenMoves : Obligations.Pn9NextReturnsLowByteThenMoves := by
  refine ⟨fun s r hf hr => ⟨pn9Advance 8 r, exec_pn9Next hf hr, rfl, pn9Advance_getLsbD_of_le r le_rfl, fun k => ?_, fun k => ?_⟩,
    fun s hf hr => withPn9_none hf hr _⟩
  · have hsteps : 8 = k.val + 1 + (7 - k.val) := by omega
    rw [hsteps]
    exact pn9Advance_getLsbD_of_entered_early r k.isLt (by omega)
  · have hsteps : 8 = k.val + 4 + 1 + (3 - k.val) := by omega
    rw [hsteps]
    exact pn9Advance_getLsbD_of_entered_late r k.isLt (by omega)

/-- Settles O4: both operations read the register through `withPn9` and move it by `pn9Next`. -/
theorem pn9WhitenXorsNextByte : Obligations.Pn9WhitenXorsNextByte :=
  ⟨fun _ b r hf hr => ⟨(pn9Next r).1, (pn9Next r).2, exec_pn9Next hf hr, exec_pn9Whiten hf b hr⟩,
    fun _ _ hf hr => withPn9_none hf hr _⟩

/-! ### `Whiten` (R95, R96) -/

/-- Byte `i` meets the byte of the generator that has moved `i` calls on. -/
theorem whiten_getElem?_of_getElem? {data : List Byte} {i : Nat} {b : Byte} (h : data[i]? = some b) (r : BitVec 9) :
    (whiten data r).1[i]? = some (b ^^^ (pn9Next ((fun x => (pn9Next x).2)^[i] r)).1) := by
  induction data generalizing i r with
  | nil => cases h
  | cons x data ih =>
    cases i with
    | zero => cases h; rfl
    | succ i => exact ih h (pn9Next r).2

theorem whiten_snd (data : List Byte) (r : BitVec 9) : (whiten data r).2 = (fun x => (pn9Next x).2)^[data.length] r := by
  induction data generalizing r with
  | nil => rfl
  | cons x data ih => exact ih (pn9Next r).2

/-- Settles O5: the three parts are inductions on the data. -/
theorem whitenUsesSuccessiveGeneratorBytes : Obligations.WhitenUsesSuccessiveGeneratorBytes := fun data r =>
  ⟨whiten_length data r, fun _ _ h => whiten_getElem?_of_getElem? h r, whiten_snd data r⟩

/-- Settles O6, by induction on the data: both passes meet the same generator byte, and `(b xor k) xor k = b`. -/
theorem whitenTwiceRestoresData : Obligations.WhitenTwiceRestoresData := by
  intro data r
  induction data generalizing r with
  | nil => rfl
  | cons b data ih => simp only [whiten, ih, BitVec.xor_assoc, BitVec.xor_self, BitVec.xor_zero]

/-! ### The period of the register (R96(c)) -/

theorem pn9Advance_eq_iterate (n : Nat) (s : BitVec 9) : pn9Advance n s = pn9Step^[n] s := by
  induction n generalizing s with
  | zero => rfl
  | succ n ih => exact ih (pn9Step s)

/-- The seed comes back after 511 steps, evaluated in two halves. -/
theorem isPeriodicPt_pn9Seed : Function.IsPeriodicPt pn9Step 511 pn9Seed := by
  have hfirst : pn9Advance 256 pn9Seed = 0x130#9 := by decide +kernel
  have hsecond : pn9Advance 255 0x130#9 = pn9Seed := by decide +kernel
  have hreturns : pn9Advance (256 + 255) pn9Seed = pn9Seed := by rw [pn9Advance_add, hfirst, hsecond]
  rwa [pn9Advance_eq_iterate] at hreturns

/-- The least period divides `511 = 7 * 73`, and neither 7 nor 73 steps bring the seed back. -/
theorem minimalPeriod_pn9Seed : Function.minimalPeriod pn9Step pn9Seed = 511 := by
  have hdvd := isPeriodicPt_pn9Seed.minimalPeriod_dvd
  have hne (n : Nat) (h : pn9Advance n pn9Seed ≠ pn9Seed) : ¬ Function.minimalPeriod pn9Step pn9Seed ∣ n := by
    rwa [← Function.isPeriodicPt_iff_minimalPeriod_dvd, Function.IsPeriodicPt, Function.IsFixedPt, ← pn9Advance_eq_iterate]
  have h7 := hne 7 (by decide)
  have h73 := hne 73 (by decide +kernel)
  generalize Function.minimalPeriod pn9Step pn9Seed = p at hdvd h7 h73
  have hdivisors : Nat.divisors 511 = {1, 7, 73, 511} := by simp only [Nat.divisors_ofNat]
  have hp : p = 1 ∨ p = 7 ∨ p = 73 ∨ p = 511 := by simpa [hdivisors] using Nat.mem_divisors.mpr ⟨hdvd, by decide⟩
  obtain rfl | rfl | rfl | rfl := hp
  · exact absurd (one_dvd 7) h7
  · exact absurd dvd_rfl h7
  · exact absurd dvd_rfl h73
  · rfl

/-- Settles O7: the bytes are evaluated, the period is the least one of the seed. -/
theorem generatorSequenceAndPeriod : Obligations.GeneratorSequenceAndPeriod := by
  refine ⟨by decide +kernel, ?_, fun n hpos hlt h => ?_⟩
  · rw [pn9Advance_eq_iterate]
    exact isPeriodicPt_pn9Seed
  · rw [pn9Advance_eq_iterate] at h
    exact Function.not_isPeriodicPt_of_pos_of_lt_minimalPeriod hpos.ne' (hlt.trans_eq minimalPeriod_pn9Seed.symm) h

end Machine
end Sys2Proof

/-! Proofs for the family 41_crc16.md: the single-bit step of the checksum, what CRC.UPDATE leaves in each case of the register, and
the two values that CRC.VERIFY compares. -/

namespace Sys2Proof
namespace Machine
open Claims

/-- Settles O8: the write does not read the register. -/
theorem crcInitWritesAllOnes : Obligations.CrcInitWritesAllOnes := fun _ hf => exec_crcInit hf

/-! ### CRC.UPDATE (R102, R103) -/

/-- A step without feedback adds the zero polynomial (R102). -/
theorem crcStep_eq_crcStepSpec (c : BitVec 16) (x : Bit) : crcStep c x = crcStepSpec c x := by
  rw [crcStep, crcStepSpec, crcPoly]
  split
  · rfl
  · exact BitVec.xor_zero.symm

/-- The fold over the bits of a byte is the loop of R103, with R102's step. -/
theorem crcByte_eq_foldl_crcStepSpec (c : BitVec 16) (b : Byte) : crcByte c b = (serByte b).foldl crcStepSpec c := by
  have hstep : crcStep = crcStepSpec := funext₂ crcStep_eq_crcStepSpec
  rw [crcByte, hstep]

section crcUpdate
variable {s : State} (hf : s.fault = false) (b : Byte)
include hf

theorem exec_crcUpdate_some {c : BitVec 16} (hc : s.u.crc = some c) :
    exec (.crcUpdate b) s = .next (s.withCrc (crcByte c b)) := by
  change execCrcUpdate b s = _
  rw [execCrcUpdate, guarded_running hf, hc, State.withCrc]

theorem exec_crcUpdate_none (hc : s.u.crc = none) : exec (.crcUpdate b) s = .next (raise (.stateAbsent .uCrc) s) := by
  change execCrcUpdate b s = _
  rw [execCrcUpdate, guarded_running hf, hc]

end crcUpdate

/-- Settles O9: `serByte` lists the bits from bit 7 down, so the eight nested steps are the fold over it. -/
theorem crcUpdateAppliesEightBits : Obligations.CrcUpdateAppliesEightBits := by
  refine ⟨fun s b c hf hc => ?_, fun s b hf hc => ?_⟩
  · rw [exec_crcUpdate_some hf b hc, crcByte_eq_foldl_crcStepSpec]
    rfl
  · rw [exec_crcUpdate_none hf b hc, raise_of_fatal (isFatal_stateAbsent _)]

/-! ### CRC.VERIFY (R105) -/

/-- Behind `data` the operand has its two trailing bytes, the low one first. -/
theorem crcPair_append (data : List Byte) (lo hi : Byte) : crcPair (data ++ [lo, hi]) = (crc16 data, hi ++ lo) := by
  simp [crcPair, crcOfBytes]

section crcVerify
variable {s : State} (hf : s.fault = false)
include hf

theorem exec_crcVerify_append (data : List Byte) (lo hi : Byte) :
    exec (.crcVerify (data ++ [lo, hi])) s =
      .next (if crc16 data = hi ++ lo then respond .ok [] s else raise (.crcError (crc16 data) (hi ++ lo)) s) := by
  have hlen : ¬ (data ++ [lo, hi]).length < 2 := by simp
  change execCrcVerify _ s = _
  rw [execCrcVerify, guarded_running hf, if_neg hlen, crcPair_append, apply_ite Host.Outcome.next]

theorem exec_crcVerify_short {f : List Byte} (hlen : f.length < 2) :
    exec (.crcVerify f) s = .next (raise (.operandType 0x23#8) s) := by
  change execCrcVerify f s = _
  rw [execCrcVerify, guarded_running hf, if_pos hlen]

end crcVerify

/-- Settles O11: CRCError is recoverable and an operand of another type is a refusal, so both leave the fault latch alone. -/
theorem crcVerifyComparesTrailingBytes : Obligations.CrcVerifyComparesTrailingBytes := by
  refine ⟨fun s data lo hi hf => ?_, fun s f hf hlen => ⟨.operandType 0x23#8, rfl, ?_⟩⟩
  · rw [exec_crcVerify_append hf]
    split
    · rfl
    · rw [raise_of_not_fatal (isFatal_crcError _ _)]
  · rw [exec_crcVerify_short hf hlen, raise_of_not_fatal (isFatal_operandType _)]

end Machine
end Sys2Proof

/-! Proofs for the family 42_interleaver.md: the symbols of a word that is put together from symbols, the pairs of its bytes, and the
transpose of a block, which read twice gives back every pair. -/

namespace Sys2Proof
namespace Machine
open Claims

/-! ### The symbols of a word (20_memory.md R49) -/

theorem wordOfSymbols_concat (ys : List Symbol) (y : Symbol) :
    wordOfSymbols (ys ++ [y]) = wordOfSymbols ys <<< 2 ||| y.setWidth 32 := by
  rw [wordOfSymbols, List.foldl_concat, wordOfSymbols]

section push
variable (w : BitVec 32) (y : Symbol)

/-- The symbol that is shifted in stands at the bottom. -/
theorem extractLsb'_zero_shiftLeft_or : (w <<< 2 ||| y.setWidth 32).extractLsb' 0 2 = y := by
  ext i hi
  simp [hi]
  omega

/-- The symbols above it were one place lower. -/
theorem extractLsb'_add_two_shiftLeft_or {n : Nat} (h : n + 4 ≤ 32) :
    (w <<< 2 ||| y.setWidth 32).extractLsb' (n + 2) 2 = w.extractLsb' n 2 := by
  ext i hi
  have habove : ¬ n + 2 + i < 2 := by omega
  have hlow : y.getLsbD (n + 2 + i) = false := y.getLsbD_of_ge _ (by omega)
  have hsub : n + 2 + i - 2 = n + i := by omega
  have hlt : n + 2 + i < 32 := by omega
  simp only [BitVec.getElem_extractLsb', BitVec.getLsbD_or, BitVec.getLsbD_shiftLeft, BitVec.getLsbD_setWidth, habove, hlow, hsub, hlt,
    decide_true, decide_false, Bool.not_false, Bool.true_and, Bool.and_false, Bool.or_false]

end push

/-- Up to sixteen symbols stand in the word in their order, the last at the bottom. -/
theorem extractLsb'_wordOfSymbols {ys : List Symbol} {k : Nat} (hlen : ys.length ≤ 16) (hk : k < ys.length) :
    (wordOfSymbols ys).extractLsb' (2 * (ys.length - 1 - k)) 2 = ys[k] := by
  induction ys using List.reverseRecOn with
  | nil => exact absurd hk (Nat.not_lt_zero k)
  | append_singleton ys y ih =>
    rw [List.length_append, List.length_singleton] at hlen hk
    rw [wordOfSymbols_concat, List.length_append, List.length_singleton, Nat.add_sub_cancel]
    obtain hk | rfl := Nat.lt_succ_iff_lt_or_eq.mp hk
    · have hpos : 2 * (ys.length - k) = 2 * (ys.length - 1 - k) + 2 := by omega
      rw [hpos, extractLsb'_add_two_shiftLeft_or _ _ (by omega), ih (by omega) hk, List.getElem_append_left hk]
    · rw [Nat.sub_self, List.getElem_concat_length rfl]
      exact extractLsb'_zero_shiftLeft_or _ y

/-- A word of sixteen symbols has them in their order, the first on top. -/
theorem symbolAt_wordOfSymbols {ys : List Symbol} {k : Nat} (hlen : ys.length = 16) (hk : k < ys.length) :
    symbolAt (wordOfSymbols ys) k = ys[k] := by
  have hpos : 30 - 2 * k = 2 * (ys.length - 1 - k) := by omega
  rw [symbolAt, hpos, extractLsb'_wordOfSymbols hlen.le hk]

/-! ### The bytes of a word and their pairs (20_memory.md R47, R49) -/

theorem bytesOfWord_wordOfBytes (b0 b1 b2 b3 : Byte) : bytesOfWord (wordOfBytes b0 b1 b2 b3) = [b0, b1, b2, b3] := by
  have h3 : (wordOfBytes b0 b1 b2 b3).extractLsb' 0 8 = b3 := BitVec.extractLsb'_append_eq_right
  have h2 : (wordOfBytes b0 b1 b2 b3).extractLsb' 8 8 = b2 :=
    (BitVec.extractLsb'_append_eq_of_le (by decide)).trans BitVec.extractLsb'_append_eq_right
  have h1 : (wordOfBytes b0 b1 b2 b3).extractLsb' 16 8 = b1 :=
    (BitVec.extractLsb'_append_eq_of_le (by decide)).trans
      ((BitVec.extractLsb'_append_eq_of_le (by decide)).trans BitVec.extractLsb'_append_eq_right)
  have h0 : (wordOfBytes b0 b1 b2 b3).extractLsb' 24 8 = b0 :=
    (BitVec.extractLsb'_append_eq_of_le (by decide)).trans
      ((BitVec.extractLsb'_append_eq_of_le (by decide)).trans BitVec.extractLsb'_append_eq_left)
  rw [bytesOfWord, h0, h1, h2, h3]

theorem bytesOfWord_getD (w : BitVec 32) (r : Fin 4) : (bytesOfWord w).getD r.val 0#8 = w.extractLsb' (24 - 8 * r.val) 8 := by
  fin_cases r <;> rfl

/-- A field of a field is a field of the whole. -/
theorem extractLsb'_extractLsb'_add {w : Nat} (x : BitVec w) (a : Nat) {n m k : Nat} (h : n + k ≤ m) :
    (x.extractLsb' a m).extractLsb' n k = x.extractLsb' (a + n) k := by
  ext i hi
  have hlt : n + i < m := by omega
  simp [hlt, Nat.add_assoc]

/-- Row `r` of the grid is byte `r`. -/
theorem pairOf_bytesOfWord (w : BitVec 32) (r c : Fin 4) :
    pairOf ((bytesOfWord w).getD r.val 0#8) c.val = symbolAt w (4 * r.val + c.val) := by
  have hpos : 24 - 8 * r.val + (6 - 2 * c.val) = 30 - 2 * (4 * r.val + c.val) := by omega
  rw [bytesOfWord_getD, pairOf, extractLsb'_extractLsb'_add _ _ (by omega), hpos, symbolAt]

/-- A byte is its four pairs. -/
theorem eq_of_pairOf_eq {a b : Byte} (h : ∀ c : Fin 4, pairOf a c.val = pairOf b c.val) : a = b := by
  refine BitVec.eq_of_getLsbD_eq fun i hi => ?_
  have hbit := congrArg (·.getLsbD (i % 2)) (h ⟨3 - i / 2, by omega⟩)
  have hpos : 6 - 2 * (3 - i / 2) + i % 2 = i := by omega
  have hmod : i % 2 < 2 := Nat.mod_lt i two_pos
  simpa only [pairOf, BitVec.getLsbD_extractLsb', hpos, hmod, decide_true, Bool.true_and] using hbit

/-! ### ILV.XFORM (R111, R112) -/

theorem symbolAt_interleaveWord (p : Config.Params) (w : BitVec 32) (k : Fin 16) :
    symbolAt (interleaveWord p w) k.val = symbolAt w (p.ilvPerm.get k).val := by
  rw [interleaveWord, symbolAt_wordOfSymbols (by simp) (by simp), List.getElem_map, Vector.getElem_toList, Vector.get_eq_getElem]

/-- The grid of the permuted block is the transposed grid. -/
theorem pairOf_interleaveWord (b0 b1 b2 b3 : Byte) (r c : Fin 4) :
    pairOf ((bytesOfWord (interleaveWord params (wordOfBytes b0 b1 b2 b3))).getD r.val 0#8) c.val =
      pairOf ([b0, b1, b2, b3].getD c.val 0#8) r.val := by
  have hperm : (params.ilvPerm.get ⟨4 * r.val + c.val, by omega⟩).val = 4 * c.val + r.val :=
    interleaverPermutationIsTranspose.1 r c
  rw [pairOf_bytesOfWord, symbolAt_interleaveWord params _ ⟨4 * r.val + c.val, by omega⟩, hperm, ← pairOf_bytesOfWord,
    bytesOfWord_wordOfBytes]

section ilvXform
variable {s : State} (hf : s.fault = false)
include hf

theorem exec_ilvXform_block (b0 b1 b2 b3 : Byte) :
    exec (.ilvXform [b0, b1, b2, b3]) s =
      .next (respond (.bytes (bytesOfWord (interleaveWord params (wordOfBytes b0 b1 b2 b3)))) [] s) :=
  guarded_running hf _

theorem exec_ilvXform_malformed {blk : List Byte} (hlen : blk.length ≠ 4) :
    exec (.ilvXform blk) s = .next (raise (.malformedInterleaveInput blk.length) s) := by
  obtain ⟨b0, b1, b2, b3, rfl, -⟩ | ⟨-, hilv⟩ := interleave_cases params blk
  · exact absurd rfl hlen
  · change execIlvXformWith params blk s = _
    rw [execIlvXformWith, guarded_running hf, hilv]

end ilvXform

/-- Settles O14: the permutation of O13, read on the pairs of the bytes. -/
theorem ilvXformTransposesPairs : Obligations.IlvXformTransposesPairs := by
  refine ⟨fun s b0 b1 b2 b3 hf => ?_, fun s blk hf hlen => ?_⟩
  · exact ⟨_, _, _, _, exec_ilvXform_block hf b0 b1 b2 b3, pairOf_interleaveWord b0 b1 b2 b3⟩
  · rw [exec_ilvXform_malformed hf hlen, raise_of_fatal (isFatal_malformed _)]

/-- Settles O15: by O14 pair `c` of byte `r` comes from pair `r` of byte `c`, which came from pair `c` of byte `r`. -/
theorem ilvXformIsItsOwnInverse : Obligations.IlvXformIsItsOwnInverse := by
  intro s blk hf hlen
  obtain ⟨b0, b1, b2, b3, rfl⟩ := List.length_eq_four.mp hlen
  obtain ⟨o0, o1, o2, o3, hexec, hpair⟩ := ilvXformTransposesPairs.1 s b0 b1 b2 b3 hf
  refine ⟨_, [o0, o1, o2, o3], hexec, rfl, rfl, ?_⟩
  obtain ⟨q0, q1, q2, q3, hback, hpair'⟩ := ilvXformTransposesPairs.1
    { s with result := .bytes [o0, o1, o2, o3], events := [] } o0 o1 o2 o3 hf
  have hbyte (r : Fin 4) : [q0, q1, q2, q3].getD r.val 0#8 = [b0, b1, b2, b3].getD r.val 0#8 :=
    eq_of_pairOf_eq fun c => (hpair' r c).trans (hpair c r)
  have hblk : [q0, q1, q2, q3] = [b0, b1, b2, b3] := by
    have h0 : q0 = b0 := hbyte 0
    have h1 : q1 = b1 := hbyte 1
    have h2 : q2 = b2 := hbyte 2
    have h3 : q3 = b3 := hbyte 3
    rw [h0, h1, h2, h3]
  rw [hback, hblk]

end Machine
end Sys2Proof

/-! Proofs for the family 43_conv_encoder.md: the bits of the encoder's state and of its symbols, the loaded register of R122 as a
simulation of the 3-bit state form of R123, the operations of FEC.ENCODE one by one, and the linearity over xor. -/

namespace Sys2Proof
namespace Machine
open Claims

/-! ### The three state bits (R121, R123) -/

/-- A state put on top of a zero byte is read back. -/
theorem extractLsb'_setWidth_shiftLeft_eight (v : BitVec 3) : (v.setWidth 11 <<< 8).extractLsb' 8 3 = v := by
  revert v
  decide

theorem encStart_state (p : Config.Params) : (encStart p).extractLsb' 8 3 = p.encSeed :=
  extractLsb'_setWidth_shiftLeft_eight p.encSeed

theorem encBit_state (p : Config.Params) (enc : BitVec 11) (x : Bit) :
    (encBit p enc x).2.extractLsb' 8 3 = (encIndex enc x).extractLsb' 0 3 :=
  extractLsb'_setWidth_shiftLeft_eight _

theorem encIndex_getLsbD_zero (enc : BitVec 11) (x : Bit) : (encIndex enc x).getLsbD 0 = x := by
  simp [encIndex]

/-- Above the input bit stand the state bits, each one place up. -/
theorem encIndex_getLsbD_succ (enc : BitVec 11) (x : Bit) {i : Nat} (h : i < 3) :
    (encIndex enc x).getLsbD (i + 1) = enc.getLsbD (i + 8) := by
  have hlt : i + 1 < 4 := by omega
  simp [encIndex, h, hlt, Nat.add_comm]

/-- The new state is the table index without its top bit. -/
theorem encBit_getLsbD (p : Config.Params) (enc : BitVec 11) (x : Bit) {i : Nat} (h : i < 3) :
    (encBit p enc x).2.getLsbD (i + 8) = (encIndex enc x).getLsbD i := by
  have hbit := congrArg (·.getLsbD i) (encBit_state p enc x)
  simpa [h, Nat.add_comm] using hbit

/-- The two generators of the default ENC_TABLE (30_encoding.md R81). -/
theorem encTable_get_generators (k : BitVec 4) :
    (params.encTable.get k.toFin).getLsbD 1 = (k.getLsbD 0 ^^ k.getLsbD 2 ^^ k.getLsbD 3) ∧
      (params.encTable.get k.toFin).getLsbD 0 = (k.getLsbD 0 ^^ k.getLsbD 1 ^^ k.getLsbD 2 ^^ k.getLsbD 3) := by
  revert k
  decide

/-! ### The operations on the register (R121, R123, R124) -/

section operations
variable {s : State} (hf : s.fault = false)
include hf

theorem exec_cencSeed :
    exec .cencSeed s = .next (respond .none [] { s with u := { s.u with enc := some (encStart params) } }) := guarded_running hf _

theorem withEnc_some {r : BitVec 11} (hr : s.u.enc = some r) (k : BitVec 11 → Answer) : withEnc s k = k r := by
  rw [withEnc, guarded_running hf, hr]

theorem withEnc_none (hr : s.u.enc = none) (k : BitVec 11 → Answer) :
    withEnc s k = .next { s with fault := true, result := .error (.stateAbsent .uEnc), events := [] } := by
  rw [withEnc, guarded_running hf, hr, ← raise_of_fatal (isFatal_stateAbsent _)]

theorem exec_cencBit (x : Bit) {r : BitVec 11} (hr : s.u.enc = some r) :
    exec (.cencBit x) s = .next (respond (.symbol (encBit params r x).1) []
      { s with u := { s.u with enc := some (encBit params r x).2 } }) :=
  withEnc_some hf hr _

theorem exec_cencByte (b : Byte) {r : BitVec 11} (hr : s.u.enc = some r) :
    exec (.cencByte b) s = .next (respond (.bytes (encByte params r b).1) []
      { s with u := { s.u with enc := some (encByte params r b).2 } }) :=
  withEnc_some hf hr _

end operations

/-- Settles O16: the seed stands above a zero byte. -/
theorem cencSeedLoadsStateBits : Obligations.CencSeedLoadsStateBits := fun _ hf =>
  ⟨encStart params, exec_cencSeed hf, encStart_state params, encStart_low⟩

/-- Settles O17: bit 0 of the table index is the input bit, bits 1 to 3 are the state. -/
theorem cencBitFollowsGenerators : Obligations.CencBitFollowsGenerators := by
  refine ⟨fun s x enc hf hr => ?_, fun s x hf hr => withEnc_none hf hr _⟩
  obtain ⟨hone, hzero⟩ := encTable_get_generators (encIndex enc x)
  have h0 := encIndex_getLsbD_zero enc x
  have h1 := encIndex_getLsbD_succ enc x (i := 0) (by decide)
  have h2 := encIndex_getLsbD_succ enc x (i := 1) (by decide)
  have h3 := encIndex_getLsbD_succ enc x (i := 2) (by decide)
  rw [h0, h2, h3] at hone
  rw [h0, h1, h2, h3] at hzero
  exact ⟨_, _, exec_cencBit hf x hr, hone, hzero, (encBit_getLsbD params enc x (by decide)).trans h0,
    (encBit_getLsbD params enc x (by decide)).trans h1, (encBit_getLsbD params enc x (by decide)).trans h2,
    encBit_low params enc x⟩

/-! ### CENC.BYTE symbol by symbol (R124) -/

/-- The symbols CENC.BIT answers for each bit in order. -/
def encSymbols (p : Config.Params) : List Bit → BitVec 11 → List Symbol
  | [], _ => []
  | x :: xs, enc => (encBit p enc x).1 :: encSymbols p xs (encBit p enc x).2

@[simp] theorem encSymbols_length (p : Config.Params) (xs : List Bit) (enc : BitVec 11) : (encSymbols p xs enc).length = xs.length := by
  induction xs generalizing enc with
  | nil => rfl
  | cons x xs ih => exact congrArg (· + 1) (ih _)

/-- The register CENC.BIT leaves after each bit in order. -/
def encRun (p : Config.Params) (xs : List Bit) (enc : BitVec 11) : BitVec 11 := xs.foldl (fun r x => (encBit p r x).2) enc

/-- The 16-bit value collects the symbols as a word of symbols does. -/
theorem encBits_eq_wordOfSymbols (p : Config.Params) (xs : List Bit) (ys : List Symbol) (enc : BitVec 11) :
    encBits p xs ((wordOfSymbols ys).setWidth 16) enc =
      ((wordOfSymbols (ys ++ encSymbols p xs enc)).setWidth 16, encRun p xs enc) := by
  induction xs generalizing ys enc with
  | nil => rw [encSymbols, List.append_nil]; rfl
  | cons x xs ih =>
    have hpush (y : Symbol) :
        (wordOfSymbols ys).setWidth 16 <<< 2 ||| y.setWidth 16 = (wordOfSymbols (ys ++ [y])).setWidth 16 := by
      rw [wordOfSymbols_concat, BitVec.setWidth_or, BitVec.setWidth_setWidth_of_le _ (by decide),
        BitVec.setWidth_shiftLeft_of_le (by decide)]
    rw [encBits, hpush, ih, List.append_assoc]
    rfl

/-- The pairs of the two bytes of a word's low half. -/
theorem pairsOf_append_pairsOf_halves (w : BitVec 32) :
    pairsOf ((w.setWidth 16).extractLsb' 8 8) ++ pairsOf ((w.setWidth 16).extractLsb' 0 8) =
      (List.range 8).map fun k => w.extractLsb' (14 - 2 * k) 2 := by
  have hpair (a k : Nat) (ha : a ≤ 8) :
      pairOf ((w.setWidth 16).extractLsb' a 8) k = w.extractLsb' (a + (6 - 2 * k)) 2 := by
    rw [pairOf, extractLsb'_extractLsb'_add _ _ (by omega), BitVec.extractLsb'_setWidth_of_le (by omega)]
  simp only [pairsOf, hpair 8 _ le_rfl, hpair 0 _ (Nat.zero_le 8)]
  rfl

/-- Eight symbols, put in a word and sent as two bytes, are the pairs of these bytes. -/
theorem pairsOf_append_pairsOf_wordOfSymbols {ys : List Symbol} (h : ys.length = 8) :
    pairsOf (((wordOfSymbols ys).setWidth 16).extractLsb' 8 8) ++ pairsOf (((wordOfSymbols ys).setWidth 16).extractLsb' 0 8) = ys := by
  rw [pairsOf_append_pairsOf_halves]
  refine List.ext_getElem (by simp [h]) fun k _ hk => ?_
  have hpos : 14 - 2 * k = 2 * (ys.length - 1 - k) := by omega
  rw [List.getElem_map, List.getElem_range, hpos, extractLsb'_wordOfSymbols (by omega) hk]

/-- The two bytes of CENC.BYTE carry the eight symbols in their pairs. -/
theorem exists_encByte_eq (p : Config.Params) (enc : BitVec 11) (b : Byte) :
    ∃ h l : Byte, encByte p enc b = ([h, l], encRun p (serByte b) enc) ∧ pairsOf h ++ pairsOf l = encSymbols p (serByte b) enc := by
  have hbits : encBits p (serByte b) 0#16 enc =
      ((wordOfSymbols (encSymbols p (serByte b) enc)).setWidth 16, encRun p (serByte b) enc) :=
    encBits_eq_wordOfSymbols p (serByte b) [] enc
  refine ⟨_, _, ?_, pairsOf_append_pairsOf_wordOfSymbols (encSymbols_length p (serByte b) enc)⟩
  rw [encByte, hbits]

/-! ### The load-then-shift procedure (R122) -/

/-- The register `r` of R122 stands for the state of `enc` with the bits `xs` still to come: the state on top, under it the bits,
under them zeros. -/
structure Loaded (r enc : BitVec 11) (xs : List Bit) : Prop where
  length_le : xs.length ≤ 8
  state (i : Nat) (h : i < 3) : r.getLsbD (i + 8) = enc.getLsbD (i + 8)
  bits (i : Nat) (h : i < 8) : r.getLsbD (7 - i) = xs.getD i false

section loaded
variable {r enc : BitVec 11}

/-- The loaded register: the byte below, the state bits above it. -/
theorem getLsbD_and_stateMask_or_setWidth (enc : BitVec 11) (b : Byte) {i : Nat} (h : i < 11) :
    ((enc &&& 0x700#11) ||| b.setWidth 11).getLsbD i = if i < 8 then b.getLsbD i else enc.getLsbD i := by
  have hmask : (0x700#11).getLsbD i = decide (8 ≤ i) := by interval_cases i <;> rfl
  rw [BitVec.getLsbD_or, BitVec.getLsbD_and, hmask, BitVec.getLsbD_setWidth, decide_eq_true h, Bool.true_and]
  split
  next hlow => simp [Nat.not_le.mpr hlow]
  next hhigh => simp [Nat.not_lt.mp hhigh]

/-- R122's load of a byte. -/
theorem loaded_serByte (enc : BitVec 11) (b : Byte) : Loaded ((enc &&& 0x700#11) ||| b.setWidth 11) enc (serByte b) := by
  refine ⟨le_rfl, fun i h => ?_, fun i h => ?_⟩
  · rw [getLsbD_and_stateMask_or_setWidth enc b (by omega), if_neg (by omega)]
  · rw [getLsbD_and_stateMask_or_setWidth enc b (by omega), if_pos (by omega)]
    interval_cases i <;> rfl

/-- The top 4 bits are the state and the next bit, which is the table index of R123. -/
theorem Loaded.extractLsb'_eq_encIndex {x : Bit} {xs : List Bit} (h : Loaded r enc (x :: xs)) :
    r.extractLsb' 7 4 = encIndex enc x := by
  refine BitVec.eq_of_getLsbD_eq fun i hi => ?_
  rw [BitVec.getLsbD_extractLsb', decide_eq_true hi, Bool.true_and]
  cases i with
  | zero => rw [encIndex_getLsbD_zero]; exact h.bits 0 (by decide)
  | succ i =>
    have hpos : 7 + (i + 1) = i + 8 := by omega
    rw [encIndex_getLsbD_succ _ _ (by omega), hpos, h.state i (by omega)]

/-- The move to the left takes the next bit into the state. -/
theorem Loaded.shiftLeft {x : Bit} {xs : List Bit} (p : Config.Params) (h : Loaded r enc (x :: xs)) :
    Loaded (r <<< 1) (encBit p enc x).2 xs := by
  have hlen := h.length_le
  rw [List.length_cons] at hlen
  have hshift (i : Nat) (hi : i < 10) : (r <<< 1).getLsbD (i + 1) = r.getLsbD i := by
      have hlt : i + 1 < 11 := by omega
      rw [BitVec.getLsbD_shiftLeft, Nat.add_sub_cancel]
      simp [hlt]
  refine ⟨by omega, fun i hi => ?_, fun i hi => ?_⟩
  · have hlt : i < 4 := by omega
    have hindex := congrArg (·.getLsbD i) h.extractLsb'_eq_encIndex
    simp only [BitVec.getLsbD_extractLsb', hlt, decide_true, Bool.true_and] at hindex
    rw [encBit_getLsbD p enc x hi, ← hindex, hshift _ (by omega), Nat.add_comm]
  · obtain hi | rfl : i < 7 ∨ i = 7 := by omega
    · have hpos : 7 - i = 7 - (i + 1) + 1 := by omega
      rw [hpos, hshift _ (by omega), h.bits (i + 1) (by omega), List.getD_cons_succ]
    · rw [List.getD_eq_default _ _ (by omega)]
      simp

/-- With no bit left the register is the encoder's own, whose low byte is 0 between bits. -/
theorem Loaded.eq_of_nil (h : Loaded r enc []) (hlow : enc.extractLsb' 0 8 = 0#8) : r = enc := by
  refine BitVec.eq_of_getLsbD_eq fun i hi => ?_
  by_cases hi8 : i < 8
  · have hr := h.bits (7 - i) (by omega)
    have hpos : 7 - (7 - i) = i := by omega
    have henc := congrArg (·.getLsbD i) hlow
    rw [hpos, List.getD_nil] at hr
    simp only [BitVec.getLsbD_extractLsb', hi8, decide_true, Bool.true_and, Nat.zero_add, BitVec.getLsbD_zero] at henc
    rw [hr, henc]
  · have hpos : i = i - 8 + 8 := by omega
    rw [hpos, h.state (i - 8) (by omega)]

/-- As many turns as bits are loaded answer the symbols of CENC.BIT for these bits, and leave the register it leaves. -/
theorem Loaded.iterate_registerTurn {xs : List Bit} (h : Loaded r enc xs) (ys : List Symbol) :
    registerTurn^[xs.length] (ys, r) = (ys ++ encSymbols params xs enc, r <<< xs.length) ∧
      Loaded (r <<< xs.length) (encRun params xs enc) [] := by
  induction xs generalizing ys r enc with
  | nil => exact ⟨by simp [encSymbols], by simpa [encRun] using h⟩
  | cons x xs ih =>
    have hturn : registerTurn (ys, r) = (ys ++ [(encBit params enc x).1], r <<< 1) := by
      rw [registerTurn, h.extractLsb'_eq_encIndex, encBit]
    obtain ⟨hiter, hleft⟩ := ih (h.shiftLeft params) (ys ++ [(encBit params enc x).1])
    rw [← BitVec.shiftLeft_add, Nat.add_comm 1] at hiter hleft
    refine ⟨?_, hleft⟩
    rw [List.length_cons, Function.iterate_succ_apply, hturn, hiter, List.append_assoc]
    rfl

end loaded

/-- The three bits last loaded are the state after the byte (R124). -/
theorem extractLsb'_load_shiftLeft_eight (enc : BitVec 11) (b : Byte) :
    (((enc &&& 0x700#11) ||| b.setWidth 11) <<< 8).extractLsb' 8 3 = b.extractLsb' 0 3 := by
  refine BitVec.eq_of_getLsbD_eq fun i hi => ?_
  have h11 : 8 + i < 11 := by omega
  have hload := getLsbD_and_stateMask_or_setWidth enc b (i := i) (by omega)
  rw [if_pos (by omega)] at hload
  rw [BitVec.getLsbD_extractLsb', BitVec.getLsbD_extractLsb', BitVec.getLsbD_shiftLeft, Nat.add_sub_cancel_left, hload]
  simp [h11]

/-- The procedure of R122 answers the symbols of CENC.BIT for the bits of the byte and leaves the register that CENC.BIT leaves. -/
theorem registerProcedure_eq (enc : BitVec 11) (b : Byte) :
    registerProcedure enc b = (encSymbols params (serByte b) enc, encRun params (serByte b) enc) ∧
      (encRun params (serByte b) enc).extractLsb' 8 3 = b.extractLsb' 0 3 := by
  obtain ⟨hiter, hleft⟩ := (loaded_serByte enc b).iterate_registerTurn []
  have hreg := hleft.eq_of_nil (encByte_low params enc b)
  rw [hreg] at hiter
  exact ⟨hiter, hreg ▸ extractLsb'_load_shiftLeft_eight enc b⟩

/-- Settles O18: the loaded register simulates the state form bit by bit, and both put the symbols in the pairs of two bytes. -/
theorem cencByteIsTheRegisterProcedure : Obligations.CencByteIsTheRegisterProcedure := by
  refine ⟨fun s b enc hf hr => ?_, fun s b hf hr => withEnc_none hf hr _⟩
  obtain ⟨h, l, hbyte, hpairs⟩ := exists_encByte_eq params enc b
  obtain ⟨hproc, hstate⟩ := registerProcedure_eq enc b
  refine ⟨h, l, encRun params (serByte b) enc, ?_, by rw [hproc, hpairs], hstate⟩
  rw [exec_cencByte hf b hr, hbyte]
  rfl

/-! ### FEC.ENCODE by its component operations (R127 to R130, 30_encoding.md R78) -/

/-- CENC.BYTE per byte, the answers put together, is the encoder's output. -/
theorem collectBytes_cencByte (bs : List Byte) {s : State} {enc : BitVec 11} (hf : s.fault = false) (hr : s.u.enc = some enc) :
    collectBytes (bs.map .cencByte) s = some (encBytes params bs enc) := by
  induction bs generalizing s enc with
  | nil => rfl
  | cons b bs ih =>
    simp only [List.map_cons, collectBytes, exec_cencByte hf b hr, respond_result]
    rw [ih (s := respond _ [] { s with u := { s.u with enc := some (encByte params enc b).2 } }) hf rfl]
    rfl

/-- What R128 puts behind the encoder output of `m` bytes and the terminator. -/
def padding (m : Nat) : List Byte := if m % 2 = 1 then [0#8, 0#8] else []

/-- A sequence of even length gets `00 00` behind a two-byte remainder, and no other remainder arises (R128, R130). -/
theorem padBlocks_of_even {e : List Byte} {m : Nat} (h : e.length = 2 * (m + 2)) :
    padBlocks e = .ok (e ++ padding m) := by
  by_cases hm : m % 2 = 1
  · have hrem : e.length % 4 = 2 := by omega
    rw [padBlocks, if_pos hrem, padding, if_pos hm]
  · have hrem : e.length % 4 = 0 := by omega
    simp [padBlocks, padding, hrem, hm]

/-- Padded, the sequence is whole blocks of four. -/
theorem length_padded {e : List Byte} {m : Nat} (h : e.length = 2 * (m + 2)) :
    (e ++ padding m).length = 4 * ((m + 3) / 2) := by
  rw [List.length_append, h, padding]
  split
  · rw [List.length_cons, List.length_singleton]
    omega
  · rw [List.length_nil]
    omega

/-- A slice of what stands behind the first block is a slice of the whole, one block on. -/
theorem slice_drop_four {α : Type} (l : List α) (k : Nat) :
    slice (l.drop 4) (4 * k) (4 * k + 4) = slice l (4 * (k + 1)) (4 * (k + 1) + 4) := by
  have htake : 4 * (k + 1) + 4 = 4 + (4 * k + 4) := by omega
  have hdrop : 4 * (k + 1) = 4 + 4 * k := by omega
  rw [slice, slice, htake, hdrop, List.take_drop, List.drop_drop]

/-- Each block of the output is ILV.XFORM of the same block of the input (R129). -/
theorem interleave_slice_of_interleaveBlocks {p : Config.Params} {n : Nat} {e out : List Byte} (h : interleaveBlocks p n e = .ok out)
    {k : Nat} (hk : k < n) : interleave p (slice e (4 * k) (4 * k + 4)) = .ok (slice out (4 * k) (4 * k + 4)) := by
  induction n generalizing e out k with
  | zero => exact absurd hk (Nat.not_lt_zero k)
  | succ n ih =>
    rw [interleaveBlocks] at h
    split at h
    · cases h
    next t ht =>
      split at h
      · cases h
      next rest hrest =>
        cases h
        have hlen : t.length = 4 := by
          obtain ⟨b0, b1, b2, b3, -, hilv⟩ | ⟨-, hilv⟩ := interleave_cases p (e.take 4) <;> rw [ht] at hilv <;> cases hilv
          rfl
        cases k with
        | zero =>
          simp only [slice, Nat.mul_zero, Nat.zero_add, List.drop_zero, List.take_left' hlen]
          exact ht
        | succ k =>
          rw [← slice_drop_four, ← slice_drop_four, List.drop_left' hlen]
          exact ih hrest (Nat.lt_of_succ_lt_succ hk)

section fec
variable {s : State} (hf : s.fault = false)
include hf

theorem exec_ilvXform_of_interleave {blk t : List Byte} (h : interleave params blk = .ok t) :
    exec (.ilvXform blk) s = .next (respond (.bytes t) [] s) := by
  change execIlvXformWith params blk s = _
  rw [execIlvXformWith, guarded_running hf, h]

theorem exec_fecEncode_of_fecEncode {data out : List Byte} (h : fecEncode params data = .ok out) :
    exec (.fecEncode data) s = .next (respond (.bytes out) [] s) := by
  change execFecEncodeWith params data s = _
  rw [execFecEncodeWith, guarded_running hf, h]

end fec

/-- The encoder output before padding and interleaving (R127). -/
def encodedData (p : Config.Params) (data : List Byte) : List Byte := encBytes p (data ++ terminator) (encStart p)

theorem encodedData_length (p : Config.Params) (data : List Byte) : (encodedData p data).length = 2 * (data.length + 2) := by
  rw [encodedData, encBytes_length, List.length_append, terminator, List.length_cons, List.length_singleton]

theorem encodedData_padded_length (p : Config.Params) (data : List Byte) :
    (encodedData p data ++ padding data.length).length = 4 * ((data.length + 3) / 2) :=
  length_padded (encodedData_length p data)

/-- FEC.ENCODE interleaves the padded encoder output, and no error arises (R127 to R130). -/
theorem exists_fecEncode_eq_ok (p : Config.Params) (data : List Byte) :
    ∃ out, fecEncode p data = .ok out ∧ out.length = 4 * ((data.length + 3) / 2) ∧
      interleaveBlocks p ((data.length + 3) / 2) (encodedData p data ++ padding data.length) = .ok out := by
  have hlen := encodedData_padded_length p data
  obtain ⟨out, hblocks, hout⟩ := interleaveBlocks_ok p _ _ hlen
  refine ⟨out, ?_, hout, hblocks⟩
  have hpad := padBlocks_of_even (encodedData_length p data)
  rw [encodedData] at hpad hlen hblocks
  simp only [fecEncode, hpad, hlen, Nat.mul_div_cancel_left _ four_pos, hblocks]

/-- Settles O19: the operations FEC.ENCODE is made of, each as it runs on its own. -/
theorem fecEncodePadsAndInterleaves : Obligations.FecEncodePadsAndInterleaves := by
  intro s data hf
  obtain ⟨out, hfec, hout, hblocks⟩ := exists_fecEncode_eq_ok params data
  refine ⟨_, out, encodedData params data, _, exec_fecEncode_of_fecEncode hf hfec, exec_cencSeed hf,
    collectBytes_cencByte _ hf rfl, encodedData_length params data, rfl,
    (encodedData_padded_length params data).trans hout.symm, hout, fun k hk => ?_⟩
  rw [hout, Nat.mul_div_cancel_left _ four_pos] at hk
  exact exec_ilvXform_of_interleave hf (interleave_slice_of_interleaveBlocks hblocks hk)

/-! ### Linearity over xor (R125) -/

/-- The table is linear, as its generators are (30_encoding.md R81). -/
theorem encTable_get_xor (i j : BitVec 4) :
    params.encTable.get (i ^^^ j).toFin = params.encTable.get i.toFin ^^^ params.encTable.get j.toFin := by
  obtain ⟨hi1, hi0⟩ := encTable_get_generators i
  obtain ⟨hj1, hj0⟩ := encTable_get_generators j
  obtain ⟨h1, h0⟩ := encTable_get_generators (i ^^^ j)
  refine BitVec.eq_of_getLsbD_eq fun k hk => ?_
  interval_cases k
  · simp only [h0, BitVec.getLsbD_xor, hi0, hj0, Bool.xor_assoc, Bool.xor_left_comm]
  · simp only [h1, BitVec.getLsbD_xor, hi1, hj1, Bool.xor_assoc, Bool.xor_left_comm]

theorem encIndex_xor (e e' : BitVec 11) (x x' : Bit) : encIndex (e ^^^ e') (x ^^ x') = encIndex e x ^^^ encIndex e' x' := by
  refine BitVec.eq_of_getLsbD_eq fun i hi => ?_
  rw [BitVec.getLsbD_xor]
  cases i with
  | zero => simp only [encIndex_getLsbD_zero]
  | succ i => simp only [encIndex_getLsbD_succ _ _ (Nat.lt_of_succ_lt_succ hi), BitVec.getLsbD_xor]

theorem encBit_xor (e e' : BitVec 11) (x x' : Bit) :
    encBit params (e ^^^ e') (x ^^ x') =
      ((encBit params e x).1 ^^^ (encBit params e' x').1, (encBit params e x).2 ^^^ (encBit params e' x').2) := by
  simp only [encBit, encIndex_xor, encTable_get_xor, BitVec.extractLsb'_xor, BitVec.setWidth_xor, BitVec.shiftLeft_xor_distrib]

/-- Collecting a symbol is linear, for it goes to places that the shift has cleared. -/
theorem shiftLeft_two_or_setWidth_xor (o o' : BitVec 16) (y y' : Symbol) :
    (o ^^^ o') <<< 2 ||| (y ^^^ y').setWidth 16 = (o <<< 2 ||| y.setWidth 16) ^^^ (o' <<< 2 ||| y'.setWidth 16) := by
  refine BitVec.eq_of_getLsbD_eq fun i hi => ?_
  simp only [BitVec.getLsbD_or, BitVec.getLsbD_xor, BitVec.getLsbD_shiftLeft, BitVec.getLsbD_setWidth, hi, decide_true, Bool.true_and]
  by_cases h : i < 2
  · simp [h]
  · simp [h, BitVec.getLsbD_of_ge y i (by omega), BitVec.getLsbD_of_ge y' i (by omega)]

/-- Two lists of bits of one length through the encoder, and their xor. -/
theorem encBits_xor {xs xs' : List Bit} (h : xs.length = xs'.length) (o o' : BitVec 16) (e e' : BitVec 11) :
    encBits params (List.zipWith Bool.xor xs xs') (o ^^^ o') (e ^^^ e') =
      ((encBits params xs o e).1 ^^^ (encBits params xs' o' e').1, (encBits params xs o e).2 ^^^ (encBits params xs' o' e').2) := by
  induction xs generalizing xs' o o' e e' with
  | nil =>
    obtain rfl := List.length_eq_zero_iff.mp h.symm
    rfl
  | cons x xs ih =>
    match xs', h with
    | x' :: xs', h =>
      rw [List.zipWith_cons_cons, encBits, encBit_xor, shiftLeft_two_or_setWidth_xor, ih (Nat.succ.inj h)]
      rfl

theorem serByte_xor (a b : Byte) : serByte (a ^^^ b) = List.zipWith Bool.xor (serByte a) (serByte b) := by
  simp only [serByte, BitVec.getLsbD_xor, List.zipWith_cons_cons, List.zipWith_nil_left]

theorem encByte_xor (e e' : BitVec 11) (a b : Byte) :
    encByte params (e ^^^ e') (a ^^^ b) =
      (List.zipWith (· ^^^ ·) (encByte params e a).1 (encByte params e' b).1, (encByte params e a).2 ^^^ (encByte params e' b).2) := by
  have hbits := encBits_xor (xs := serByte a) (xs' := serByte b) rfl 0#16 0#16 e e'
  rw [BitVec.xor_zero] at hbits
  simp only [encByte, serByte_xor, hbits, BitVec.extractLsb'_xor, List.zipWith_cons_cons, List.zipWith_nil_left]

/-- CENC.BYTE for each byte, from any two registers. -/
theorem encBytes_xor {a b : List Byte} (h : a.length = b.length) (e e' : BitVec 11) :
    encBytes params (List.zipWith (· ^^^ ·) a b) (e ^^^ e') =
      List.zipWith (· ^^^ ·) (encBytes params a e) (encBytes params b e') := by
  induction a generalizing b e e' with
  | nil => rfl
  | cons x a ih =>
    match b, h with
    | y :: b, h =>
      have hbyte : (encByte params e x).1.length = (encByte params e' y).1.length := by simp only [encByte_length]
      rw [List.zipWith_cons_cons, encBytes, encByte_xor, ih (Nat.succ.inj h), encBytes, encBytes, List.zipWith_append hbyte]

/-- Settles O20: the default ENC_SEED is 0, so the xor of two fresh registers is a fresh register. -/
theorem encoderIsLinearOverXor : Obligations.EncoderIsLinearOverXor := by
  intro a b h
  have hstart : encStart params ^^^ encStart params = encStart params := by decide
  rw [← encBytes_xor h, hstart]

end Machine
end Sys2Proof

/-! Proofs for the family 44_viterbi.md. VIT.SYMBOL and VIT.SEND are read off the model function by function. The two decoding claims
(R148) look at the decoder relative to the encoder's own path: by linearity the costs seen from the true state depend on the error
symbols alone, so after four clean symbols they stand still, and eight clean symbols after a flipped bit they stand there again. A
profile holds these costs together with how many of its last bits each survivor may have wrong. -/

namespace Sys2Proof
namespace Machine
open Claims

/-! ### Add, compare, select (R139 to R142) -/

theorem newCost_eq_min (p : Config.Params) (g : Generation) (y : Symbol) (d : Trellis) :
    newCost p g y d = min (candidate p g y d false) (candidate p g y d true) := by
  rw [newCost]
  obtain ⟨hs, hle⟩ | ⟨hs, hle⟩ := survivor_cases p g y d
  · rw [hs, Nat.min_eq_left hle]
  · rw [hs, Nat.min_eq_right hle]

/-- The survivor is at most as dear as the other candidate. -/
theorem candidate_survivor_le (p : Config.Params) (g : Generation) (y : Symbol) (d : Trellis) :
    candidate p g y d (survivor p g y d) ≤ candidate p g y d !(survivor p g y d) := by
  obtain ⟨hs, hle⟩ | ⟨hs, hle⟩ := survivor_cases p g y d <;> rw [hs] <;> exact hle

theorem nextGeneration_cost_get (p : Config.Params) (g : Generation) (y : Symbol) (d : Trellis) :
    (nextGeneration p g y).cost.get d.toFin = newCost p g y d - least (perState (newCost p g y)) := by
  simp [nextGeneration]

theorem nextGeneration_path_get (p : Config.Params) (g : Generation) (y : Symbol) (d : Trellis) :
    (nextGeneration p g y).path.get d.toFin = newPath p g y d := perState_get _ d

/-- The counter after one more symbol (R145). -/
def nextCount (n : Nat) : Nat := if n + 1 = 32 then 24 else n + 1

/-- The byte that comes out with the counter at `n` before the symbol and the register `r` after it (R145). -/
def emitted (n : Nat) (r : BitVec 32) : List Byte := if n + 1 = 32 then [r.extractLsb' 24 8] else []

section vitSymbol
variable (p : Config.Params) (v : Session) (y : Symbol)

theorem vitSymbol_fst : (vitSymbol p v y).1 = emitted v.nbits ((nextGeneration p v.prev y).path.get 0) := by
  obtain ⟨hn, hv⟩ | ⟨hn, hv⟩ := vitSymbol_cases p v y <;> simp [hv, emitted, hn]

theorem vitSymbol_nbits : (vitSymbol p v y).2.nbits = nextCount v.nbits := by
  obtain ⟨hn, hv⟩ | ⟨hn, hv⟩ := vitSymbol_cases p v y <;> simp [hv, nextCount, hn]

theorem vitSymbol_cur : (vitSymbol p v y).2.cur = !v.cur := by
  obtain ⟨-, hv⟩ | ⟨-, hv⟩ := vitSymbol_cases p v y <;> simp [hv]

end vitSymbol

/-! ### The operations on the session (R137, R143, R147) -/

section operations
variable {s : State} (hf : s.fault = false)
include hf

theorem withSession_some {v : Session} (hv : s.u.vit = some v) (k : Session → Answer) : withSession s k = k v := by
  rw [withSession, guarded_running hf, hv]

theorem withSession_none (hv : s.u.vit = none) (k : Session → Answer) :
    withSession s k = .next { s with fault := true, result := .error (.stateAbsent .uVit), events := [] } := by
  rw [withSession, guarded_running hf, hv, ← raise_of_fatal (isFatal_stateAbsent _)]

theorem exec_vitStart :
    exec .vitStart s = .next (respond .none [] { s with u := { s.u with vit := some (startSession params) } }) := guarded_running hf _

theorem exec_vitSymbol (y : Symbol) {v : Session} (hv : s.u.vit = some v) :
    exec (.vitSymbol y) s = .next (respond (.bytes (vitSymbol params v y).1) []
      { s with u := { s.u with vit := some (vitSymbol params v y).2 } }) :=
  withSession_some hf hv _

theorem exec_vitSend_ok {chunk : List Byte} {v : Session} {r : List Byte × Session} (hv : s.u.vit = some v)
    (hr : vitSend params v chunk = .ok r) :
    exec (.vitSend chunk) s = .next (respond (.bytes r.1) [] { s with u := { s.u with vit := some r.2 } }) := by
  change execVitSendWith params chunk s = _
  rw [execVitSendWith, withSession_some hf hv, hr]

theorem exec_vitSend_error {chunk : List Byte} {v : Session} {e : Err} (hv : s.u.vit = some v) (he : vitSend params v chunk = .error e) :
    exec (.vitSend chunk) s = .next (raise e s) := by
  change execVitSendWith params chunk s = _
  rw [execVitSendWith, withSession_some hf hv, he]

end operations

/-- Settles O22: the fresh session holds the start generation twice. -/
theorem vitStartFreshSession : Obligations.VitStartFreshSession := by
  intro s hf
  have hpath (d : Fin 8) : (startGeneration params).path.get d = 0#32 := perState_get _ (BitVec.ofFin d)
  exact ⟨startSession params, exec_vitStart hf, rfl, rfl, fun _ => ⟨rfl, rfl⟩, fun d => ⟨hpath d, hpath d⟩⟩

/-- Of the four cases of the bound the third is the dearest (R142). -/
theorem CostsBounded.atMost_before_symbol {c : Vector Nat 8} (h : CostsBounded c) : CostsAtMost 104 c := by
  obtain ⟨-, h | ⟨h, -⟩ | ⟨h, -⟩ | ⟨h, -⟩⟩ := h <;> exact h.mono (by decide)

/-- Settles O24: the bound of the invariant is a step lemma already; a candidate is at most 2 above a bounded cost. -/
theorem viterbiCostsStayBounded : Obligations.ViterbiCostsStayBounded := by
  refine ⟨costsBounded_startGeneration, fun v y hv => ?_⟩
  rw [vitSymbol_prev]
  refine ⟨costsBounded_nextGeneration y hv, fun d => ?_⟩
  have h106 : newCost params v.prev y d ≤ 106 :=
    (newCost_le_src params v.prev y d false).trans (Nat.add_le_add_right (hv.atMost_before_symbol _) 2)
  exact ⟨h106, h106.trans_lt (by decide)⟩

/-! ### VIT.SYMBOL in the arithmetic of the claim (R143) -/

theorem trellisSrc_val (d : Fin 8) (j : Bit) : (trellisSrc (BitVec.ofFin d) j).toFin.val = d.val / 2 + 4 * j.toNat := by
  revert d j
  decide

theorem getD_trellisSrc {α : Type} (c : Vector α 8) (d : Fin 8) (j : Bit) (a : α) :
    c.getD (d.val / 2 + 4 * j.toNat) a = c.get (trellisSrc (BitVec.ofFin d) j).toFin := by
  have hlt : (trellisSrc (BitVec.ofFin d) j).toFin.val < c.toArray.size := by rw [c.size_toArray]; exact Fin.isLt _
  rw [← trellisSrc_val]
  exact dif_pos hlt

theorem candSpec_eq_candidate (g : Generation) (y : Symbol) (d : Fin 8) (j : Bit) :
    candSpec g y d j.toNat = candidate params g y (BitVec.ofFin d) j := by
  have hout : params.encTable.get ⟨(2 * (d.val / 2 + 4 * j.toNat) + d.val % 2) % 16, by omega⟩ =
      trellisOut params (BitVec.ofFin d) j := by
    revert d j
    decide
  rw [candSpec, candidate, hamming2, getD_trellisSrc, hout]

/-- VIT_TIE's default keeps candidate 0 on a tie (R140). -/
theorem survivor_params (g : Generation) (y : Symbol) (d : Trellis) :
    survivor params g y d = !decide (candidate params g y d false ≤ candidate params g y d true) := rfl

theorem keptSpec_eq (g : Generation) (y : Symbol) (d : Fin 8) :
    keptSpec g y d = d.val / 2 + 4 * (survivor params g y (BitVec.ofFin d)).toNat := by
  have h0 := candSpec_eq_candidate g y d false
  have h1 := candSpec_eq_candidate g y d true
  rw [Bool.toNat_false] at h0
  rw [Bool.toNat_true] at h1
  rw [keptSpec, h0, h1, survivor_params]
  split
  next h => rw [decide_eq_true h]; rfl
  next h => rw [decide_eq_false h]; rfl

/-- Settles O23: the claim's candidates and survivor are the model's, and the least new cost is one of the eight. -/
theorem vitSymbolAddCompareSelect : Obligations.VitSymbolAddCompareSelect := by
  refine ⟨fun s y v hf hv => ?_, fun s y hf hv => withSession_none hf hv _⟩
  have hmin (d : Fin 8) : newCost params v.prev y (BitVec.ofFin d) = min (candSpec v.prev y d 0) (candSpec v.prev y d 1) := by
    rw [newCost_eq_min]
    exact congrArg₂ min (candSpec_eq_candidate v.prev y d false).symm (candSpec_eq_candidate v.prev y d true).symm
  have hget (d : Fin 8) : (perState (newCost params v.prev y)).get d = newCost params v.prev y (BitVec.ofFin d) :=
    perState_get _ (BitVec.ofFin d)
  refine ⟨(vitSymbol params v y).2, least (perState (newCost params v.prev y)), ?_, fun d => ?_, ?_, fun d => ?_, fun d => ?_,
    vitSymbol_nbits params v y, vitSymbol_cur params v y⟩
  · rw [exec_vitSymbol hf y hv, vitSymbol_fst, vitSymbol_prev]
    rfl
  · rw [← hmin, ← hget]
    exact least_le _ (BitVec.ofFin d)
  · obtain ⟨d, hd⟩ := exists_get_eq_least (perState (newCost params v.prev y))
    exact ⟨d.toFin, by rw [← hmin, ← hd, ← hget]⟩
  · rw [vitSymbol_prev, ← hmin]
    exact nextGeneration_cost_get params v.prev y (BitVec.ofFin d)
  · have hin : BitVec.ofNat 32 (d.val % 2) = (BitVec.ofBool (trellisIn (BitVec.ofFin d))).setWidth 32 := by
      revert d
      decide
    rw [vitSymbol_prev, keptSpec_eq, getD_trellisSrc, hin]
    exact nextGeneration_path_get params v.prev y (BitVec.ofFin d)

/-! ### From the chunks on the wire to the symbols (R147, 42_interleaver.md R111) -/

/-- The symbols of a chunk in the order the decoder takes them: the first pair of each byte, then the second of each, and so on. -/
def chunkSymbols (chunk : List Byte) : List Symbol := (List.range 4).flatMap fun k => chunk.map fun b => pairOf b k

theorem chunkSymbols_length {chunk : List Byte} (h : chunk.length = 4) : (chunkSymbols chunk).length = 16 := by
  simp [chunkSymbols, h]

theorem length_flatMap_chunkSymbols {chunks : List (List Byte)} (h : ∀ ch ∈ chunks, ch.length = 4) :
    (chunks.flatMap chunkSymbols).length = 16 * chunks.length := by
  rw [List.length_flatMap, List.map_congr_left fun ch hch => chunkSymbols_length (h ch hch)]
  simp [Nat.mul_comm]

theorem flatMap_pairsOf_length (bs : List Byte) : (bs.flatMap pairsOf).length = 4 * bs.length := by
  simp [pairsOf, Nat.mul_comm]

/-- Sixteen symbols row by row. -/
def grid (f : Fin 4 → Fin 4 → Symbol) : List Symbol := (List.finRange 4).flatMap fun r => (List.finRange 4).map (f r)

theorem flatMap_pairsOf_eq_grid {bs : List Byte} (h : bs.length = 4) :
    bs.flatMap pairsOf = grid fun r c => pairOf (bs.getD r.val 0#8) c.val := by
  obtain ⟨b0, b1, b2, b3, rfl⟩ := List.length_eq_four.mp h
  rfl

theorem chunkSymbols_eq_grid {bs : List Byte} (h : bs.length = 4) :
    chunkSymbols bs = grid fun r c => pairOf (bs.getD c.val 0#8) r.val := by
  obtain ⟨b0, b1, b2, b3, rfl⟩ := List.length_eq_four.mp h
  rfl

/-- The symbols of a word are the pairs of its bytes. -/
theorem symbols_eq_flatMap_pairsOf (w : BitVec 32) : symbols w = (bytesOfWord w).flatMap pairsOf := by
  have hgrid : symbols w = grid fun r c => symbolAt w (4 * r.val + c.val) := rfl
  simp only [hgrid, flatMap_pairsOf_eq_grid (bytesOfWord_length w), pairOf_bytesOfWord]

theorem length_of_interleave {p : Config.Params} {blk t : List Byte} (h : interleave p blk = .ok t) : t.length = 4 := by
  obtain ⟨b0, b1, b2, b3, -, hilv⟩ | ⟨-, hilv⟩ := interleave_cases p blk <;> rw [h] at hilv <;> cases hilv
  rfl

/-- A block that ILV.XFORM answers has the pairs of its operand column by column, and its columns are the operand's rows. -/
theorem pairs_of_interleave {blk t : List Byte} (h : interleave params blk = .ok t) :
    t.flatMap pairsOf = chunkSymbols blk ∧ chunkSymbols t = blk.flatMap pairsOf := by
  obtain ⟨b0, b1, b2, b3, rfl, hilv⟩ | ⟨-, hilv⟩ := interleave_cases params blk <;> rw [h] at hilv <;> cases hilv
  have hblk : [b0, b1, b2, b3].length = 4 := rfl
  constructor
  · simp only [flatMap_pairsOf_eq_grid (bytesOfWord_length _), chunkSymbols_eq_grid hblk, pairOf_interleaveWord]
  · simp only [chunkSymbols_eq_grid (bytesOfWord_length _), flatMap_pairsOf_eq_grid hblk, pairOf_interleaveWord]

theorem vitSend_of_interleave {p : Config.Params} {v : Session} {chunk blk : List Byte} (h : interleave p chunk = .ok blk) :
    vitSend p v chunk = .ok (vitSymbols p v (blk.flatMap pairsOf)) := by
  obtain ⟨t0, t1, t2, t3, rfl⟩ := List.length_eq_four.mp (length_of_interleave h)
  rw [← bytesOfWord_wordOfBytes t0 t1 t2 t3, ← symbols_eq_flatMap_pairsOf, vitSend, h]

/-- VIT.SEND on a chunk of four bytes. -/
theorem vitSend_eq_vitSymbols (v : Session) {chunk : List Byte} (h : chunk.length = 4) :
    vitSend params v chunk = .ok (vitSymbols params v (chunkSymbols chunk)) := by
  obtain ⟨w, hilv⟩ := interleave_ok_of_length (p := params) h
  obtain ⟨hsymbols, -⟩ := pairs_of_interleave hilv
  rw [vitSend_of_interleave hilv, hsymbols]

/-- Chunk by chunk or in one run of symbols is the same. -/
theorem vitSendAll_eq_vitSymbols (v : Session) {chunks : List (List Byte)} (h : ∀ ch ∈ chunks, ch.length = 4) :
    vitSendAll params v chunks = .ok (vitSymbols params v (chunks.flatMap chunkSymbols)) := by
  induction chunks generalizing v with
  | nil => rfl
  | cons chunk rest ih =>
    obtain ⟨hchunk, hrest⟩ := List.forall_mem_cons.mp h
    simp only [vitSendAll, vitSend_eq_vitSymbols v hchunk, ih _ hrest, List.flatMap_cons, vitSymbols_append]

/-- Settles O26: the symbols of the permuted word are the pairs of ILV.XFORM's answer. -/
theorem vitSendRunsSixteenSymbols : Obligations.VitSendRunsSixteenSymbols := by
  refine ⟨fun s chunk v hf hv hlen => ?_, fun s chunk hf hv => withSession_none hf hv _, fun s chunk v hf hv hlen => ?_⟩
  · obtain ⟨w, hilv⟩ := interleave_ok_of_length (p := params) hlen
    have hsend := exec_vitSend_ok hf hv (vitSend_of_interleave hilv)
    generalize bytesOfWord w = blk at hilv hsend
    exact ⟨respond (.bytes blk) [] s, blk, _, _, exec_ilvXform_of_interleave hf hilv, rfl, Prod.mk.eta.symm, hsend⟩
  · rw [exec_vitSend_error hf hv (vitSend_malformed hlen), raise_of_fatal (isFatal_malformed _)]

/-! ### The number of bytes (R146) -/

/-- What the counter's book-keeping leaves for a fresh session. -/
theorem vitSymbols_startSession_length (ys : List Symbol) :
    (vitSymbols params (startSession params) ys).1.length = if ys.length < 32 then 0 else (ys.length - 24) / 8 := by
  obtain ⟨hsum, hlt, hge, -⟩ := vitSymbols_count params (startSession params) ys (by decide)
  rw [startSession_nbits] at hsum
  obtain hnil | hne := eq_or_ne (vitSymbols params (startSession params) ys).1 []
  · rw [hnil, List.length_nil] at hsum ⊢
    split <;> omega
  · have := hge hne
    have := List.length_pos_iff.mpr hne
    split <;> omega

/-- Settles O25: sixteen symbols a chunk. -/
theorem viterbiOutputCount : Obligations.ViterbiOutputCount := by
  refine ⟨vitSymbols_startSession_length, fun chunks h => ⟨_, _, vitSendAll_eq_vitSymbols (startSession params) h, ?_⟩⟩
  rw [vitSymbols_startSession_length, length_flatMap_chunkSymbols h]
  split <;> omega

/-! ### The trellis is linear (30_encoding.md R81, R82) -/

/-- The symbol of the edge that leaves state `s` with the input bit `x`. -/
def edgeSymbol (s : Trellis) (x : Bit) : Symbol :=
  params.encTable.get (s.setWidth 4 <<< 1 ||| (BitVec.ofBool x).setWidth 4).toFin

theorem trellisOut_eq_edgeSymbol (d : Trellis) (j : Bit) : trellisOut params d j = edgeSymbol (trellisSrc d j) (trellisIn d) := rfl

/-- The three state bits of the encoder register. -/
def encState (enc : BitVec 11) : Trellis := enc.extractLsb' 8 3

theorem encState_encStart : encState (encStart params) = 0#3 := encStart_state params

theorem encBit_fst_eq_edgeSymbol (enc : BitVec 11) (x : Bit) : (encBit params enc x).1 = edgeSymbol (encState enc) x := rfl

theorem encState_encBit (enc : BitVec 11) (x : Bit) : encState (encBit params enc x).2 = trellisNext (encState enc) x := by
  rw [encState, encBit_state, encIndex, ← encState]
  generalize encState enc = s
  revert s x
  decide

theorem edgeSymbol_xor (s t : Trellis) (x y : Bit) : edgeSymbol (s ^^^ t) (x ^^ y) = edgeSymbol s x ^^^ edgeSymbol t y := by
  have hindex : (s ^^^ t).setWidth 4 <<< 1 ||| (BitVec.ofBool (x ^^ y)).setWidth 4 =
      (s.setWidth 4 <<< 1 ||| (BitVec.ofBool x).setWidth 4) ^^^ (t.setWidth 4 <<< 1 ||| (BitVec.ofBool y).setWidth 4) := by
    revert s t x y
    decide
  rw [edgeSymbol, hindex, encTable_get_xor, edgeSymbol, edgeSymbol]

section relative
variable (e s : Trellis) (x j : Bit)

/-- Seen from the true state, the two sources of a state change places when the true state's oldest bit is set. -/
theorem trellisSrc_xor_trellisNext : trellisSrc (e ^^^ trellisNext s x) (j ^^ s.getLsbD 2) = trellisSrc e j ^^^ s := by
  revert e s x j
  decide

theorem trellisIn_xor_trellisNext : trellisIn (e ^^^ trellisNext s x) = (trellisIn e ^^ x) := by
  revert e s x
  decide

theorem trellisOut_xor_trellisNext :
    trellisOut params (e ^^^ trellisNext s x) (j ^^ s.getLsbD 2) = trellisOut params e j ^^^ edgeSymbol s x := by
  rw [trellisOut_eq_edgeSymbol, trellisSrc_xor_trellisNext, trellisIn_xor_trellisNext, edgeSymbol_xor, ← trellisOut_eq_edgeSymbol]

end relative

/-! ### The Hamming distance of symbols (R138) -/

theorem hamming2_xor_right (a b c : Symbol) : hamming2 a (b ^^^ c) = hamming2 (a ^^^ c) b := by
  simp only [hamming2, BitVec.getLsbD_xor, Bool.xor_left_comm, Bool.xor_comm]

theorem hamming2_eq_hamming2_zero (a b : Symbol) : hamming2 a b = hamming2 (a ^^^ b) 0#2 := by
  rw [← hamming2_xor_right, BitVec.zero_xor]

theorem eq_zero_of_hamming2_eq_zero {e : Symbol} (h : hamming2 e 0#2 = 0) : e = 0#2 := by
  revert e
  decide

/-! ### Registers that agree from a bit on (R141, R145) -/

/-- R141's move: the register moves left by one and the bit enters at the bottom. -/
def shiftIn (r : BitVec 32) (x : Bit) : BitVec 32 := r <<< 1 ||| (BitVec.ofBool x).setWidth 32

theorem newPath_eq_shiftIn (p : Config.Params) (g : Generation) (y : Symbol) (d : Trellis) :
    newPath p g y d = shiftIn (g.path.get (trellisSrc d (survivor p g y d)).toFin) (trellisIn d) := rfl

theorem shiftIn_getLsbD_zero (r : BitVec 32) (x : Bit) : (shiftIn r x).getLsbD 0 = x := by simp [shiftIn]

theorem shiftIn_getLsbD_succ (r : BitVec 32) (x : Bit) (i : Nat) :
    (shiftIn r x).getLsbD (i + 1) = (decide (i + 1 < 32) && r.getLsbD i) := by
  simp [shiftIn]

/-- The two registers differ in their last `n` bits at most. -/
def AgreeFrom (n : Nat) (a b : BitVec 32) : Prop := ∀ i, n ≤ i → a.getLsbD i = b.getLsbD i

namespace AgreeFrom
variable {m n : Nat} {a b : BitVec 32}

theorem mono (h : AgreeFrom m a b) (hmn : m ≤ n) : AgreeFrom n a b := fun i hi => h i (hmn.trans hi)

theorem shiftIn (h : AgreeFrom n a b) (x y : Bit) : AgreeFrom (n + 1) (shiftIn a x) (shiftIn b y) := by
  intro i hi
  obtain ⟨i, rfl⟩ := Nat.exists_eq_add_of_le' (Nat.le_of_add_left_le hi)
  rw [shiftIn_getLsbD_succ, shiftIn_getLsbD_succ, h i (Nat.le_of_succ_le_succ hi)]

theorem eq_of_zero (h : AgreeFrom 0 a b) : a = b := BitVec.eq_of_getLsbD_eq fun i _ => h i (Nat.zero_le i)

/-- From bit 24 on is enough for the byte that comes out. -/
theorem emitted_eq (h : AgreeFrom 24 a b) (k : Nat) : emitted k a = emitted k b := by
  have hbyte : a.extractLsb' 24 8 = b.extractLsb' 24 8 := by
    refine BitVec.eq_of_getLsbD_eq fun i _ => ?_
    rw [BitVec.getLsbD_extractLsb', BitVec.getLsbD_extractLsb', h _ (Nat.le_add_right 24 i)]
  rw [emitted, emitted, hbyte]

end AgreeFrom

/-! ### The bytes of a single register -/

/-- The bytes that come out of one register that takes the bits in order, with the counter of R145. -/
def registerBytes : Nat → BitVec 32 → List Bit → List Byte
  | _, _, [] => []
  | n, r, x :: xs => emitted n (shiftIn r x) ++ registerBytes (nextCount n) (shiftIn r x) xs

/-- The bits taken in stand at the bottom, the last one lowest, and the old ones above them. -/
theorem foldl_shiftIn_getLsbD (xs : List Bit) (r : BitVec 32) {i : Nat} (hi : i < 32) :
    (xs.foldl shiftIn r).getLsbD i = if i < xs.length then xs.getD (xs.length - 1 - i) false else r.getLsbD (i - xs.length) := by
  induction xs generalizing r with
  | nil => rfl
  | cons x xs ih =>
    rw [List.foldl_cons, ih, List.length_cons]
    obtain hlt | rfl | hgt := Nat.lt_trichotomy i xs.length
    · have hpos : xs.length + 1 - 1 - i = xs.length - 1 - i + 1 := by omega
      rw [if_pos hlt, if_pos (by omega), hpos, List.getD_cons_succ]
    · rw [if_neg (by omega), if_pos (by omega), Nat.sub_self, Nat.add_sub_cancel, Nat.sub_self, List.getD_cons_zero, shiftIn_getLsbD_zero]
    · have hpos : i - xs.length = i - (xs.length + 1) + 1 := by omega
      rw [if_neg (by omega), if_neg (by omega), hpos, shiftIn_getLsbD_succ, decide_eq_true (by omega), Bool.true_and]

theorem serByte_getD (b : Byte) {i : Nat} (hi : i < 8) : (serByte b).getD (8 - 1 - i) false = b.getLsbD i := by
  interval_cases i <;> rfl

/-- Eight moves push the oldest byte out and take the new one in. -/
theorem foldl_shiftIn_serByte (b0 b1 b2 b3 b : Byte) : (serByte b).foldl shiftIn (wordOfBytes b0 b1 b2 b3) = wordOfBytes b1 b2 b3 b := by
  refine BitVec.eq_of_getLsbD_eq fun i hi => ?_
  rw [foldl_shiftIn_getLsbD _ _ hi, serByte_length]
  by_cases hlow : i < 8
  · simp only [hlow, if_true, serByte_getD, wordOfBytes, BitVec.getLsbD_append]
  · have htop : i - 8 - 8 - 8 < 8 := by omega
    simp only [hlow, if_false, wordOfBytes, BitVec.getLsbD_append, htop, if_true]

theorem registerBytes_serByte (r : BitVec 32) (b : Byte) (xs : List Bit) :
    registerBytes 24 r (serByte b ++ xs) =
      ((serByte b).foldl shiftIn r).extractLsb' 24 8 :: registerBytes 24 ((serByte b).foldl shiftIn r) xs := rfl

/-- A full register answers, for each byte it takes, the byte three before it. -/
theorem registerBytes_ser_of_full (b0 b1 b2 b3 : Byte) (bs : List Byte) :
    registerBytes 24 (wordOfBytes b0 b1 b2 b3) (ser bs) = (b1 :: b2 :: b3 :: bs).take bs.length := by
  induction bs generalizing b0 b1 b2 b3 with
  | nil => rfl
  | cons b bs ih =>
    have htop : (wordOfBytes b1 b2 b3 b).extractLsb' 24 8 = b1 := List.head_eq_of_cons_eq (bytesOfWord_wordOfBytes b1 b2 b3 b)
    have hser : ser (b :: bs) = serByte b ++ ser bs := rfl
    rw [hser, registerBytes_serByte, foldl_shiftIn_serByte, htop, ih, List.length_cons, List.take_succ_cons]

/-- An empty register fills with three bytes first (R146). -/
theorem registerBytes_ser (bs : List Byte) : registerBytes 0 0#32 (ser bs) = bs.take (bs.length - 3) := by
  match bs with
  | [] | [_] | [_, _] => rfl
  | a :: b :: c :: bs =>
    have hfill : registerBytes 0 0#32 (ser (a :: b :: c :: bs)) =
        registerBytes 24
          ((serByte c).foldl shiftIn ((serByte b).foldl shiftIn ((serByte a).foldl shiftIn (wordOfBytes 0 0 0 0)))) (ser bs) := rfl
    rw [hfill, foldl_shiftIn_serByte, foldl_shiftIn_serByte, foldl_shiftIn_serByte, registerBytes_ser_of_full]
    rfl

/-! ### The decoder seen from the true path (R148) -/

/-- What decides the decoder's answers, for every state relative to (xor) the true one: its cost, and how many of its survivor's last
bits may be wrong. -/
@[ext] structure Profile where
  cost : Vector Nat 8
  lag : Vector Nat 8

namespace Profile

/-- A generation with the costs of the profile: the all-zero path's decoder. -/
def generation (p : Profile) : Generation := { cost := p.cost, path := perState fun _ => 0#32 }

/-- The lag of state `d` if candidate `j` survives: one bit more than at the source, but still none if both bits are right. -/
def lagVia (p : Profile) (d : Trellis) (j : Bit) : Nat :=
  if p.lag.get (trellisSrc d j).toFin = 0 ∧ trellisIn d = false then 0 else p.lag.get (trellisSrc d j).toFin + 1

/-- The same, 0 for a candidate that cannot survive. Whichever way a tie goes in the trellis of the true path, both may. -/
def lagIfKept (p : Profile) (e : Symbol) (d : Trellis) (j : Bit) : Nat :=
  if candidate params p.generation e d j ≤ candidate params p.generation e d !j then p.lagVia d j else 0

/-- The profile after a symbol received as the true one xor `e`: the costs are those of the decoder itself for the symbol `e`. -/
def next (p : Profile) (e : Symbol) : Profile where
  cost := (nextGeneration params p.generation e).cost
  lag := perState fun d => max (p.lagIfKept e d false) (p.lagIfKept e d true)

/-- The profile after `n` symbols received as they were sent. -/
def quiet (n : Nat) (p : Profile) : Profile := (fun q => q.next 0#2)^[n] p

theorem quiet_succ (n : Nat) (p : Profile) : p.quiet (n + 1) = (p.quiet n).next 0#2 := Function.iterate_succ_apply' _ n p

/-- The fresh session: every register is the true one. -/
def start : Profile := { cost := params.vitInitCost, lag := perState fun _ => 0 }

/-- The profile that clean symbols lead to. -/
def settled : Profile where
  cost := #v[0, 2, 3, 3, 4, 3, 4, 4]
  lag := #v[0, 1, 2, 2, 4, 3, 3, 3]

theorem next_settled : settled.next 0#2 = settled := by
  have h : (settled.next 0#2).cost = settled.cost ∧ (settled.next 0#2).lag = settled.lag := by decide
  obtain ⟨hcost, hlag⟩ := h
  exact Profile.ext hcost hlag

/-- Four clean symbols settle a fresh session. -/
theorem quiet_start : start.quiet 4 = settled := by
  have h : (start.quiet 4).cost = settled.cost ∧ (start.quiet 4).lag = settled.lag := by decide +kernel
  obtain ⟨hcost, hlag⟩ := h
  exact Profile.ext hcost hlag

/-- Eight clean symbols after one flipped bit the session is settled, whenever the flip came. -/
theorem quiet_next_quiet_start {t : Nat} (ht : t ≤ 4) {e : Symbol} (he : hamming2 e 0#2 = 1) :
    ((start.quiet t).next e).quiet 8 = settled := by
  have h : ∀ t ≤ 4, ∀ e : Symbol, hamming2 e 0#2 = 1 →
      (((start.quiet t).next e).quiet 8).cost = settled.cost ∧ (((start.quiet t).next e).quiet 8).lag = settled.lag := by
    decide +kernel
  obtain ⟨hcost, hlag⟩ := h t ht e he
  exact Profile.ext hcost hlag

/-! ### The lag stays small -/

/-- No survivor has more than its last `n` bits wrong. -/
def LagAtMost (n : Nat) (p : Profile) : Prop := ∀ d : Trellis, p.lag.get d.toFin ≤ n

theorem lagIfKept_le_lagVia (p : Profile) (e : Symbol) (d : Trellis) (j : Bit) : p.lagIfKept e d j ≤ p.lagVia d j := by
  rw [lagIfKept]
  split
  · exact le_rfl
  · exact Nat.zero_le _

theorem lagVia_le (p : Profile) (d : Trellis) (j : Bit) : p.lagVia d j ≤ p.lag.get (trellisSrc d j).toFin + 1 := by
  rw [lagVia]
  split
  · exact Nat.zero_le _
  · exact le_rfl

theorem next_lag_get (p : Profile) (e : Symbol) (d : Trellis) :
    (p.next e).lag.get d.toFin = max (p.lagIfKept e d false) (p.lagIfKept e d true) := perState_get _ d

/-- A candidate that may survive has its lag counted. -/
theorem lagVia_le_next_lag {p : Profile} {e : Symbol} {d : Trellis} {j : Bit}
    (h : candidate params p.generation e d j ≤ candidate params p.generation e d !j) : p.lagVia d j ≤ (p.next e).lag.get d.toFin := by
  have hkept : p.lagIfKept e d j = p.lagVia d j := if_pos h
  rw [next_lag_get, ← hkept]
  cases j
  · exact le_max_left _ _
  · exact le_max_right _ _

theorem LagAtMost.next {n : Nat} {p : Profile} (h : p.LagAtMost n) (e : Symbol) : (p.next e).LagAtMost (n + 1) := by
  intro d
  have hj (j : Bit) : p.lagIfKept e d j ≤ n + 1 :=
    calc p.lagIfKept e d j
      _ ≤ p.lagVia d j := p.lagIfKept_le_lagVia e d j
      _ ≤ p.lag.get (trellisSrc d j).toFin + 1 := p.lagVia_le d j
      _ ≤ n + 1 := Nat.succ_le_succ (h _)
  rw [next_lag_get]
  exact max_le (hj false) (hj true)

theorem LagAtMost.quiet {n : Nat} {p : Profile} (h : p.LagAtMost n) (m : Nat) : (p.quiet m).LagAtMost (n + m) := by
  induction m with
  | zero => exact h
  | succ m ih => rw [quiet_succ]; exact ih.next 0#2

theorem lagAtMost_start : start.LagAtMost 0 := fun d => (perState_get _ d).le

/-! ### The profiles of a session with at most one flipped bit -/

/-- With `b` more flipped bits to come at the most: none has come yet (`b = 1`), or the one has (`b = 0`). -/
def Tolerates (b : Nat) (p : Profile) : Prop :=
  (b = 1 ∧ ∃ t ≤ 4, p = start.quiet t) ∨
  (b = 0 ∧ ∃ t ≤ 4, ∃ e : Symbol, hamming2 e 0#2 = 1 ∧ ∃ m ≤ 8, p = ((start.quiet t).next e).quiet m)

theorem tolerates_start : start.Tolerates 1 := .inl ⟨rfl, 0, Nat.zero_le 4, rfl⟩

theorem Tolerates.lagAtMost {b : Nat} {p : Profile} (h : p.Tolerates b) : p.LagAtMost 13 := by
  obtain ⟨-, t, ht, rfl⟩ | ⟨-, t, ht, e, -, m, hm, rfl⟩ := h
  · exact fun d => (lagAtMost_start.quiet t d).trans (by omega)
  · exact fun d => (((lagAtMost_start.quiet t).next e).quiet m d).trans (by omega)

/-- A profile that clean symbols have brought to `settled` is not moved by one more. -/
theorem quiet_succ_of_settled {n : Nat} {p : Profile} (h : p.quiet n = settled) : p.quiet (n + 1) = p.quiet n := by
  rw [quiet_succ, h, next_settled]

theorem exists_quiet_succ {n m : Nat} {p : Profile} (h : p.quiet n = settled) (hm : m ≤ n) : ∃ k ≤ n, p.quiet (m + 1) = p.quiet k := by
  obtain hlt | rfl := hm.lt_or_eq
  · exact ⟨m + 1, hlt, rfl⟩
  · exact ⟨m, le_rfl, quiet_succ_of_settled h⟩

/-- Each symbol uses up as many flipped bits as it has. -/
theorem Tolerates.next {b : Nat} {p : Profile} (h : p.Tolerates b) {e : Symbol} (he : hamming2 e 0#2 ≤ b) :
    (p.next e).Tolerates (b - hamming2 e 0#2) := by
  obtain ⟨rfl, t, ht, rfl⟩ | ⟨rfl, t, ht, e', he', m, hm, rfl⟩ := h
  · obtain h0 | h1 := Nat.le_one_iff_eq_zero_or_eq_one.mp he
    · obtain rfl := eq_zero_of_hamming2_eq_zero h0
      rw [← quiet_succ, h0]
      exact .inl ⟨rfl, exists_quiet_succ quiet_start ht⟩
    · rw [h1]
      exact .inr ⟨rfl, t, ht, e, h1, 0, Nat.zero_le 8, rfl⟩
  · obtain rfl := eq_zero_of_hamming2_eq_zero (Nat.le_zero.mp he)
    rw [← quiet_succ, Nat.zero_sub]
    exact .inr ⟨rfl, t, ht, e', he', exists_quiet_succ (quiet_next_quiet_start ht he') hm⟩

end Profile

/-! ### A decoder and its profile move together -/

/-- The generation `g` has profile `p` when the encoder is in state `s` and has taken the bits of `r`. -/
structure Tracks (p : Profile) (s : Trellis) (r : BitVec 32) (g : Generation) : Prop where
  cost (e : Trellis) : g.cost.get (e ^^^ s).toFin = p.cost.get e.toFin
  path (e : Trellis) : AgreeFrom (p.lag.get e.toFin) (g.path.get (e ^^^ s).toFin) r

theorem tracks_start : Tracks .start 0#3 0#32 (startGeneration params) where
  cost e := by rw [BitVec.xor_zero]; rfl
  path e := by
    have hpath : (startGeneration params).path.get (e ^^^ 0#3).toFin = 0#32 := perState_get _ _
    rw [hpath]
    exact fun _ _ => rfl

/-- The least cost does not depend on where the states are counted from. -/
theorem least_perState_le_of_xor {f h : Trellis → Nat} (s : Trellis) (hfh : ∀ e, f (e ^^^ s) = h e) :
    least (perState f) ≤ least (perState h) := by
  obtain ⟨d, hd⟩ := exists_get_eq_least (perState h)
  have hle := least_le (perState f) (d ^^^ s)
  rwa [perState_get, hfh, ← perState_get h, hd] at hle

theorem least_perState_xor {f h : Trellis → Nat} (s : Trellis) (hfh : ∀ e, f (e ^^^ s) = h e) :
    least (perState f) = least (perState h) := by
  refine le_antisymm (least_perState_le_of_xor s hfh) (least_perState_le_of_xor s fun e => ?_)
  rw [← hfh, BitVec.xor_assoc, BitVec.xor_self, BitVec.xor_zero]

namespace Tracks
variable {p : Profile} {s : Trellis} {r : BitVec 32} {g : Generation} (h : Tracks p s r g) (y : Symbol) (x : Bit)
include h

/-- The candidates of a state are those of the profile, perhaps in the other order. -/
theorem candidate_eq (e : Trellis) (j : Bit) :
    candidate params g y (e ^^^ trellisNext s x) (j ^^ s.getLsbD 2) = candidate params p.generation (y ^^^ edgeSymbol s x) e j := by
  rw [candidate, trellisSrc_xor_trellisNext, h.cost, trellisOut_xor_trellisNext, hamming2_xor_right, candidate, Profile.generation]

theorem newCost_eq (e : Trellis) :
    newCost params g y (e ^^^ trellisNext s x) = newCost params p.generation (y ^^^ edgeSymbol s x) e := by
  rw [newCost_eq_min, newCost_eq_min, ← h.candidate_eq y x e false, ← h.candidate_eq y x e true]
  cases s.getLsbD 2
  · rfl
  · exact Nat.min_comm _ _

/-- A survivor is one that the profile counts with. -/
theorem agreeFrom_newPath (e : Trellis) :
    AgreeFrom ((p.next (y ^^^ edgeSymbol s x)).lag.get e.toFin) (newPath params g y (e ^^^ trellisNext s x)) (shiftIn r x) := by
  obtain ⟨j, hj⟩ : ∃ j, survivor params g y (e ^^^ trellisNext s x) = (j ^^ s.getLsbD 2) :=
    ⟨survivor params g y (e ^^^ trellisNext s x) ^^ s.getLsbD 2, by simp⟩
  have hle := candidate_survivor_le params g y (e ^^^ trellisNext s x)
  rw [hj, ← Bool.not_xor, h.candidate_eq, h.candidate_eq] at hle
  refine AgreeFrom.mono ?_ (Profile.lagVia_le_next_lag hle)
  rw [newPath_eq_shiftIn, hj, trellisSrc_xor_trellisNext, trellisIn_xor_trellisNext, Profile.lagVia]
  have hsrc := h.path (trellisSrc e j)
  split
  next hright =>
    obtain ⟨hlag, hin⟩ := hright
    rw [hlag] at hsrc
    rw [hsrc.eq_of_zero, hin, Bool.false_xor]
    exact fun _ _ => rfl
  next => exact hsrc.shiftIn _ _

theorem next : Tracks (p.next (y ^^^ edgeSymbol s x)) (trellisNext s x) (shiftIn r x) (nextGeneration params g y) where
  cost e := by
    rw [nextGeneration_cost_get, h.newCost_eq, least_perState_xor _ (h.newCost_eq y x), ← nextGeneration_cost_get]
    rfl
  path e := by
    rw [nextGeneration_path_get]
    exact h.agreeFrom_newPath y x e

end Tracks

/-- Every survivor differs from the register `r` in its last `n` bits at most. -/
def AllAgreeFrom (n : Nat) (r : BitVec 32) (g : Generation) : Prop := ∀ d : Trellis, AgreeFrom n (g.path.get d.toFin) r

theorem Tracks.allAgreeFrom {p : Profile} {s : Trellis} {r : BitVec 32} {g : Generation} {n : Nat} (h : Tracks p s r g)
    (hp : p.LagAtMost n) : AllAgreeFrom n r g := by
  intro d
  have hd := (h.path (d ^^^ s)).mono (hp _)
  rwa [BitVec.xor_assoc, BitVec.xor_self, BitVec.xor_zero] at hd

/-- Any symbol at all adds one wrong bit at most. -/
theorem AllAgreeFrom.next {n : Nat} {r : BitVec 32} {g : Generation} (h : AllAgreeFrom n r g) (p : Config.Params) (y : Symbol) (x : Bit) :
    AllAgreeFrom (n + 1) (shiftIn r x) (nextGeneration p g y) := by
  intro d
  rw [nextGeneration_path_get, newPath_eq_shiftIn]
  exact (h _).shiftIn _ _

/-! ### What comes out is what the true register holds -/

/-- One symbol: if the survivors agree with the true register from bit 24 on, its byte comes out. -/
theorem vitSymbols_cons_eq_registerBytes {v : Session} {y : Symbol} {ys : List Symbol} {r : BitVec 32} {x : Bit} {xs : List Bit} {n : Nat}
    (hn : n ≤ 24) (hagree : AllAgreeFrom n (shiftIn r x) (nextGeneration params v.prev y))
    (hrest : (vitSymbols params (vitSymbol params v y).2 ys).1 = registerBytes (nextCount v.nbits) (shiftIn r x) xs) :
    (vitSymbols params v (y :: ys)).1 = registerBytes v.nbits r (x :: xs) := by
  have hbyte := ((hagree 0#3).mono hn).emitted_eq v.nbits
  rw [vitSymbols, hrest, vitSymbol_fst, registerBytes, ← hbyte]
  rfl

/-- Symbols of any value: the true register takes any bits. -/
theorem vitSymbols_eq_registerBytes_of_agree {zs : List Symbol} {ts : List Bit} (hlen : zs.length = ts.length) {n : Nat}
    (hn : n + zs.length ≤ 24) {r : BitVec 32} {v : Session} (h : AllAgreeFrom n r v.prev) :
    (vitSymbols params v zs).1 = registerBytes v.nbits r ts := by
  induction zs generalizing ts n r v with
  | nil =>
    obtain rfl := List.length_eq_zero_iff.mp hlen.symm
    rfl
  | cons z zs ih =>
    obtain ⟨t, ts, rfl⟩ := List.exists_cons_of_length_eq_add_one hlen.symm
    rw [List.length_cons] at hn
    have hnext := h.next params z t
    refine vitSymbols_cons_eq_registerBytes (by omega) hnext ?_
    rw [ih (Nat.succ.inj hlen) (n := n + 1) (by omega) (by rwa [vitSymbol_prev]), vitSymbol_nbits]

/-- How many bits of a received sequence are flipped. -/
def symbolDistance (ys cs : List Symbol) : Nat := (List.zipWith hamming2 ys cs).sum

theorem symbolDistance_cons (y c : Symbol) (ys cs : List Symbol) :
    symbolDistance (y :: ys) (c :: cs) = hamming2 y c + symbolDistance ys cs := rfl

theorem symbolDistance_append {ys cs ys' cs' : List Symbol} (h : ys.length = cs.length) :
    symbolDistance (ys ++ ys') (cs ++ cs') = symbolDistance ys cs + symbolDistance ys' cs' := by
  rw [symbolDistance, List.zipWith_append h, List.sum_append, symbolDistance, symbolDistance]

/-- The symbols of the encoder for the bits `xs` with no more flipped bits than the profile tolerates, and a few of any value behind. -/
theorem vitSymbols_eq_registerBytes {xs : List Bit} {ys : List Symbol} (hlen : ys.length = xs.length) {zs : List Symbol} {ts : List Bit}
    (hzs : zs.length = ts.length) (htail : zs.length ≤ 8) {b : Nat} {p : Profile} (hp : p.Tolerates b) {enc : BitVec 11}
    (hdist : symbolDistance ys (encSymbols params xs enc) ≤ b) {r : BitVec 32} {v : Session} (h : Tracks p (encState enc) r v.prev) :
    (vitSymbols params v (ys ++ zs)).1 = registerBytes v.nbits r (xs ++ ts) := by
  induction xs generalizing ys b p enc r v with
  | nil =>
    obtain rfl := List.length_eq_zero_iff.mp hlen
    exact vitSymbols_eq_registerBytes_of_agree hzs (n := 13) (by omega) (h.allAgreeFrom hp.lagAtMost)
  | cons x xs ih =>
    obtain ⟨y, ys, rfl⟩ := List.exists_cons_of_length_eq_add_one hlen
    rw [encSymbols, symbolDistance_cons, encBit_fst_eq_edgeSymbol, hamming2_eq_hamming2_zero] at hdist
    have hnext := h.next y x
    have hp' := hp.next (Nat.le_of_add_right_le hdist)
    rw [← encState_encBit, ← vitSymbol_prev] at hnext
    have hagree := hnext.allAgreeFrom hp'.lagAtMost
    rw [vitSymbol_prev] at hagree
    refine vitSymbols_cons_eq_registerBytes (n := 13) (by omega) hagree ?_
    rw [← vitSymbol_nbits params v y]
    exact ih (Nat.succ.inj hlen) hp' (by omega) hnext

/-! ### The chunks of FEC.ENCODE as symbols (43_conv_encoder.md R127 to R129) -/

theorem encSymbols_append (p : Config.Params) (xs xs' : List Bit) (enc : BitVec 11) :
    encSymbols p (xs ++ xs') enc = encSymbols p xs enc ++ encSymbols p xs' (encRun p xs enc) := by
  induction xs generalizing enc with
  | nil => rfl
  | cons x xs ih => exact congrArg (_ :: ·) (ih _)

/-- The pairs of the encoder's bytes are its symbols for the bits of the data. -/
theorem flatMap_pairsOf_encBytes (p : Config.Params) (bs : List Byte) (enc : BitVec 11) :
    (encBytes p bs enc).flatMap pairsOf = encSymbols p (ser bs) enc := by
  induction bs generalizing enc with
  | nil => rfl
  | cons b bs ih =>
    obtain ⟨hi, lo, hbyte, hpairs⟩ := exists_encByte_eq p enc b
    rw [encBytes, hbyte, List.flatMap_append, ih, ser_cons, encSymbols_append, ← hpairs]
    rfl

/-- All symbols of a received sequence of chunks. -/
def wireSymbols (bs : List Byte) : List Symbol := (chunksOf bs).flatMap chunkSymbols

theorem chunksOf_length (bs : List Byte) : (chunksOf bs).length = bs.length / 4 := by simp [chunksOf]

theorem chunksOf_append {t : List Byte} (ht : t.length = 4) (bs : List Byte) : chunksOf (t ++ bs) = t :: chunksOf bs := by
  have hcount : (t ++ bs).length / 4 = bs.length / 4 + 1 := by rw [List.length_append, ht, Nat.add_div_left _ four_pos]
  have hfirst : slice (t ++ bs) (4 * 0) (4 * 0 + 4) = t := by simp [slice, ht]
  have hrest (k : Nat) : slice (t ++ bs) (4 * (k + 1)) (4 * (k + 1) + 4) = slice bs (4 * k) (4 * k + 4) := by
    rw [← slice_drop_four, List.drop_left' ht]
  rw [chunksOf, hcount, List.range_succ_eq_map, List.map_cons, List.map_map, hfirst]
  exact congrArg (t :: ·) (List.map_congr_left fun k _ => hrest k)

theorem wireSymbols_append {t : List Byte} (ht : t.length = 4) (bs : List Byte) :
    wireSymbols (t ++ bs) = chunkSymbols t ++ wireSymbols bs := by
  rw [wireSymbols, chunksOf_append ht, List.flatMap_cons, wireSymbols]

theorem length_of_mem_chunksOf {bs ch : List Byte} (h : ch ∈ chunksOf bs) : ch.length = 4 := by
  obtain ⟨k, hk, rfl⟩ := List.mem_map.mp h
  have hlt := List.mem_range.mp hk
  rw [slice, List.length_drop, List.length_take]
  omega

theorem wireSymbols_length (bs : List Byte) : (wireSymbols bs).length = 16 * (bs.length / 4) := by
  rw [wireSymbols, length_flatMap_chunkSymbols fun _ => length_of_mem_chunksOf, chunksOf_length]

/-- What the interleaver sends, the decoder takes in the encoder's order. -/
theorem wireSymbols_of_interleaveBlocks {n : Nat} {e out : List Byte} (h : interleaveBlocks params n e = .ok out)
    (hlen : e.length = 4 * n) : wireSymbols out = e.flatMap pairsOf := by
  induction n generalizing e out with
  | zero =>
    obtain rfl := List.length_eq_zero_iff.mp hlen
    cases h
    rfl
  | succ n ih =>
    rw [interleaveBlocks] at h
    split at h
    · cases h
    next t ht =>
      split at h
      · cases h
      next rest hrest =>
        cases h
        obtain ⟨-, hpairs⟩ := pairs_of_interleave ht
        rw [wireSymbols_append (length_of_interleave ht), hpairs, ih hrest (by rw [List.length_drop]; omega), ← List.flatMap_append,
          List.take_append_drop]

/-! ### Flipped bits on the wire -/

/-- How many bits two bytes differ in. -/
def byteDistance (a b : Byte) : Nat := symbolDistance (pairsOf a) (pairsOf b)

/-- How many bits two byte sequences of one length differ in. -/
def bytesDistance (as bs : List Byte) : Nat := (List.zipWith byteDistance as bs).sum

theorem byteDistance_self (a : Byte) : byteDistance a a = 0 := by
  simp [byteDistance, symbolDistance, pairsOf, hamming2]

theorem hamming2_pairOf_xor (b m : Byte) (k : Nat) : hamming2 (pairOf (b ^^^ m) k) (pairOf b k) = hamming2 (pairOf m k) 0#2 := by
  rw [pairOf, BitVec.extractLsb'_xor, ← pairOf, ← pairOf, hamming2_eq_hamming2_zero, BitVec.xor_comm, ← BitVec.xor_assoc, BitVec.xor_self,
    BitVec.zero_xor]

/-- Inverting one bit of a byte. -/
theorem byteDistance_xor_bit (b : Byte) {k : Nat} (hk : k < 8) : byteDistance (b ^^^ (0x80#8 >>> k)) b = 1 := by
  have hmask : ∀ k < 8, symbolDistance (pairsOf (0x80#8 >>> k)) [0#2, 0#2, 0#2, 0#2] = 1 := by decide
  rw [← hmask k hk, byteDistance]
  simp only [pairsOf, symbolDistance_cons, hamming2_pairOf_xor]

theorem bytesDistance_cons (a b : Byte) (as bs : List Byte) :
    bytesDistance (a :: as) (b :: bs) = byteDistance a b + bytesDistance as bs := rfl

theorem bytesDistance_self (bs : List Byte) : bytesDistance bs bs = 0 := by
  induction bs with
  | nil => rfl
  | cons b bs ih => rw [bytesDistance_cons, byteDistance_self, ih]

theorem bytesDistance_flipBit_le (bs : List Byte) (i : Nat) : bytesDistance (flipBit bs i) bs ≤ 1 := by
  have hi : i % 8 < 8 := Nat.mod_lt i (by decide)
  rw [flipBit]
  generalize i / 8 = k
  induction bs generalizing k with
  | nil => rw [List.modify_nil]; exact Nat.zero_le 1
  | cons b bs ih =>
    cases k with
    | zero => rw [List.modify_zero_cons, bytesDistance_cons, byteDistance_xor_bit b hi, bytesDistance_self]
    | succ k =>
      rw [List.modify_succ_cons, bytesDistance_cons, byteDistance_self, Nat.zero_add]
      exact ih k

theorem flipBit_length (bs : List Byte) (i : Nat) : (flipBit bs i).length = bs.length := List.length_modify _ _ _

/-- The order of the pairs does not matter for how many bits differ. -/
theorem symbolDistance_chunkSymbols {t u : List Byte} (ht : t.length = 4) (hu : u.length = 4) :
    symbolDistance (chunkSymbols t) (chunkSymbols u) = bytesDistance t u := by
  obtain ⟨t0, t1, t2, t3, rfl⟩ := List.length_eq_four.mp ht
  obtain ⟨u0, u1, u2, u3, rfl⟩ := List.length_eq_four.mp hu
  have hrange : List.range 4 = [0, 1, 2, 3] := rfl
  simp only [bytesDistance, byteDistance, symbolDistance, chunkSymbols, hrange, pairsOf, List.flatMap_cons, List.flatMap_nil,
    List.map_cons, List.map_nil, List.cons_append, List.nil_append, List.zipWith_cons_cons, List.zipWith_nil_left, List.sum_cons,
    List.sum_nil]
  ring

theorem symbolDistance_wireSymbols {n : Nat} {as bs : List Byte} (has : as.length = 4 * n) (hbs : bs.length = 4 * n) :
    symbolDistance (wireSymbols as) (wireSymbols bs) = bytesDistance as bs := by
  induction n generalizing as bs with
  | zero =>
    obtain rfl := List.length_eq_zero_iff.mp has
    rfl
  | succ n ih =>
    have ht : (as.take 4).length = 4 := by rw [List.length_take]; omega
    have hu : (bs.take 4).length = 4 := by rw [List.length_take]; omega
    rw [← List.take_append_drop 4 as, ← List.take_append_drop 4 bs, wireSymbols_append ht, wireSymbols_append hu,
      symbolDistance_append (by rw [chunkSymbols_length ht, chunkSymbols_length hu]), symbolDistance_chunkSymbols ht hu,
      ih (by rw [List.length_drop]; omega) (by rw [List.length_drop]; omega), bytesDistance, bytesDistance, bytesDistance,
      List.zipWith_append (by rw [ht, hu]), List.sum_append]

/-! ### What the decoder guarantees (R148) -/

/-- Encoder output for `bs`, at most one byte's symbols `tail` of any value behind it, and at most one flipped bit in all: the bytes
come out but for the last three, of which those of the tail (`pad`) may be taken to be anything. -/
theorem vitSymbols_startSession_eq_take {bs pad : List Byte} {tail ys : List Symbol} (hpad : tail.length = 8 * pad.length)
    (hle : pad.length ≤ 1) (hlen : ys.length = 8 * (bs.length + pad.length))
    (hdist : symbolDistance ys (encSymbols params (ser bs) (encStart params) ++ tail) ≤ 1) :
    (vitSymbols params (startSession params) ys).1 = (bs ++ pad).take ((bs ++ pad).length - 3) := by
  have hys : (ys.take (8 * bs.length)).length = (ser bs).length := by rw [List.length_take, ser_length]; omega
  have hzs : (ys.drop (8 * bs.length)).length = (ser pad).length := by rw [List.length_drop, ser_length]; omega
  rw [← List.take_append_drop (8 * bs.length) ys, symbolDistance_append (by rw [hys, encSymbols_length])] at hdist
  have hrun := vitSymbols_eq_registerBytes hys hzs (by rw [hzs, ser_length]; omega) Profile.tolerates_start
    (Nat.le_of_add_right_le hdist) (v := startSession params) (r := 0#32) (by rw [encState_encStart]; exact tracks_start)
  rw [List.take_append_drop, ← ser_append, startSession_nbits, registerBytes_ser] at hrun
  exact hrun

theorem padding_length (m : Nat) : (padding m).length = 2 * (m % 2) := by
  rw [padding]
  split
  next h => rw [h]; rfl
  next h => rw [Nat.mod_two_ne_one.mp h]; rfl

/-- Chunks that differ from those of FEC.ENCODE in at most one bit decode to the data, as far as they reach. -/
theorem vitSendAll_of_bytesDistance_le_one {data coded received : List Byte} (hfec : fecEncode params data = .ok coded)
    (hlen : received.length = coded.length) (hdist : bytesDistance received coded ≤ 1) :
    ∃ v, vitSendAll params (startSession params) (chunksOf received) = .ok (data.take (2 * (chunksOf coded).length - 3), v) := by
  obtain ⟨out, hout, houtlen, hblocks⟩ := exists_fecEncode_eq_ok params data
  obtain rfl := Except.ok.inj (hfec.symm.trans hout)
  rw [houtlen] at hlen
  rw [← symbolDistance_wireSymbols hlen houtlen, wireSymbols_of_interleaveBlocks hblocks (encodedData_padded_length params data),
    List.flatMap_append, encodedData, flatMap_pairsOf_encBytes] at hdist
  obtain ⟨pad, hpad⟩ : ∃ pad : List Byte, pad.length = data.length % 2 := ⟨List.replicate _ 0#8, List.length_replicate⟩
  have htail : ((padding data.length).flatMap pairsOf).length = 8 * pad.length := by
    rw [flatMap_pairsOf_length, padding_length, hpad]
    omega
  have hterm : (data ++ terminator).length = data.length + 2 := List.length_append
  have hrun := vitSymbols_startSession_eq_take htail (by omega) (by rw [wireSymbols_length, hterm]; omega) hdist
  have hcount : (data ++ terminator ++ pad).length - 3 = 2 * (chunksOf coded).length - 3 := by
    rw [List.length_append, hterm, chunksOf_length]
    omega
  rw [hcount, chunksOf_length, List.append_assoc, List.take_append_of_le_length (by omega), ← chunksOf_length] at hrun
  rw [vitSendAll_eq_vitSymbols _ fun _ => length_of_mem_chunksOf, ← hrun]
  exact ⟨_, rfl⟩

/-- Settles O27: no bit is flipped, and what comes out ends before the terminator. -/
theorem viterbiDecodesCleanInput : Obligations.ViterbiDecodesCleanInput := by
  intro data
  obtain ⟨coded, hfec, hlen, -⟩ := exists_fecEncode_eq_ok params data
  obtain ⟨v, hv⟩ := vitSendAll_of_bytesDistance_le_one hfec rfl ((bytesDistance_self coded).trans_le (Nat.zero_le 1))
  refine ⟨coded, v, hfec, ?_⟩
  rw [hv, List.take_append_of_le_length (by rw [chunksOf_length]; omega)]

/-- Settles O28: one bit is flipped. -/
theorem viterbiCorrectsOneFlippedBit : Obligations.ViterbiCorrectsOneFlippedBit :=
  fun _ coded i hfec _ => vitSendAll_of_bytesDistance_le_one hfec (flipBit_length coded i) (bytesDistance_flipBit_le coded i)

end Machine
end Sys2Proof

/-! Proofs for the family 45_framer.md: where each bit of a byte sequence stands in its bit sequence, packing undone by serializing,
the sizes of the sections of a frame, and the frame that FRM.ENCODE answers. -/

namespace Sys2Proof
namespace Machine

/-! ### The bits of a byte sequence (R162, 20_memory.md R46) -/

theorem serByte_getElem? (b : Byte) (j : Fin 8) : (serByte b)[j.val]? = some (b.getLsbD (7 - j.val)) := by
  fin_cases j <;> rfl

/-- Byte `i` has the eight places from `8 * i` on, its most significant bit first. -/
theorem ser_getElem? {f : List Byte} {i : Nat} {b : Byte} (h : f[i]? = some b) (j : Fin 8) :
    (ser f)[8 * i + j.val]? = some (b.getLsbD (7 - j.val)) := by
  induction f generalizing i with
  | nil => cases h
  | cons a f ih =>
    rw [ser_cons]
    cases i with
    | zero =>
      obtain rfl := Option.some.inj h
      rw [Nat.mul_zero, Nat.zero_add, List.getElem?_append_left j.isLt, serByte_getElem?]
    | succ i =>
      have hplace : 8 * (i + 1) + j.val - (serByte a).length = 8 * i + j.val := by rw [serByte_length]; omega
      rw [List.getElem?_append_right (by rw [serByte_length]; omega), hplace]
      exact ih h

/-- Each bit is shifted up by the bits behind it, to its own place. -/
theorem packByte_serByte (b : Byte) : packByte (serByte b) = b := by
  refine BitVec.eq_of_getLsbD_eq fun i hi => ?_
  interval_cases i <;> simp [packByte, serByte]

/-- Eight bits in front are one byte in front. -/
theorem pack_serByte_append (b : Byte) (q : List Bit) : pack (serByte b ++ q) = b :: pack q := by
  have hcount : (serByte b ++ q).length / 8 = q.length / 8 + 1 := by rw [List.length_append, serByte_length]; omega
  rw [pack, hcount, packBytes, List.take_left' (serByte_length b), List.drop_left' (serByte_length b), packByte_serByte, pack]

/-- Packing undoes serializing (00_scope.md R9). -/
@[simp] theorem pack_ser (f : List Byte) : pack (ser f) = f := by
  induction f with
  | nil => rfl
  | cons b f ih => rw [ser_cons, pack_serByte_append, ih]

/-- Settles O30: FRM.SERIALIZE answers `Ser(f)`. -/
theorem frmSerializeMostSignificantFirst : Obligations.FrmSerializeMostSignificantFirst := fun _ f hf =>
  ⟨ser f, guarded_running hf _, ser_length f, fun _ _ h => ser_getElem? h, pack_ser f⟩

/-! ### The sizes of the sections (30_encoding.md R68) -/

section sizes
variable {m : Message} (hm : 2 ≤ m.length)
include hm

/-- HWID moves behind Rest; Length and Flags are new. -/
theorem plainSection_length (flags : Byte) : (plainSection flags m).length = m.length + 2 := by
  simp only [plainSection, List.length_append, List.length_cons, List.length_nil, List.length_drop, List.length_take]
  omega

theorem dataSection_length (flags : Byte) : (dataSection flags m).length = m.length + 4 := by
  rw [dataSection, List.length_append, plainSection_length hm, crcBytes_length]

end sizes

/-- Whitening keeps the size (R158). -/
theorem whitenSection_length (c : Cfg) (ds : List Byte) : (whitenSection c ds).length = ds.length := by
  rw [whitenSection]
  split
  · exact whiten_length ds pn9Seed
  · rfl

/-! ### The frame (R156 to R160) -/

/-- Every message that has its HWID gives a frame, since FEC.ENCODE raises no error (R159). -/
theorem exists_frame_eq_ok (p : Config.Params) (c : Cfg) {m : Message} (hm : 2 ≤ m.length) :
    ∃ coded : List Byte,
      frame p c m = .ok (preamble c ++ syncWord c ++ coded) ∧
      (if c.fecEn then fecEncode p (whitenSection c (dataSection c.flags m)) = .ok coded
        else coded = whitenSection c (dataSection c.flags m)) ∧
      coded.length = if c.fecEn then 4 * ((m.length + 7) / 2) else m.length + 4 := by
  have hsize := (whitenSection_length c _).trans (dataSection_length hm c.flags)
  rw [frame]
  cases c.fecEn with
  | false => exact ⟨_, rfl, rfl, hsize⟩
  | true =>
    obtain ⟨coded, hfec, hlen, -⟩ := exists_fecEncode_eq_ok p (whitenSection c (dataSection c.flags m))
    rw [hsize] at hlen
    exact ⟨coded, by simp only [if_true, hfec], hfec, hlen⟩

/-! ### FRM.ENCODE (R156, R161) -/

section frmEncode
variable {s : State} {m : Message} (hf : s.fault = false)
include hf

theorem exec_frmEncode_notConfigured (hl : s.cfgLoaded = false) : exec (.frmEncode m) s = .next (raise .notConfigured s) := by
  change execFrmEncodeWith params m s = _
  rw [execFrmEncodeWith, guarded_running hf, if_pos hl]

variable (hl : s.cfgLoaded = true)
include hl

theorem exec_frmEncode_badLength (hm : m.length < 2 ∨ 252 < m.length) :
    exec (.frmEncode m) s = .next (raise (.badMessageLength m.length) s) := by
  change execFrmEncodeWith params m s = _
  rw [execFrmEncodeWith, guarded_running hf, if_neg (ne_false_of_eq_true hl), if_pos hm]

theorem exec_frmEncode_of_frame {c : Cfg} {f : List Byte} (hc : s.cfg = some c) (hm : ¬ (m.length < 2 ∨ 252 < m.length))
    (h : frame params c m = .ok f) : exec (.frmEncode m) s = .next (respond (.bytes f) [] s) := by
  change execFrmEncodeWith params m s = _
  rw [execFrmEncodeWith, guarded_running hf, if_neg (ne_false_of_eq_true hl), if_neg hm, hc]
  simp only [h]

end frmEncode

/-- Settles O29: the sections are the model's own, and both errors are refusals, which leave the fault latch alone. -/
theorem frmEncodeBuildsTheFrame : Obligations.FrmEncodeBuildsTheFrame := by
  refine ⟨fun s c m hf hl hc hmin hmax => ?_, fun s m hf hl => ?_, fun s m hf hl hm => ?_⟩
  · obtain ⟨coded, hframe, hcoded, hlen⟩ := exists_frame_eq_ok params c hmin
    exact ⟨coded, plainSection c.flags m, dataSection c.flags m, whitenSection c (dataSection c.flags m),
      exec_frmEncode_of_frame hf hl hc (by omega) hframe, rfl, rfl, rfl, hcoded, hlen⟩
  · rw [exec_frmEncode_notConfigured hf hl, raise_of_not_fatal isFatal_notConfigured]
  · rw [exec_frmEncode_badLength hf hl hm, raise_of_not_fatal (isFatal_badMessageLength _)]

end Machine
end Sys2Proof

/-! Proofs for the family 46_deframer.md: the checksum of a sequence with one byte changed, CFG.LOAD, what each rule of the deframer makes
of bits that are the serialisation of known bytes, and the round trip, which is the run of moves those rules make over a frame. -/

namespace Sys2Proof
namespace Machine
open Claims

/-! ### CRC.VERIFY catches one changed byte (R192(b)) -/

/-- A fold of injective steps is injective in its start. -/
theorem foldl_injective {α β : Type} {f : α → β → α} (hf : ∀ x, Function.Injective (f · x)) (xs : List β) :
    Function.Injective (xs.foldl f ·) := by
  induction xs with
  | nil => exact Function.injective_id
  | cons x xs ih => exact ih.comp (hf x)

/-- The polynomial's bit 0 is set, so the feedback stands in bit 0 of the result (41_crc16.md R102). -/
theorem crcStep_getLsbD_zero (c : BitVec 16) (x : Bit) : (crcStep c x).getLsbD 0 = (c.getLsbD 15 ^^ x) := by
  rw [crcStep]
  split <;> simp_all [crcPoly]

/-- The feedback gives back the top bit, and without it the rest has only moved one place. -/
theorem crcStep_injective (x : Bit) : Function.Injective (crcStep · x) := by
  intro c c' h
  have hfeedback : (c.getLsbD 15 ^^ x) = (c'.getLsbD 15 ^^ x) := by
    rw [← crcStep_getLsbD_zero, ← crcStep_getLsbD_zero]
    exact congrArg (·.getLsbD 0) h
  have hshift : c <<< 1 = c' <<< 1 := by
    simp only [crcStep, hfeedback] at h
    split at h
    · exact BitVec.xor_left_inj _ |>.mp h
    · exact h
  refine BitVec.eq_of_getLsbD_eq fun i hi => ?_
  obtain rfl | hlow := Nat.eq_or_lt_of_le (Nat.le_of_lt_succ hi)
  · exact Bool.xor_left_inj.mp hfeedback
  · have hbit (r : BitVec 16) : (r <<< 1).getLsbD (i + 1) = r.getLsbD i := by
      simp [Nat.succ_lt_succ hlow, BitVec.getLsbD_eq_getElem hi]
    rw [← hbit c, hshift, hbit]

theorem crcByte_injective (b : Byte) : Function.Injective (crcByte · b) := foldl_injective crcStep_injective (serByte b)

/-- The step is linear over xor, as the polynomial division it makes is (R102). -/
theorem crcStep_xor (c c' : BitVec 16) (x x' : Bit) : crcStep (c ^^^ c') (x ^^ x') = crcStep c x ^^^ crcStep c' x' := by
  have hpoly (a b : Bool) (p : BitVec 16) :
      (if (a ^^ b) = true then p else 0#16) = (if a = true then p else 0#16) ^^^ (if b = true then p else 0#16) := by
    cases a <;> cases b <;> simp
  have htop : ((c ^^^ c').getLsbD 15 ^^ (x ^^ x')) = ((c.getLsbD 15 ^^ x) ^^ (c'.getLsbD 15 ^^ x')) := by
    rw [BitVec.getLsbD_xor]
    simp only [Bool.xor_assoc, Bool.xor_left_comm]
  simp only [crcStep_eq_crcStepSpec, crcStepSpec, htop, hpoly, BitVec.shiftLeft_xor_distrib]
  ac_rfl

theorem foldl_crcStep_xor {xs xs' : List Bit} (hlen : xs.length = xs'.length) (c c' : BitVec 16) :
    (List.zipWith Bool.xor xs xs').foldl crcStep (c ^^^ c') = xs.foldl crcStep c ^^^ xs'.foldl crcStep c' := by
  induction xs generalizing xs' c c' with
  | nil =>
    obtain rfl := List.length_eq_zero_iff.mp hlen.symm
    rfl
  | cons x xs ih =>
    obtain ⟨x', xs', rfl⟩ := List.exists_cons_of_length_eq_add_one hlen.symm
    rw [List.zipWith_cons_cons, List.foldl_cons, List.foldl_cons, List.foldl_cons, crcStep_xor, ih (Nat.succ.inj hlen)]

theorem crcByte_xor (c c' : BitVec 16) (b b' : Byte) : crcByte (c ^^^ c') (b ^^^ b') = crcByte c b ^^^ crcByte c' b' := by
  have hlen : (serByte b).length = (serByte b').length := rfl
  rw [crcByte, serByte_xor, foldl_crcStep_xor hlen, crcByte, crcByte]

/-- Any byte but 0 leaves a mark on the zero register. -/
theorem eq_zero_of_crcByte_zero : ∀ b : Byte, crcByte 0#16 b = 0#16 → b = 0#8 := by decide +kernel

/-- Two bytes that leave one register in the same value differ by a byte that leaves no mark. -/
theorem crcByte_right_injective (c : BitVec 16) : Function.Injective (crcByte c) := by
  intro b b' h
  refine BitVec.xor_eq_zero_iff.mp (eq_zero_of_crcByte_zero _ ?_)
  rw [← BitVec.xor_self (x := c), crcByte_xor, h, BitVec.xor_self, BitVec.xor_self]

/-- One byte of the data changed changes the checksum: the registers part at that byte and no later byte joins them. -/
theorem foldl_crcByte_set_ne {data : List Byte} {i : Nat} {b : Byte} (hi : i < data.length) (hb : data[i]? ≠ some b) (c : BitVec 16) :
    (data.set i b).foldl crcByte c ≠ data.foldl crcByte c := by
  induction data generalizing i c with
  | nil => exact absurd hi (Nat.not_lt_zero i)
  | cons x data ih =>
    cases i with
    | zero =>
      intro h
      obtain rfl : b = x := crcByte_right_injective c (foldl_injective crcByte_injective data h)
      exact hb rfl
    | succ i => exact ih (Nat.lt_of_succ_lt_succ hi) hb (crcByte c x)

theorem exists_eq_append_pair {f : List Byte} (h : ¬ f.length < 2) : ∃ data lo hi, f = data ++ [lo, hi] := by
  obtain ⟨lo, hi, hpair⟩ : ∃ lo hi, f.drop (f.length - 2) = [lo, hi] := List.length_eq_two.mp (by rw [List.length_drop]; omega)
  exact ⟨f.take (f.length - 2), lo, hi, by rw [← hpair, List.take_append_drop]⟩

section crcVerify
variable {s : State} (hf : s.fault = false)
include hf

theorem exec_crcVerify_mismatch {data : List Byte} {lo hi : Byte} (h : crc16 data ≠ hi ++ lo) :
    exec (.crcVerify (data ++ [lo, hi])) s =
      .next { s with result := .error (.crcError (crc16 data) (hi ++ lo)), events := [] } := by
  rw [exec_crcVerify_append hf, if_neg h, raise_of_not_fatal (isFatal_crcError _ _)]

/-- A sequence that verifies is data with the data's checksum behind it (41_crc16.md R105). -/
theorem eq_append_crc_of_exec_crcVerify {f : List Byte} {t : State} (h : exec (.crcVerify f) s = .next t) (hok : t.result = .ok) :
    ∃ data lo hi, f = data ++ [lo, hi] ∧ crc16 data = hi ++ lo := by
  by_cases hlen : f.length < 2
  · rw [exec_crcVerify_short hf hlen] at h
    cases h
    cases hok
  · obtain ⟨data, lo, hi, rfl⟩ := exists_eq_append_pair hlen
    refine ⟨data, lo, hi, rfl, not_not.mp fun hne => ?_⟩
    rw [exec_crcVerify_mismatch hf hne] at h
    cases h
    cases hok

end crcVerify

/-- Settles O12: the changed byte changes the computed checksum, or the low or the high byte of the received one. -/
theorem crcVerifyCatchesOneChangedByte : Obligations.CrcVerifyCatchesOneChangedByte := by
  intro s t f i b hf hlt hb hexec hok
  obtain ⟨data, lo, hi, rfl, hcrc⟩ := eq_append_crc_of_exec_crcVerify hf hexec hok
  by_cases hdata : i < data.length
  · rw [List.getElem?_append_left hdata] at hb
    rw [List.set_append_left _ _ hdata]
    exact ⟨_, _, exec_crcVerify_mismatch hf fun h => foldl_crcByte_set_ne hdata hb crcInit (h.trans hcrc.symm)⟩
  · rw [List.getElem?_append_right (Nat.not_lt.mp hdata)] at hb
    rw [List.set_append_right _ _ (Nat.not_lt.mp hdata)]
    obtain hlow | hhigh : i - data.length = 0 ∨ i - data.length = 1 := by
      rw [List.length_append, List.length_cons, List.length_singleton] at hlt
      omega
    · rw [hlow] at hb ⊢
      refine ⟨_, _, exec_crcVerify_mismatch hf fun h => hb ?_⟩
      exact congrArg some ((BitVec.append_right_inj hi).mp (hcrc.symm.trans h))
    · rw [hhigh] at hb ⊢
      refine ⟨_, _, exec_crcVerify_mismatch hf fun h => hb ?_⟩
      exact congrArg some ((BitVec.append_left_inj lo).mp (hcrc.symm.trans h))

/-! ### CFG.LOAD (R170) -/

theorem exec_cfgLoad_problem {s : State} (hf : s.fault = false) {r : CfgRecord} {k : ConfigCheck} (h : configProblem s.cfgLoaded r = some k) :
    exec (.cfgLoad r) s = .next { s with result := .error (.configError k), events := [] } := by
  change execCfgLoad r s = _
  rw [execCfgLoad, guarded_running hf, h, ← raise_of_not_fatal (isFatal_configError k)]

theorem exec_cfgLoad_loads {s : State} (hf : s.fault = false) {r : CfgRecord} (h : configProblem s.cfgLoaded r = none) :
    exec (.cfgLoad r) s = .next (respond .none [] { s with cfg := some (cfgOfRecord r), cfgLoaded := true }) := by
  change execCfgLoad r s = _
  rw [execCfgLoad, guarded_running hf, h]

/-- With a SYNC_REP of 1 or 2 the range check is over the other eight fields. -/
theorem inRange_eq_false_iff {r : CfgRecord} (hsync : ¬ (r.syncRep ≠ 1 ∧ r.syncRep ≠ 2)) :
    inRange r = false ↔ 256 ≤ r.preambleLen ∨ 2048 ≤ r.quality ∨ 256 ≤ r.sync0 ∨ 256 ≤ r.sync1 ∨ 256 ≤ r.flags ∨ 256 ≤ r.flagsMask ∨
      2 ≤ r.fecEn ∨ 2 ≤ r.whitenEn := by
  rw [← Bool.not_eq_true]
  simp only [inRange, Bool.and_eq_true, decide_eq_true_eq]
  omega

theorem decide_eq_one_toNat {n : Nat} (h : n < 2) : (decide (n = 1)).toNat = n := by
  interval_cases n <;> rfl

/-- Settles O31: the checks of `configProblem`, one after the other, and no field in range loses a bit. -/
theorem cfgLoadChecksInOrder : Obligations.CfgLoadChecksInOrder := by
  intro s r hf
  split_ifs with hloaded hsync hpre hrange
  · exact exec_cfgLoad_problem hf (if_pos hloaded)
  · exact exec_cfgLoad_problem hf (by rw [configProblem, if_neg hloaded, if_pos hsync])
  · exact exec_cfgLoad_problem hf (by rw [configProblem, if_neg hloaded, if_neg hsync, if_pos hpre])
  · rw [← inRange_eq_false_iff hsync] at hrange
    exact exec_cfgLoad_problem hf (by rw [configProblem, if_neg hloaded, if_neg hsync, if_neg hpre, if_pos hrange])
  · have hin := mt (inRange_eq_false_iff hsync).mp hrange
    refine ⟨cfgOfRecord r,
      exec_cfgLoad_loads hf (by rw [configProblem, if_neg hloaded, if_neg hsync, if_neg hpre, if_neg hin]), ?_⟩
    push Not at hrange hsync
    obtain ⟨hpreamble, hquality, hsync0, hsync1, hflags, hmask, hfec, hwhiten⟩ := hrange
    have hrep : r.syncRep < 2 ^ 2 := by omega
    exact ⟨Nat.mod_eq_of_lt hpreamble, Nat.mod_eq_of_lt hquality, Nat.mod_eq_of_lt hsync0, Nat.mod_eq_of_lt hsync1,
      Nat.mod_eq_of_lt hrep, Nat.mod_eq_of_lt hflags, Nat.mod_eq_of_lt hmask, decide_eq_one_toNat hfec, decide_eq_one_toNat hwhiten⟩

/-! ### DFR.PUSH and DFR.RESET (R172 to R174) -/

/-- Settles O34: the run of moves that the invariant guarantees. -/
theorem dfrPushRunsUntilAStepWaits : Obligations.DfrPushRunsUntilAStepWaits :=
  fun _ q hf hl hinv => exec_dfrPush_moves q hinv hf hl

/-- Settles O36: the write reads neither the deframer nor the configuration. -/
theorem dfrResetClearsOnlyTheDeframer : Obligations.DfrResetClearsOnlyTheDeframer := fun _ hf => guarded_running hf _

/-! ### The bits of whole bytes (20_memory.md R46) -/

theorem serByte_packByte {q : List Bit} (h : q.length = 8) : serByte (packByte q) = q := by
  match q, h with
  | [_, _, _, _, _, _, _, _], _ => simp [packByte, serByte]

/-- Serializing undoes packing where no bits are left over (00_scope.md R9). -/
theorem ser_pack {n : Nat} {q : List Bit} (h : q.length = 8 * n) : ser (pack q) = q := by
  induction n generalizing q with
  | zero =>
    obtain rfl := List.length_eq_zero_iff.mp h
    rfl
  | succ n ih =>
    have hfirst : (q.take 8).length = 8 := by rw [List.length_take]; omega
    have hrest : (q.drop 8).length = 8 * n := by rw [List.length_drop]; omega
    rw [← List.take_append_drop 8 q, ← serByte_packByte hfirst, pack_serByte_append, ser_cons, ih hrest]

theorem pack_eq_iff {q : List Bit} {f : List Byte} (h : q.length = 8 * f.length) : pack q = f ↔ q = ser f :=
  ⟨fun hpack => by rw [← hpack, ser_pack h], fun hser => by rw [hser, pack_ser]⟩

/-! ### Whole bytes at the head of the bit buffer (R41) -/

section front
variable {d : Deframer} {raw : List Byte} {rest : List Bit} {n : Nat} (h : d.bitbuf = ser raw ++ rest) (hn : n = 8 * raw.length)
include h hn

theorem bufLen_front_not_lt : ¬ bufLen d < n := by
  rw [bufLen, h, List.length_append, ser_length]
  omega

theorem bufPeek_front : bufPeek n d = ser raw := by
  rw [bufPeek, h, List.take_left' (by rw [ser_length, hn])]

theorem bufDrop_front : bufDrop n d = { d with bitbuf := rest } := by
  rw [bufDrop, h, List.drop_left' (by rw [ser_length, hn])]

end front

/-! ### An internal operation that `fstate` selects is its rule (R173) -/

section internalStep
variable {s : State} (hf : s.fault = false) {f : FState} (hsel : s.dfr.fstate = f) {op : Byte} {rule : Deframer → StepOutcome}
include hf hsel

theorem internalStep_wait (h : rule s.dfr = .wait) :
    internalStep f op rule s = .next { s with result := .progress false, events := [] } := by
  rw [internalStep, guarded_running hf, if_neg (not_not.mpr hsel), h]
  rfl

theorem internalStep_moved {d : Deframer} {ev : List Event} (h : rule s.dfr = .moved d ev) :
    internalStep f op rule s = .next { s with dfr := d, result := .progress true, events := ev } := by
  rw [internalStep, guarded_running hf, if_neg (not_not.mpr hsel), h]
  rfl

end internalStep

/-! ### DFR.STEP.SeekingPreamble (R175, R178) -/

/-- `Match` counts the places that hold the pattern's bit: `expected` at the even ones, the other bit at the odd ones. -/
theorem length_filter_range_eq_matchCount (expected : Bit) (w : List Bit) :
    ((List.range w.length).filter fun i => w[i]? == some ((i % 2 == 0) == expected)).length = matchCount expected w := by
  induction w generalizing expected with
  | nil => rfl
  | cons x xs ih =>
    have hshift (i : Nat) : (((i + 1) % 2 == 0) == expected) = ((i % 2 == 0) == !expected) := by
      obtain h | h := Nat.mod_two_eq_zero_or_one i <;> simp [Nat.add_mod, h]
    rw [List.length_cons, List.range_succ_eq_map, List.filter_cons, List.filter_map, matchCount, ← ih (!expected)]
    by_cases hx : x = expected <;> simp [hx, hshift, Function.comp_def, Nat.add_comm]

theorem length_filter_eq_matchCount {p : Nat} {w : List Bit} (hw : w.length = p) :
    ((List.range p).filter fun i => w[i]? == some (i % 2 == 0)).length = matchCount true w := by
  rw [← length_filter_range_eq_matchCount, hw]
  simp only [beq_true]

section seekingPreamble
variable {c : Cfg} {d : Deframer}

theorem preambleLen_pos (hc : c.Legal) : 0 < c.preambleLen.toNat := by
  obtain ⟨hpre, -⟩ := hc
  exact Nat.pos_of_ne_zero fun h0 => hpre (BitVec.eq_of_toNat_eq h0)

theorem preambleBits_pos (hc : c.Legal) : 0 < preambleBits c := Nat.mul_pos (by decide) (preambleLen_pos hc)

theorem stepSeekingPreamble_wait (h : bufLen d < preambleBits c) : stepSeekingPreamble (some c) d = .wait := if_pos (.inl h)

theorem stepSeekingPreamble_accept (hpos : 0 < preambleBits c) (hlen : ¬ bufLen d < preambleBits c)
    (h : d.bitbuf.head? = some true ∧ c.quality.toNat ≤ matchCount true (bufPeek (preambleBits c) d)) :
    stepSeekingPreamble (some c) d =
      .moved { d with bitbuf := d.bitbuf.drop (preambleBits c), fstate := .seekingSyncWord } [] := by
  obtain ⟨⟨⟩, -⟩ | ⟨_, ⟨⟩, ⟨hwait, -⟩ | ⟨-, -, -, -, hs⟩ | ⟨-, -, hreject, -⟩⟩ := stepSeekingPreamble_cases (some c) d
  · omega
  · exact hs
  · exact absurd h hreject

theorem stepSeekingPreamble_reject (hpos : 0 < preambleBits c) (hlen : ¬ bufLen d < preambleBits c)
    (h : ¬ (d.bitbuf.head? = some true ∧ c.quality.toNat ≤ matchCount true (bufPeek (preambleBits c) d))) :
    stepSeekingPreamble (some c) d = .moved { d with bitbuf := d.bitbuf.drop 1 } [] := by
  obtain ⟨⟨⟩, -⟩ | ⟨_, ⟨⟩, ⟨hwait, -⟩ | ⟨-, -, hhead, hmatch, -⟩ | ⟨-, -, -, hs⟩⟩ := stepSeekingPreamble_cases (some c) d
  · omega
  · exact absurd ⟨hhead, hmatch⟩ h
  · exact hs

end seekingPreamble

/-- Settles O37: the window is the P bits that the rule peeks at, and its first bit the buffer's. -/
theorem seekingPreambleStep : Obligations.SeekingPreambleStep := by
  intro s c hf hsel hc hlegal p w matching
  have hpos : 0 < p := preambleBits_pos hlegal
  have hhead : w[0]? = s.dfr.bitbuf.head? := by rw [List.getElem?_take_of_lt hpos, List.head?_eq_getElem?]
  split_ifs with hlen haccept
  · exact internalStep_wait hf hsel (by rw [hc]; exact stepSeekingPreamble_wait hlen)
  all_goals
    have hw : w.length = p := by rw [List.length_take]; omega
    rw [show matching = _ from length_filter_eq_matchCount hw, hhead] at haccept
  · exact internalStep_moved hf hsel (by rw [hc]; exact stepSeekingPreamble_accept hpos hlen haccept)
  · exact internalStep_moved hf hsel (by rw [hc]; exact stepSeekingPreamble_reject hpos hlen haccept)

/-! ### DFR.STEP.SeekingSyncWord (R180) -/

theorem syncWord_length (c : Cfg) : (syncWord c).length = 2 * c.syncRep.toNat := by
  simp [syncWord, Nat.mul_comm]

theorem syncBits_eq (c : Cfg) : syncBits c = 8 * (syncWord c).length := by
  rw [syncBits, syncWord_length]
  omega

section seekingSyncWord
variable {c : Cfg} {d : Deframer}

theorem stepSeekingSyncWord_wait (h : bufLen d < syncBits c) : stepSeekingSyncWord (some c) d = .wait := if_pos h

/-- The exact compare of bytes is the exact compare of bits. -/
theorem stepSeekingSyncWord_eq (hlen : ¬ bufLen d < syncBits c) :
    stepSeekingSyncWord (some c) d =
      if bufPeek (syncBits c) d = ser (syncWord c) then
        .moved { d with
          bitbuf := d.bitbuf.drop (syncBits c), fstate := if c.fecEn then .awaitingLengthFEC else .awaitingLength } []
      else .moved { d with bitbuf := d.bitbuf.drop 1, fstate := .seekingPreamble } [] := by
  have hpeek : (bufPeek (syncBits c) d).length = 8 * (syncWord c).length := by
    rw [bufPeek_length, ← syncBits_eq]
    omega
  simp only [stepSeekingSyncWord, if_neg hlen, pack_eq_iff hpeek]
  rfl

end seekingSyncWord

/-- Settles O38: the rule compares the packed bits with the sync word, which is the compare of the bits themselves. -/
theorem seekingSyncWordStep : Obligations.SeekingSyncWordStep := by
  intro s c hf hsel hc _ word n
  split
  next hlen => exact internalStep_wait hf hsel (by rw [hc]; exact stepSeekingSyncWord_wait hlen)
  next hlen =>
    have hstep := stepSeekingSyncWord_eq hlen
    split
    next hword => exact internalStep_moved hf hsel (by rw [hc, hstep]; exact if_pos hword)
    next hword => exact internalStep_moved hf hsel (by rw [hc, hstep]; exact if_neg hword)

/-! ### DFR.STEP.AwaitingLength (R182) -/

/-- What a fresh whitening register gives for the Length byte, and the register it retains for the bytes behind (40_whitening.md R96). -/
theorem pn9Next_pn9Seed : pn9Next pn9Seed = (0xFF#8, 0x1E1#9) := by decide

theorem stepAwaitingLength_byte {c : Cfg} {d : Deframer} {b : Byte} {rest : List Bit} (h : d.bitbuf = ser [b] ++ rest) :
    stepAwaitingLength (some c) d =
      .moved { d with
        bitbuf := rest, fstate := .awaitingData,
        length := some (if c.whitenEn then b ^^^ 0xFF#8 else b),
        pn9 := if c.whitenEn then some 0x1E1#9 else d.pn9 } [] := by
  have hpeek : packByte (bufPeek 8 d) = b := by rw [bufPeek_front (n := 8) h rfl]; exact packByte_serByte b
  obtain ⟨hlt, -⟩ | ⟨-, ⟨⟩, -⟩ | ⟨_, -, ⟨⟩, hs⟩ := stepAwaitingLength_cases (some c) d
  · exact absurd hlt (bufLen_front_not_lt h rfl)
  · rw [hs, hpeek, bufDrop_front (n := 8) h rfl, pn9Next_pn9Seed]

/-- Settles O39: without 8 bits the rule reads nothing, and eight bits are the byte they serialise. -/
theorem awaitingLengthStep : Obligations.AwaitingLengthStep :=
  ⟨fun _ hf hsel hlen => internalStep_wait hf hsel (if_pos hlen),
    fun _ _ _ _ hf hsel hc hbuf => internalStep_moved hf hsel (by rw [hc]; exact stepAwaitingLength_byte hbuf)⟩

/-! ### DFR.STEP.AwaitingLengthFEC (R183) -/

/-- Of the first two chunks of a session the first gives nothing, so the one byte is the second's (44_viterbi.md R146). -/
theorem vitSend_of_two_fresh_chunks {a b : List Byte} (ha : a.length = 4) (hb : b.length = 4) {x : Byte} {v2 : Session}
    (h : vitSendAll params (startSession params) [a, b] = .ok ([x], v2)) :
    ∃ v1, vitSend params (startSession params) a = .ok ([], v1) ∧ vitSend params v1 b = .ok ([x], v2) := by
  have hnone : (vitSymbols params (startSession params) (chunkSymbols a)).1 = [] := by
    rw [← List.length_eq_zero_iff, vitSymbols_startSession_length, chunkSymbols_length ha]
    rfl
  have hfirst := vitSend_eq_vitSymbols (startSession params) ha
  have hsecond := vitSend_eq_vitSymbols (vitSymbols params (startSession params) (chunkSymbols a)).2 hb
  simp only [vitSendAll, hfirst, hsecond, hnone, List.nil_append, List.append_nil] at h
  exact ⟨_, by rw [hfirst, ← hnone], hsecond.trans h⟩

theorem stepAwaitingLengthFEC_bytes {c : Cfg} {d : Deframer} {raw : List Byte} {rest : List Bit} {x : Byte} {v : Session}
    (hraw : raw.length = 8) (h : d.bitbuf = ser raw ++ rest)
    (hsend : vitSendAll params (startSession params) [raw.take 4, raw.drop 4] = .ok ([x], v)) :
    stepAwaitingLengthFEC params (some c) d =
      .moved {
        fstate := .awaitingDataFEC, bitbuf := rest, decbuf := [], vit := some v,
        length := some (if c.whitenEn then x ^^^ 0xFF#8 else x),
        pn9 := if c.whitenEn then some 0x1E1#9 else d.pn9 } [] := by
  have hbits : 64 = 8 * raw.length := by rw [hraw]
  obtain ⟨hlt, -⟩ | ⟨-, ⟨⟩, -⟩ | ⟨_, x', v', -, ⟨⟩, -, hsend', hs⟩ := stepAwaitingLengthFEC_cases params (some c) d
  · exact absurd hlt (bufLen_front_not_lt h hbits)
  · rw [bufPeek_front h hbits, pack_ser, hsend] at hsend'
    cases hsend'
    rw [hs, bufDrop_front h hbits, pn9Next_pn9Seed]

/-- Settles O40: the two halves of the 64 bits are the first two chunks of a session. -/
theorem awaitingLengthFecStep : Obligations.AwaitingLengthFecStep := by
  refine ⟨fun _ hf hsel hlen => internalStep_wait hf hsel (if_pos hlen), fun s c raw rest hf hsel hc hraw hbuf => ?_⟩
  have ha : (raw.take 4).length = 4 := by rw [List.length_take]; omega
  have hb : (raw.drop 4).length = 4 := by rw [List.length_drop]; omega
  obtain ⟨x, v2, hall, hn⟩ := vitSend_two_fresh_chunks params _ _ ha hb
  obtain ⟨v1, hfirst, hsecond⟩ := vitSend_of_two_fresh_chunks ha hb hall
  exact ⟨x, v1, v2, hfirst, hsecond, hn,
    internalStep_moved hf hsel (by rw [hc]; exact stepAwaitingLengthFEC_bytes hraw hbuf hall)⟩

/-! ### DFR.VALIDATE (R188, R189) -/

theorem crcPair_cons {len : Byte} {body : List Byte} (hlen : 2 ≤ body.length) :
    crcPair (len :: body) =
      (crc16 (len :: body.take (body.length - 2)), body.getD (body.length - 1) 0#8 ++ body.getD (body.length - 2) 0#8) := by
  obtain ⟨data, lo, hi, rfl⟩ := exists_eq_append_pair (Nat.not_lt.mpr hlen)
  rw [← List.cons_append, crcPair_append]
  simp

/-- The report of R188 is the model's judgement on a body of exactly `len` bytes. -/
theorem judge_eq_reportOf (c : Cfg) {len : Byte} {body : List Byte} (hbody : body.length = len.toNat) :
    judge (some c) len body = .ok (reportOf c len body) := by
  have hhead : body.headD 0#8 = body.getD 0 0#8 := by cases body <;> rfl
  by_cases hlen : len.toNat < 5
  · rw [judge, bodyOverhead, if_pos hlen, reportOf, if_pos hlen]
  · simp only [judge, bodyOverhead, if_neg hlen, reportOf, crcPair_cons (show 2 ≤ body.length by omega), hbody, hhead, messageOfBody,
      slice]
    split_ifs <;> rfl

theorem validate_eq_moved (c : Cfg) {len : Byte} {body : List Byte} (hbody : body.length = len.toNat) (d : Deframer) :
    validate (some c) len body d = .moved (endedWith d.bitbuf) [reportOf c len body] := by
  rw [validate, judge_eq_reportOf c hbody]
  rfl

/-- Settles O43: either state that selects DFR.VALIDATE passes its checks, and the judgement is the report. -/
theorem validateReportsAndEndsTheFrame : Obligations.ValidateReportsAndEndsTheFrame := by
  intro s c len body hf hsel hc hlen hbody
  have hselected : ¬ (s.dfr.fstate ≠ .awaitingData ∧ s.dfr.fstate ≠ .awaitingDataFEC) := by tauto
  change execDfrValidate body s = _
  rw [execDfrValidate, guarded_running hf, if_neg hselected, hlen, hc]
  simp only [if_neg (not_not.mpr hbody), validate_eq_moved c hbody]
  rfl

/-! ### Dewhitening (R183, R184, R186) -/

section dewhiten
variable {c : Cfg} {bs out : List Byte} {r r' : Option (BitVec 9)}

theorem dewhiten_length (h : dewhiten c bs r = .ok (out, r')) : out.length = bs.length := by
  obtain ⟨-, hd⟩ | ⟨-, -, hd⟩ | ⟨k, -, -, hd⟩ := dewhiten_cases c bs r <;> rw [hd] at h <;> cases h
  · rfl
  · exact whiten_length bs k

theorem dewhiten_on {k : BitVec 9} (hw : c.whitenEn = true) : dewhiten c bs (some k) = .ok ((whiten bs k).1, some (whiten bs k).2) := by
  simp only [dewhiten, if_pos hw]

theorem dewhiten_off (hw : c.whitenEn = false) : dewhiten c bs r = .ok (bs, r) := by
  simp only [dewhiten, if_neg (ne_true_of_eq_false hw)]

end dewhiten

/-! ### DFR.STEP.AwaitingData (R184) -/

theorem stepAwaitingData_wait {cfg : Option Cfg} {d : Deframer} {len : Byte} (hlen : d.length = some len)
    (h : bufLen d < 8 * len.toNat) : stepAwaitingData cfg d = .wait := by
  simp only [stepAwaitingData, hlen, if_pos h]

theorem stepAwaitingData_bytes {c : Cfg} {d : Deframer} {len : Byte} {raw body : List Byte} {rest : List Bit} {r : Option (BitVec 9)}
    (hlen : d.length = some len) (hraw : raw.length = len.toNat) (h : d.bitbuf = ser raw ++ rest)
    (hdew : dewhiten c raw d.pn9 = .ok (body, r)) :
    stepAwaitingData (some c) d = .moved (endedWith rest) [reportOf c len body] := by
  have hbits : 8 * len.toNat = 8 * raw.length := by rw [hraw]
  simp only [stepAwaitingData, hlen, if_neg (bufLen_front_not_lt h hbits), bufPeek_front h hbits, pack_ser, hdew,
    bufDrop_front h hbits, validate_eq_moved c ((dewhiten_length hdew).trans hraw)]

/-- Settles O41: dewhitening keeps the number of bytes, so the body validated has exactly `length` bytes. -/
theorem awaitingDataStep : Obligations.AwaitingDataStep := by
  refine ⟨fun _ _ hf hsel hlen hwait => internalStep_wait hf hsel (stepAwaitingData_wait hlen hwait),
    fun s c len raw body rest hf hsel hc hlen hraw hbuf hbody => ?_⟩
  obtain ⟨r, hdew⟩ : ∃ r, dewhiten c raw s.dfr.pn9 = .ok (body, r) := by
    split at hbody
    next hw =>
      obtain ⟨k, hk, rfl⟩ := hbody
      exact ⟨_, by rw [hk, dewhiten_on hw]⟩
    next hw =>
      subst hbody
      exact ⟨_, dewhiten_off (eq_false_of_ne_true hw)⟩
  exact internalStep_moved hf hsel (by rw [hc]; exact stepAwaitingData_bytes hlen hraw hbuf hdew)

/-! ### DFR.STEP.AwaitingDataFEC (R186) -/

section awaitingDataFEC
variable {c : Cfg} {cfg : Option Cfg} {d : Deframer} {len : Byte} (hlen : d.length = some len)
include hlen

theorem stepAwaitingDataFEC_complete (hdone : len.toNat ≤ d.decbuf.length) :
    stepAwaitingDataFEC params (some c) d = .moved (endedWith d.bitbuf) [reportOf c len (d.decbuf.take len.toNat)] := by
  have hbody : (d.decbuf.take len.toNat).length = len.toNat := List.length_take_of_le hdone
  simp only [stepAwaitingDataFEC, hlen, if_pos hdone, validate_eq_moved c hbody]

variable (hmore : d.decbuf.length < len.toNat)
include hmore

theorem stepAwaitingDataFEC_wait (h : bufLen d < 32) : stepAwaitingDataFEC params cfg d = .wait := by
  simp only [stepAwaitingDataFEC, hlen, if_neg (Nat.not_le.mpr hmore), if_pos h]

theorem stepAwaitingDataFEC_chunk {v w : Session} {raw dec bs : List Byte} {rest : List Bit} {r : Option (BitVec 9)}
    (hvit : d.vit = some v) (hraw : raw.length = 4) (h : d.bitbuf = ser raw ++ rest) (hsend : vitSend params v raw = .ok (dec, w))
    (hdew : dewhiten c dec d.pn9 = .ok (bs, r)) :
    stepAwaitingDataFEC params (some c) d =
      .moved { d with bitbuf := rest, vit := some w, decbuf := d.decbuf ++ bs, pn9 := r } [] := by
  have hbits : 32 = 8 * raw.length := by rw [hraw]
  simp only [stepAwaitingDataFEC, hlen, if_neg (Nat.not_le.mpr hmore), if_neg (bufLen_front_not_lt h hbits), hvit,
    bufPeek_front h hbits, pack_ser, hsend, hdew, bufDrop_front h hbits, decAppend]

end awaitingDataFEC

/-- Settles O42: the rule's own order of tests, completion before the number of bits. -/
theorem awaitingDataFecStep : Obligations.AwaitingDataFecStep := by
  refine ⟨fun s c len hf hsel hc hlen hdone => ?_, fun s len hf hsel hlen hmore hwait => ?_,
    fun s c len v raw rest hf hsel hc hlen hmore hvit hraw hbuf hpn9 => ?_⟩
  · exact internalStep_moved hf hsel (by rw [hc]; exact stepAwaitingDataFEC_complete hlen hdone)
  · exact internalStep_wait hf hsel (stepAwaitingDataFEC_wait hlen hmore hwait)
  · have hsend := vitSend_eq_vitSymbols v hraw
    have hmoved {bs r} (hdew : dewhiten c (vitSymbols params v (chunkSymbols raw)).1 s.dfr.pn9 = .ok (bs, r)) :=
      internalStep_moved hf hsel (op := 0x7D#8) (rule := stepAwaitingDataFEC params s.cfg)
        (by rw [hc]; exact stepAwaitingDataFEC_chunk hlen hmore hvit hraw hbuf hsend hdew)
    cases hw : c.whitenEn with
    | false => exact ⟨_, _, _, _, hsend, ⟨rfl, rfl⟩, hmoved (dewhiten_off hw)⟩
    | true =>
      obtain ⟨k, hk⟩ := Option.ne_none_iff_exists'.mp (hpn9 hw)
      exact ⟨_, _, _, _, hsend, ⟨k, hk, rfl, rfl⟩, hmoved (hk ▸ dewhiten_on hw)⟩

/-! ### The preamble and the sync word of a frame are accepted (R178, R180) -/

/-- The deframer in the state `f` with the bits `q` and nothing of a frame (10_state.md R22 to R24). -/
def idleIn (f : FState) (q : List Bit) : Deframer := ⟨f, q, none, [], none, none⟩

theorem reset_feed_eq_idleIn (q : List Bit) : Deframer.reset.feed q = idleIn .seekingPreamble q := rfl

/-- Every bit of a preamble matches (R175). -/
theorem matchCount_ser_replicate_preambleByte (n : Nat) : matchCount true (ser (List.replicate n preambleByte)) = 8 * n := by
  have hbyte (q : List Bit) : matchCount true (serByte preambleByte ++ q) = 8 + matchCount true q := by
    simp [serByte, preambleByte, matchCount]
    omega
  induction n with
  | zero => rfl
  | succ n ih => rw [List.replicate_succ, ser_cons, hbyte, ih, Nat.mul_succ, Nat.add_comm]

theorem head?_ser_preamble_append {c : Cfg} (hc : c.Legal) (q : List Bit) : (ser (preamble c) ++ q).head? = some true := by
  obtain ⟨n, hn⟩ := Nat.exists_eq_add_one.mpr (preambleLen_pos hc)
  rw [preamble, hn, List.replicate_succ]
  rfl

theorem preambleBits_eq (c : Cfg) : preambleBits c = 8 * (preamble c).length := by
  rw [preamble, List.length_replicate, preambleBits]

section header
variable {c : Cfg} (q : List Bit)

theorem dfrStep_preamble (hc : c.Legal) (hq : c.quality.toNat ≤ 8 * c.preambleLen.toNat) :
    dfrStep params (some c) (idleIn .seekingPreamble (ser (preamble c) ++ q)) = .moved (idleIn .seekingSyncWord q) [] := by
  have hfront : (idleIn .seekingPreamble (ser (preamble c) ++ q)).bitbuf = ser (preamble c) ++ q := rfl
  have hdrop : (ser (preamble c) ++ q).drop (preambleBits c) = q := List.drop_left' (by rw [ser_length, preambleBits_eq])
  have hstep := stepSeekingPreamble_accept (preambleBits_pos hc) (bufLen_front_not_lt hfront (preambleBits_eq c))
    ⟨head?_ser_preamble_append hc q, by
      rw [bufPeek_front hfront (preambleBits_eq c), preamble, matchCount_ser_replicate_preambleByte]; exact hq⟩
  rw [hfront, hdrop] at hstep
  exact hstep

theorem dfrStep_syncWord :
    dfrStep params (some c) (idleIn .seekingSyncWord (ser (syncWord c) ++ q)) =
      .moved (idleIn (if c.fecEn then .awaitingLengthFEC else .awaitingLength) q) [] := by
  have hfront : (idleIn .seekingSyncWord (ser (syncWord c) ++ q)).bitbuf = ser (syncWord c) ++ q := rfl
  have hdrop : (ser (syncWord c) ++ q).drop (syncBits c) = q := List.drop_left' (by rw [ser_length, syncBits_eq])
  have hstep := stepSeekingSyncWord_eq (bufLen_front_not_lt hfront (syncBits_eq c))
  rw [bufPeek_front hfront (syncBits_eq c), if_pos rfl, hfront, hdrop] at hstep
  exact hstep

theorem moves_header (hc : c.Legal) (hq : c.quality.toNat ≤ 8 * c.preambleLen.toNat) :
    Moves (some c) (idleIn .seekingPreamble (ser (preamble c ++ syncWord c) ++ q)) []
      (idleIn (if c.fecEn then .awaitingLengthFEC else .awaitingLength) q) := by
  rw [ser_append, List.append_assoc]
  exact .more (dfrStep_preamble _ hc hq) (.more (dfrStep_syncWord q) (.done _))

end header

/-! ### The DataSection of a message, read back (R188, 45_framer.md R156, R157) -/

/-- The Length byte the framer sends. -/
def lengthByte (m : Message) : Byte := BitVec.ofNat 8 ((m.drop 2).length + bodyOverhead)

/-- The Body the framer sends behind the Length byte: Flags, Rest, HWID and the checksum. -/
def sentBody (flags : Byte) (m : Message) : List Byte := flags :: (m.drop 2 ++ m.take 2) ++ crcBytes (crc16 (plainSection flags m))

theorem dataSection_eq_cons (flags : Byte) (m : Message) : dataSection flags m = lengthByte m :: sentBody flags m := by
  simp [dataSection, plainSection, lengthByte, sentBody]

theorem messageOfBody_sentBody {m : Message} (hm : 2 ≤ m.length) (flags : Byte) : messageOfBody (sentBody flags m) = m := by
  obtain ⟨h0, m, rfl⟩ := List.exists_cons_of_length_pos (Nat.zero_lt_of_lt hm)
  obtain ⟨h1, rest, rfl⟩ := List.exists_cons_of_length_pos (Nat.lt_of_succ_lt_succ hm)
  simp [messageOfBody, sentBody, slice, crcBytes, List.take_append]

section sent
variable {m : Message} (hmin : 2 ≤ m.length)
include hmin

theorem sentBody_length (flags : Byte) : (sentBody flags m).length = m.length + 3 := by
  have h := dataSection_length hmin flags
  rw [dataSection_eq_cons, List.length_cons] at h
  omega

variable (hmax : m.length ≤ 252)
include hmax

theorem lengthByte_toNat : (lengthByte m).toNat = m.length + 3 := by
  rw [lengthByte, BitVec.toNat_ofNat, List.length_drop, bodyOverhead]
  omega

theorem sentBody_length_eq_lengthByte (flags : Byte) : (sentBody flags m).length = (lengthByte m).toNat := by
  rw [sentBody_length hmin, lengthByte_toNat hmin hmax]

/-- The checks pass in their order: the Length is at least 5, the checksum is the one sent, the Flags are the configured ones. -/
theorem reportOf_sentBody {c : Cfg} (hflags : c.flags &&& c.flagsMask = c.flags) :
    reportOf c (lengthByte m) (sentBody c.flags m) = .deliver m := by
  have hlen : ¬ (lengthByte m).toNat < bodyOverhead := by rw [lengthByte_toNat hmin hmax, bodyOverhead]; omega
  have hcrc : crcPair (lengthByte m :: sentBody c.flags m) = (crc16 (plainSection c.flags m), crc16 (plainSection c.flags m)) := by
    rw [← dataSection_eq_cons, dataSection, crcBytes, crcPair_append]
    exact congrArg _ (crcOfBytes_crcBytes _)
  have hhead : (sentBody c.flags m).headD 0#8 = c.flags := rfl
  have hjudge := judge_eq_reportOf c (sentBody_length_eq_lengthByte hmin hmax c.flags)
  simp only [judge, if_neg hlen, hcrc, ne_eq, not_true_eq_false, if_false, hhead, hflags, if_true, messageOfBody_sentBody hmin] at hjudge
  exact (Except.ok.inj hjudge).symm

end sent

/-! ### Dewhitening what the framer whitened (40_whitening.md R96, R97) -/

/-- The deframer dewhitens a whitened sequence, whatever stands behind it: the Length byte on its own, then the rest from the register
retained after it. -/
theorem dewhiten_whitenSection {c : Cfg} {len x : Byte} {body junk xs : List Byte}
    (h : x :: xs = whitenSection c (len :: body) ++ junk) :
    (if c.whitenEn then x ^^^ 0xFF#8 else x) = len ∧
      ∃ out r, out.length = junk.length ∧ dewhiten c xs (if c.whitenEn then some 0x1E1#9 else none) = .ok (body ++ out, r) := by
  cases hw : c.whitenEn with
  | false =>
    rw [whitenSection, hw] at h
    cases h
    exact ⟨rfl, junk, none, rfl, dewhiten_off hw⟩
  | true =>
    have htwice := whitenTwiceRestoresData body 0x1E1#9
    simp only [whitenSection, hw, if_true, whiten, pn9Next_pn9Seed, List.cons_append] at h
    cases h
    refine ⟨by simp, (whiten junk (whiten body 0x1E1#9).2).1, some (whiten junk (whiten body 0x1E1#9).2).2, whiten_length _ _, ?_⟩
    rw [if_pos rfl, dewhiten_on hw, whiten_append, htwice]

theorem dewhiten_nil {c : Cfg} {out : List Byte} {r r' : Option (BitVec 9)} (h : dewhiten c [] r = .ok (out, r')) :
    out = [] ∧ r' = r := by
  obtain ⟨-, hd⟩ | ⟨-, -, hd⟩ | ⟨k, -, rfl, hd⟩ := dewhiten_cases c [] r <;> rw [hd] at h <;> cases h
  · exact ⟨rfl, rfl⟩
  · exact ⟨rfl, rfl⟩

/-- Dewhitening goes on where it stopped. -/
theorem exists_of_dewhiten_append {c : Cfg} {a b out : List Byte} {r r₂ : Option (BitVec 9)}
    (h : dewhiten c (a ++ b) r = .ok (out, r₂)) :
    ∃ out₁ r₁ out₂, dewhiten c a r = .ok (out₁, r₁) ∧ dewhiten c b r₁ = .ok (out₂, r₂) ∧ out = out₁ ++ out₂ := by
  obtain ⟨hw, hd⟩ | ⟨-, -, hd⟩ | ⟨k, hw, rfl, hd⟩ := dewhiten_cases c (a ++ b) r <;> rw [hd] at h <;> cases h
  · exact ⟨a, _, b, dewhiten_off hw, dewhiten_off hw, rfl⟩
  · rw [whiten_append]
    exact ⟨_, _, _, dewhiten_on hw, dewhiten_on hw, rfl⟩

/-! ### The DataSection without FEC (R182, R184) -/

theorem dfrStep_awaitingLength (c : Cfg) (x : Byte) (xs : List Byte) :
    dfrStep params (some c) (idleIn .awaitingLength (ser (x :: xs))) =
      .moved ⟨.awaitingData, ser xs, some (if c.whitenEn then x ^^^ 0xFF#8 else x), [],
        if c.whitenEn then some 0x1E1#9 else none, none⟩ [] :=
  stepAwaitingLength_byte (d := idleIn .awaitingLength (ser (x :: xs))) rfl

theorem dfrStep_awaitingData {c : Cfg} {len : Byte} {raw body : List Byte} {pn9 r : Option (BitVec 9)} (hraw : raw.length = len.toNat)
    (hdew : dewhiten c raw pn9 = .ok (body, r)) :
    dfrStep params (some c) ⟨.awaitingData, ser raw, some len, [], pn9, none⟩ =
      .moved (idleIn .seekingPreamble []) [reportOf c len body] :=
  stepAwaitingData_bytes (d := ⟨.awaitingData, ser raw, some len, [], pn9, none⟩) rfl hraw (List.append_nil _).symm hdew

theorem moves_dataSection (c : Cfg) {m : Message} (hmin : 2 ≤ m.length) (hmax : m.length ≤ 252) :
    Moves (some c) (idleIn .awaitingLength (ser (whitenSection c (dataSection c.flags m))))
      [reportOf c (lengthByte m) (sentBody c.flags m)] (idleIn .seekingPreamble []) := by
  rw [dataSection_eq_cons]
  obtain ⟨x, xs, hxs⟩ : ∃ x xs, whitenSection c (lengthByte m :: sentBody c.flags m) = x :: xs :=
    List.exists_cons_of_length_pos (by rw [whitenSection_length]; exact Nat.succ_pos _)
  obtain ⟨hlength, out, r, hout, hdew⟩ := dewhiten_whitenSection (junk := []) (hxs.symm.trans (List.append_nil _).symm)
  rw [List.length_eq_zero_iff.mp hout, List.append_nil] at hdew
  have hraw := (dewhiten_length hdew).symm.trans (sentBody_length_eq_lengthByte hmin hmax c.flags)
  have hstep := dfrStep_awaitingLength c x xs
  rw [hlength] at hstep
  rw [hxs]
  exact .more hstep (.more (dfrStep_awaitingData hraw hdew) (.done _))

/-! ### What the decoder gives for the chunks of FEC.ENCODE and bits of any value behind them (R186, 44_viterbi.md R148) -/

theorem exists_append_of_le {n : Nat} {l : List Byte} (h : n ≤ l.length) : ∃ a b, l = a ++ b ∧ a.length = n :=
  ⟨l.take n, l.drop n, (List.take_append_drop n l).symm, List.length_take_of_le h⟩

theorem symbolDistance_self (ys : List Symbol) : symbolDistance ys ys = 0 := by
  induction ys with
  | nil => rfl
  | cons y ys ih => rw [symbolDistance_cons, ih, Nat.add_zero, hamming2, Bool.xor_self, Bool.xor_self]; rfl

theorem wireSymbols_append_of_blocks {n : Nat} {a : List Byte} (ha : a.length = 4 * n) (b : List Byte) :
    wireSymbols (a ++ b) = wireSymbols a ++ wireSymbols b := by
  induction n generalizing a with
  | zero =>
    obtain rfl := List.length_eq_zero_iff.mp ha
    rfl
  | succ n ih =>
    obtain ⟨chunk, a, rfl, hchunk⟩ := exists_append_of_le (show 4 ≤ a.length by omega)
    have hrest : a.length = 4 * n := by rw [List.length_append] at ha; omega
    rw [List.append_assoc, wireSymbols_append hchunk, wireSymbols_append hchunk, ih hrest, List.append_assoc]

/-- VIT.SEND of the first two chunks of a session is the run over their symbols. -/
theorem vitSymbols_of_two_chunks {raw dec : List Byte} {v : Session} (hraw : raw.length = 8)
    (h : vitSendAll params (startSession params) [raw.take 4, raw.drop 4] = .ok (dec, v)) :
    vitSymbols params (startSession params) (wireSymbols raw) = (dec, v) := by
  have hchunks : [raw.take 4, raw.drop 4] = chunksOf raw := by simp [chunksOf, hraw, slice, List.range_succ, List.take_of_length_le hraw.le]
  rw [hchunks, vitSendAll_eq_vitSymbols _ fun _ => length_of_mem_chunksOf] at h
  exact Except.ok.inj h

/-- One byte's symbols behind the encoder's, whether they come from the padding or from the tail, bring out all of the data. -/
theorem vitSymbols_of_fecEncode {data coded tail : List Byte} (hfec : fecEncode params data = .ok coded)
    (htail : data.length % 2 = 0 → 4 ≤ tail.length) :
    ∃ junk, (vitSymbols params (startSession params) (wireSymbols (coded ++ tail))).1 = data ++ junk := by
  obtain ⟨out, hout, hlen, hblocks⟩ := exists_fecEncode_eq_ok params data
  obtain rfl := Except.ok.inj (hfec.symm.trans hout)
  rw [wireSymbols_append_of_blocks hlen, wireSymbols_of_interleaveBlocks hblocks (encodedData_padded_length params data),
    List.flatMap_append, encodedData, flatMap_pairsOf_encBytes, List.append_assoc]
  generalize hbehind : (padding data.length).flatMap pairsOf ++ wireSymbols tail = behind
  have htake : (behind.take 8).length = 8 := by
    rw [List.length_take, ← hbehind, List.length_append, flatMap_pairsOf_length, padding_length, wireSymbols_length]
    omega
  have hclean := vitSymbols_startSession_eq_take (bs := data ++ terminator) (pad := [0#8]) htake le_rfl
    (by rw [List.length_append, encSymbols_length, ser_length, htake]; rfl) ((symbolDistance_self _).trans_le (Nat.zero_le 1))
  have hdata : (data ++ terminator ++ [0#8]).take ((data ++ terminator ++ [0#8]).length - 3) = data := by
    simp [terminator]
  rw [hdata] at hclean
  rw [← List.take_append_drop 8 behind, ← List.append_assoc, vitSymbols_append, hclean]
  exact ⟨_, rfl⟩

/-! ### The DataSection with FEC (R183, R186) -/

theorem dfrStep_awaitingLengthFEC {c : Cfg} {raw more : List Byte} {x : Byte} {v : Session} (hraw : raw.length = 8)
    (hsend : vitSendAll params (startSession params) [raw.take 4, raw.drop 4] = .ok ([x], v)) :
    dfrStep params (some c) (idleIn .awaitingLengthFEC (ser (raw ++ more))) =
      .moved ⟨.awaitingDataFEC, ser more, some (if c.whitenEn then x ^^^ 0xFF#8 else x), [],
        if c.whitenEn then some 0x1E1#9 else none, some v⟩ [] :=
  stepAwaitingLengthFEC_bytes (d := idleIn .awaitingLengthFEC (ser (raw ++ more))) hraw (ser_append _ _) hsend

theorem dfrStep_chunk {c : Cfg} {len : Byte} {chunk more dec bs : List Byte} {pn9 r : Option (BitVec 9)} {v : Session}
    (hchunk : chunk.length = 4) (hroom : dec.length < len.toNat)
    (hdew : dewhiten c (vitSymbols params v (chunkSymbols chunk)).1 pn9 = .ok (bs, r)) :
    dfrStep params (some c) ⟨.awaitingDataFEC, ser (chunk ++ more), some len, dec, pn9, some v⟩ =
      .moved ⟨.awaitingDataFEC, ser more, some len, dec ++ bs, r, some (vitSymbols params v (chunkSymbols chunk)).2⟩ [] :=
  stepAwaitingDataFEC_chunk (d := ⟨.awaitingDataFEC, ser (chunk ++ more), some len, dec, pn9, some v⟩) rfl hroom rfl hchunk
    (ser_append _ _) (vitSend_eq_vitSymbols v hchunk) hdew

theorem dfrStep_complete {c : Cfg} {len : Byte} {body extra : List Byte} {pn9 : Option (BitVec 9)} {v : Session}
    (hbody : body.length = len.toNat) :
    dfrStep params (some c) ⟨.awaitingDataFEC, [], some len, body ++ extra, pn9, some v⟩ =
      .moved (idleIn .seekingPreamble []) [reportOf c len body] := by
  have hdone : len.toNat ≤ (body ++ extra).length := by rw [List.length_append]; omega
  have hstep := stepAwaitingDataFEC_complete (c := c) (d := ⟨.awaitingDataFEC, [], some len, body ++ extra, pn9, some v⟩) rfl hdone
  rw [List.take_left' hbody] at hstep
  exact hstep

/-- Chunk by chunk the bits are decoded, dewhitened and appended, as long as each chunk starts before the frame is complete. -/
theorem moves_chunks {c : Cfg} {len : Byte} {n : Nat} {raw dec bs : List Byte} {pn9 r : Option (BitVec 9)} {v : Session}
    (hraw : raw.length = 4 * n) (hn : v.nbits = 24) (hroom : dec.length + 2 * n ≤ len.toNat + 1)
    (hdew : dewhiten c (vitSymbols params v (wireSymbols raw)).1 pn9 = .ok (bs, r)) :
    ∃ w, Moves (some c) ⟨.awaitingDataFEC, ser raw, some len, dec, pn9, some v⟩ []
      ⟨.awaitingDataFEC, [], some len, dec ++ bs, r, some w⟩ := by
  induction n generalizing raw dec bs pn9 v with
  | zero =>
    obtain rfl := List.length_eq_zero_iff.mp hraw
    obtain ⟨rfl, rfl⟩ := dewhiten_nil hdew
    exact ⟨v, by rw [List.append_nil]; exact .done _⟩
  | succ n ih =>
    obtain ⟨chunk, more, rfl, hchunk⟩ := exists_append_of_le (show 4 ≤ raw.length by omega)
    have hmore : more.length = 4 * n := by rw [List.length_append] at hraw; omega
    obtain ⟨hcount, hn'⟩ := vitSymbols_chunk_count (p := params) hn (chunkSymbols_length hchunk)
    rw [wireSymbols_append hchunk, vitSymbols_append] at hdew
    obtain ⟨bs₁, r₁, bs₂, hdew₁, hdew₂, rfl⟩ := exists_of_dewhiten_append hdew
    have hbs₁ := (dewhiten_length hdew₁).trans hcount
    obtain ⟨w, hrest⟩ := ih hmore hn' (dec := dec ++ bs₁) (by rw [List.length_append]; omega) hdew₂
    rw [List.append_assoc] at hrest
    exact ⟨w, .more (dfrStep_chunk hchunk (by omega) hdew₁) hrest⟩

theorem moves_dataSectionFEC {c : Cfg} {m : Message} (hmin : 2 ≤ m.length) (hmax : m.length ≤ 252) {coded tail : List Byte}
    (hfec : fecEncode params (whitenSection c (dataSection c.flags m)) = .ok coded)
    (hlen : (coded ++ tail).length = 4 * ((m.length + 8) / 2)) (htail : m.length % 2 = 0 → 4 ≤ tail.length) :
    Moves (some c) (idleIn .awaitingLengthFEC (ser (coded ++ tail))) [reportOf c (lengthByte m) (sentBody c.flags m)]
      (idleIn .seekingPreamble []) := by
  obtain ⟨junk, hdec⟩ := vitSymbols_of_fecEncode (tail := tail) hfec
    fun h => htail (by rw [whitenSection_length, dataSection_length hmin] at h; omega)
  obtain ⟨first, more, hraw, hfirst⟩ := exists_append_of_le (show 8 ≤ (coded ++ tail).length by omega)
  rw [hraw, List.length_append] at hlen
  have hmore : more.length = 4 * ((m.length + 4) / 2) := by omega
  obtain ⟨x, v, hsend, hn⟩ := vitSend_two_fresh_chunks params (first.take 4) (first.drop 4) (by simp [hfirst]) (by simp [hfirst])
  have hstart := vitSymbols_of_two_chunks hfirst hsend
  rw [hraw, wireSymbols_append_of_blocks (n := 2) hfirst, vitSymbols_append, hstart, dataSection_eq_cons] at hdec
  obtain ⟨hlength, out, r, -, hdew⟩ := dewhiten_whitenSection hdec
  have hbody := sentBody_length_eq_lengthByte hmin hmax c.flags
  obtain ⟨w, hchunks⟩ := moves_chunks (len := lengthByte m) (dec := []) hmore hn
    (by rw [lengthByte_toNat hmin hmax, List.length_nil]; omega) hdew
  have hstep := dfrStep_awaitingLengthFEC (c := c) (more := more) hfirst hsend
  rw [hlength] at hstep
  rw [hraw]
  exact .more hstep (moves_trans hchunks (.more (dfrStep_complete hbody) (.done _)))

/-! ### The round trip -/

/-- DFR.PUSH answers what a run of moves that ends in a waiting step puts on the ports: there is only one such run (R172). -/
theorem exec_dfrPush_of_moves {s : State} {c : Cfg} {q : List Bit} {ev : List Event} {d : Deframer} (hf : s.fault = false)
    (hl : s.cfgLoaded = true) (hc : s.cfg = some c) (hok : s.dfr.Ok (some c)) (hmoves : Moves (some c) (s.dfr.feed q) ev d)
    (hwait : dfrStep params (some c) d = .wait) :
    exec (.dfrPush (samplesOf q)) s = .next (respond (.messages (delivered ev)) ev { s with dfr := d }) := by
  have hfed : (s.dfr.feed q).Ok (some c) := (Deframer.ok_bitbuf_iff _).mpr hok
  obtain ⟨d', ev', hrun, hmoves', hwait'⟩ := runUntilWait_moves hfed
  obtain ⟨rfl, rfl⟩ := moves_unique hmoves' hwait' hmoves hwait
  simp [exec_dfrPush, execDfrPushWith, -bufAppend_params, bufAppend_params_eq_feed, hf, hl, hc, hrun]

/-- An idle deframer without bits waits for a preamble. -/
theorem dfrStep_idle (c : Cfg) : dfrStep params (some c) (idleIn .seekingPreamble []) = .wait := if_pos (.inr rfl)

section roundTrip
variable {s : State} {c : Cfg} {m : Message} (hf : s.fault = false) (hl : s.cfgLoaded = true) (hc : s.cfg = some c) (hlegal : c.Legal)
  (hquality : c.quality.toNat ≤ 8 * c.preambleLen.toNat) (hflags : c.flags &&& c.flagsMask = c.flags) (hidle : s.dfr = Deframer.reset)
  (hmin : 2 ≤ m.length) (hmax : m.length ≤ 252)
include hf hl hc hlegal hquality hflags hidle hmin hmax

/-- The frame goes out and comes back when the deframer, in the state behind the sync word, takes what FEC_EN makes of the DataSection,
and the bits `tail` behind it, for one frame. -/
theorem roundTrip_of_moves {coded : List Byte} {tail : List Bit} (hframe : frame params c m = .ok (preamble c ++ syncWord c ++ coded))
    (hmoves : Moves (some c) (idleIn (if c.fecEn then .awaitingLengthFEC else .awaitingLength) (ser coded ++ tail))
      [reportOf c (lengthByte m) (sentBody c.flags m)] (idleIn .seekingPreamble [])) :
    ∃ (t : State) (f : List Byte), exec (.frmEncode m) s = .next t ∧ t.result = .bytes f ∧
      exec (.dfrPush (samplesOf (ser f ++ tail))) t = .next { s with result := .messages [m], events := [.deliver m] } := by
  have hencode := exec_frmEncode_of_frame hf hl hc (by omega) hframe
  refine ⟨_, _, hencode, rfl, ?_⟩
  rw [reportOf_sentBody hmin hmax hflags] at hmoves
  have hrun := moves_trans (moves_header (ser coded ++ tail) hlegal hquality) hmoves
  rw [← List.append_assoc, ← ser_append, ← reset_feed_eq_idleIn, ← hidle] at hrun
  have hok : s.dfr.Ok (some c) := by rw [hidle]; exact Deframer.reset_ok
  have hdfr : idleIn .seekingPreamble [] = s.dfr := hidle.symm
  rw [exec_dfrPush_of_moves (s := respond _ [] s) hf hl hc hok hrun (dfrStep_idle c), hdfr]
  rfl

end roundTrip

/-- Settles O45: without FEC the whitened DataSection is taken as one Length byte and one body. -/
theorem roundTripWithoutFec : Obligations.RoundTripWithoutFec := by
  intro s c m hf hl hc hlegal hfec hquality hflags hidle hmin hmax
  obtain ⟨coded, hframe, hcoded, -⟩ := exists_frame_eq_ok params c hmin
  rw [hfec, if_neg Bool.false_ne_true] at hcoded
  have hmoves := moves_dataSection c hmin hmax
  rw [← hcoded, ← List.append_nil (ser coded)] at hmoves
  have hround := roundTrip_of_moves (tail := []) hf hl hc hlegal hquality hflags hidle hmin hmax hframe (by rw [hfec]; exact hmoves)
  simpa only [List.append_nil] using hround

/-- Settles O46: with FEC the chunks of the DataSection, and one of any value behind an odd Length, decode to it, and what comes out
behind its last byte is dropped. -/
theorem roundTripWithFec : Obligations.RoundTripWithFec := by
  intro s c m tail hf hl hc hlegal hfec hquality hflags hidle hmin hmax htail
  obtain ⟨coded, hframe, hcoded, hlen⟩ := exists_frame_eq_ok params c hmin
  rw [hfec, if_pos rfl] at hcoded hlen
  obtain ⟨bytes, rfl, hbytes⟩ : ∃ bytes, tail = ser bytes ∧ bytes.length = if m.length % 2 = 0 then 4 else 0 := by
    refine ⟨pack tail, (ser_pack (n := if m.length % 2 = 0 then 4 else 0) ?_).symm, ?_⟩
    · rw [htail]; split <;> rfl
    · rw [pack_length, htail]; split <;> rfl
  have hmoves := moves_dataSectionFEC hmin hmax (tail := bytes) hcoded (by rw [List.length_append, hlen, hbytes]; split <;> omega)
    (fun h => by rw [hbytes, if_pos h])
  rw [ser_append] at hmoves
  exact roundTrip_of_moves hf hl hc hlegal hquality hflags hidle hmin hmax hframe (by rw [hfec]; exact hmoves)

end Machine
end Sys2Proof

/-! Proofs for the families 60_exceptions.md and 70_reset_and_hazards.md, and the refusals of the deframer's operations: every meaning
stands behind the check of the fault latch, an error is answered by `raise` and by nothing else, and a step that is not a reset clears
neither `fault` nor `cfg_loaded`. -/

namespace Sys2Proof
namespace Machine

/-! ### Errors (60_exceptions.md R200, R201, R215) -/

/-- What a meaning can answer in `s`: an error, raised there, or a result that is no error. -/
inductive ErrsByRaise (s : State) : Answer → Prop
  | raised (e : Err) : ErrsByRaise s (.next (raise e s))
  | answered {r : Result} (ev : List Event) (t : State) (hr : ∀ e, r ≠ .error e := by nofun) : ErrsByRaise s (.next (respond r ev t))

section errsByRaise
variable {s : State}

theorem ErrsByRaise.eq_raise {k : Answer} (h : ErrsByRaise s k) {t : State} {e : Err} (ht : k = .next t) (he : t.result = .error e) :
    t = raise e s := by
  cases h with
  | raised e' =>
    cases ht
    cases he
    rfl
  | answered ev t' hr =>
    cases ht
    exact absurd he (hr e)

theorem guarded_errsByRaise {k : Answer} (h : ErrsByRaise s k) : ErrsByRaise s (guarded s k) := by
  cases hf : s.fault with
  | false => rwa [guarded_running hf]
  | true => rw [guarded_faulted hf]; exact .raised _

theorem withPn9_errsByRaise {k : BitVec 9 → Answer} (h : ∀ r, ErrsByRaise s (k r)) : ErrsByRaise s (withPn9 s k) := by
  refine guarded_errsByRaise ?_
  split
  · exact .raised _
  · exact h _

theorem withEnc_errsByRaise {k : BitVec 11 → Answer} (h : ∀ r, ErrsByRaise s (k r)) : ErrsByRaise s (withEnc s k) := by
  refine guarded_errsByRaise ?_
  split
  · exact .raised _
  · exact h _

theorem withSession_errsByRaise {k : Session → Answer} (h : ∀ v, ErrsByRaise s (k v)) : ErrsByRaise s (withSession s k) := by
  refine guarded_errsByRaise ?_
  split
  · exact .raised _
  · exact h _

theorem internalStep_errsByRaise (f : FState) (op : Byte) (rule : Deframer → StepOutcome) :
    ErrsByRaise s (internalStep f op rule s) := by
  refine guarded_errsByRaise ?_
  split
  · exact .raised _
  · split
    · exact .answered _ _
    · exact .answered _ _
    · exact .raised _

end errsByRaise

section operations
variable (s : State)

theorem execCfgLoad_errsByRaise (rec : CfgRecord) : ErrsByRaise s (execCfgLoad rec s) := by
  refine guarded_errsByRaise ?_
  split
  · exact .raised _
  · exact .answered _ _

theorem execCrcUpdate_errsByRaise (b : Byte) : ErrsByRaise s (execCrcUpdate b s) := by
  refine guarded_errsByRaise ?_
  split
  · exact .raised _
  · exact .answered _ _

theorem execCrcVerify_errsByRaise (f : List Byte) : ErrsByRaise s (execCrcVerify f s) := by
  refine guarded_errsByRaise ?_
  split_ifs
  · exact .raised _
  · exact .answered _ _
  · exact .raised _

theorem execIlvXform_errsByRaise (blk : List Byte) : ErrsByRaise s (execIlvXform blk s) := by
  refine guarded_errsByRaise ?_
  split
  · exact .answered _ _
  · exact .raised _

theorem execFecEncode_errsByRaise (data : List Byte) : ErrsByRaise s (execFecEncode data s) := by
  refine guarded_errsByRaise ?_
  split
  · exact .answered _ _
  · exact .raised _

theorem execVitSend_errsByRaise (chunk : List Byte) : ErrsByRaise s (execVitSend chunk s) := by
  refine withSession_errsByRaise fun v => ?_
  split
  · exact .raised _
  · exact .answered _ _

theorem execFrmEncode_errsByRaise (m : Message) : ErrsByRaise s (execFrmEncode m s) := by
  refine guarded_errsByRaise ?_
  split_ifs
  · exact .raised _
  · exact .raised _
  · split
    · exact .raised _
    · split
      · exact .answered _ _
      · exact .raised _

theorem execDfrPush_errsByRaise (q : List Byte) : ErrsByRaise s (execDfrPush q s) := by
  refine guarded_errsByRaise ?_
  split_ifs
  · exact .raised _
  · split
    · exact .raised _
    · split
      · exact .raised _
      · split
        · exact .raised _
        · exact .answered _ _

theorem execDfrValidate_errsByRaise (body : List Byte) : ErrsByRaise s (execDfrValidate body s) := by
  refine guarded_errsByRaise ?_
  split_ifs
  · exact .raised _
  · split
    · exact .raised _
    · split_ifs
      · exact .raised _
      · split
        · exact .answered _ _
        · exact .answered _ _
        · exact .raised _

end operations

theorem exec_errsByRaise (i : Instr) (s : State) : ErrsByRaise s (exec i s) := by
  cases i with
  | cfgLoad rec => exact execCfgLoad_errsByRaise s rec
  | pn9Seed | crcInit | crcCalc | cencSeed | vitStart | frmSerialize | dfrReset =>
    exact guarded_errsByRaise (.answered _ _)
  | pn9Next | pn9Whiten => exact withPn9_errsByRaise fun _ => .answered _ _
  | crcUpdate b => exact execCrcUpdate_errsByRaise s b
  | crcVerify f => exact execCrcVerify_errsByRaise s f
  | ilvXform blk => exact execIlvXform_errsByRaise s blk
  | cencBit | cencByte => exact withEnc_errsByRaise fun _ => .answered _ _
  | fecEncode data => exact execFecEncode_errsByRaise s data
  | vitSymbol => exact withSession_errsByRaise fun _ => .answered _ _
  | vitSend chunk => exact execVitSend_errsByRaise s chunk
  | frmEncode m => exact execFrmEncode_errsByRaise s m
  | dfrPush q => exact execDfrPush_errsByRaise s q
  | dfrValidate body => exact execDfrValidate_errsByRaise s body
  | dfrStepSeekingPreamble | dfrStepSeekingSyncWord | dfrStepAwaitingLength | dfrStepAwaitingLengthFEC | dfrStepAwaitingData
  | dfrStepAwaitingDataFEC => exact internalStep_errsByRaise _ _ _

/-- Settles O47: an operation that answers an error has raised it, and `raise` writes the latch alone. -/
theorem errorsChangeOnlyTheFaultLatch : Obligations.ErrorsChangeOnlyTheFaultLatch := fun i s _ _ hexec he =>
  (exec_errsByRaise i s).eq_raise hexec he

/-- Settles O49: the two tables of R201, row by row. -/
theorem causeCodesAndClasses : Obligations.CauseCodesAndClasses :=
  ⟨fun _ _ => ⟨rfl, rfl⟩, fun _ => ⟨rfl, rfl⟩, fun _ => ⟨rfl, rfl⟩, fun _ => ⟨rfl, rfl⟩, fun _ => ⟨rfl, rfl⟩, fun _ => ⟨rfl, rfl⟩,
    ⟨rfl, rfl⟩, fun _ => ⟨rfl, rfl⟩, fun _ => ⟨rfl, rfl⟩, ⟨rfl, rfl⟩⟩

/-! ### The fault latch and the reset (60_exceptions.md R212, 70_reset_and_hazards.md R225) -/

/-- The check of the latch stands before everything else of an operation (R212). -/
theorem exists_exec_eq_guarded (i : Instr) (s : State) : ∃ k, exec i s = guarded s k := by
  cases i <;> exact ⟨_, rfl⟩

theorem exec_faulted (i : Instr) {s : State} (hf : s.fault = true) :
    exec i s = .next { s with result := .error .faulted, events := [] } := by
  obtain ⟨k, hk⟩ := exists_exec_eq_guarded i s
  rw [hk, guarded_faulted hf, raise_of_not_fatal isFatal_faulted]

theorem raise_keeps_fault (e : Err) {s : State} (hf : s.fault = true) : (raise e s).fault = true := by
  rw [raise_fault, hf, Bool.true_or]

/-- An operation may set `fault` and `cfg_loaded`, and clears neither. -/
theorem Effect.keeps_latches {i : Instr} {s t : State} (h : Effect i s t) :
    (s.fault = true → t.fault = true) ∧ (s.cfgLoaded = true → t.cfgLoaded = true) := by
  cases h with
  | raised e => exact ⟨raise_keeps_fault e, id⟩
  | answered => exact ⟨id, id⟩
  | scratch => exact ⟨id, id⟩
  | configured => exact ⟨id, fun _ => rfl⟩
  | deframer => exact ⟨id, id⟩

theorem step_of_reset {s : State} {rest : List Request} (h : s.port = .reset :: rest) :
    step s = .next { State.reset with port := rest } := by
  have hissue : issue s = .answered (hardwareReset { s with port := rest }) := by simp only [issue, h]
  simp only [step, hissue]
  rfl

/-- All that a step can be: a reset, or one that leaves `fault` and `cfg_loaded` set where they are set. -/
theorem reset_or_step_keeps_latches {s t : State} (h : step s = .next t) :
    (∃ rest, s.port = .reset :: rest) ∨ (s.fault = true → t.fault = true) ∧ (s.cfgLoaded = true → t.cfgLoaded = true) := by
  unfold step at h
  obtain ⟨-, hi⟩ | ⟨rest, hport, -⟩ | ⟨iss, op, a, rest, -, hi⟩ := issue_cases s
  · rw [hi] at h
    cases h
    exact .inr ⟨id, id⟩
  · exact .inl ⟨rest, hport⟩
  · rw [hi] at h
    obtain ⟨e, -, ho⟩ | ⟨i, -, -, ho⟩ := issueOperation_cases iss op a { s with port := rest } <;> rw [ho] at h
    · cases h
      exact .inr ⟨raise_keeps_fault e (s := { s with port := rest }), id⟩
    · exact .inr (exec_effect h).keeps_latches

/-- Settles O48: every meaning stands behind the check of the latch, and a step that is no reset leaves the latch set. -/
theorem faultedUntilReset : Obligations.FaultedUntilReset := by
  refine ⟨fun i s hf => exec_faulted i hf, fun s t hf hstep hclear => ?_⟩
  obtain hreset | ⟨hfault, -⟩ := reset_or_step_keeps_latches hstep
  · exact hreset
  · exact absurd (hfault hf) (ne_true_of_eq_false hclear)

/-- Settles O50: the reset is answered whatever the state holds, and every other step leaves both latches set. -/
theorem hardwareResetRestoresEverything : Obligations.HardwareResetRestoresEverything := by
  refine ⟨fun s rest hport => ⟨_, step_of_reset hport, rfl, rfl, rfl, rfl, rfl, rfl⟩, fun s t hstep hclear => ?_⟩
  obtain hreset | ⟨hfault, hloaded⟩ := reset_or_step_keeps_latches hstep
  · exact hreset
  · obtain ⟨hf, hclear⟩ | ⟨hl, hclear⟩ := hclear
    · exact absurd (hfault hf) (ne_true_of_eq_false hclear)
    · exact absurd (hloaded hl) (ne_true_of_eq_false hclear)

/-! ### Operation numbers that nothing legal issues (60_exceptions.md R206, 30_encoding.md R76) -/

/-- Every row of the decoder is a row of the table. -/
theorem decode_unlisted {op : Byte} (h : op ∉ opTable.map OpRow.op) (a : List Byte) : decode op a = .illegalOperation op := by
  have hnum : op.toNat ∉ (opTable.map OpRow.op).map BitVec.toNat := fun hmem =>
    h ((List.mem_map_of_injective BitVec.toNat_injective).mp hmem)
  unfold decode
  split
  case h_28 => rfl
  all_goals
    next hop =>
      rw [hop] at hnum
      exact absurd (by decide) hnum

/-- The check of the number stands first, whatever `fault` holds (R213). -/
theorem issueOperation_illegal {iss : Issuer} {op : Byte} {a : List Byte} (s : State)
    (h : decode op a = .illegalOperation op ∨ iss = .host ∧ isInternalOp op = true) :
    issueOperation iss op a s = .answered (raise (.illegalOperation op) s) := by
  unfold issueOperation
  split
  · rfl
  next hmay => rw [h.resolve_right hmay]

/-- Settles O52: the decoder has no row for a number that is not listed, and the host has no right to an internal one. -/
theorem illegalNumbersAreRefused : Obligations.IllegalNumbersAreRefused := by
  intro s iss op a rest hport hillegal
  have hrefused : decode op a = .illegalOperation op ∨ iss = .host ∧ isInternalOp op = true := by
    refine hillegal.imp (fun hop => decode_unlisted hop a) fun ⟨hhost, hop⟩ => ⟨hhost, ?_⟩
    have hinternal : ∀ o ∈ [0x72#8, 0x78#8, 0x79#8, 0x7A#8, 0x7B#8, 0x7C#8, 0x7D#8], isInternalOp o = true := by decide
    exact hinternal op hop
  have hissue : issue s = .answered (raise (.illegalOperation op) { s with port := rest }) := by
    simp only [issue, hport]
    exact issueOperation_illegal _ hrefused
  simp only [step, hissue, raise_of_not_fatal (isFatal_illegalOperation op)]

/-! ### When DFR.PUSH is refused (60_exceptions.md R209, R211) -/

/-- The first bad sample stands behind the good ones. -/
theorem firstBadSample_append {good : List Byte} (hgood : ∀ g ∈ good, g = 0#8 ∨ g = 1#8) {x : Byte} (hx : ¬ (x = 0#8 ∨ x = 1#8))
    (rest : List Byte) (n : Nat) : firstBadSample n (good ++ x :: rest) = some (n + good.length) := by
  induction good generalizing n with
  | nil => simp only [List.nil_append, firstBadSample, if_neg hx, List.length_nil, Nat.add_zero]
  | cons g good ih =>
    obtain ⟨hg, hgood⟩ := List.forall_mem_cons.mp hgood
    rw [List.cons_append, firstBadSample, if_pos hg, ih hgood, List.length_cons, Nat.add_right_comm, Nat.add_assoc]

section dfrPush
variable {s : State} (hf : s.fault = false)
include hf

theorem exec_dfrPush_notConfigured (hl : s.cfgLoaded = false) (q : List Byte) :
    exec (.dfrPush q) s = .next { s with result := .error .notConfigured, events := [] } := by
  change execDfrPushWith params q s = _
  rw [execDfrPushWith, guarded_running hf, if_pos hl, raise_of_not_fatal isFatal_notConfigured]

theorem exec_dfrPush_badBitSample (hl : s.cfgLoaded = true) {q : List Byte} {n : Nat} (hq : firstBadSample 0 q = some n) :
    exec (.dfrPush q) s = .next { s with result := .error (.badBitSample n), events := [] } := by
  change execDfrPushWith params q s = _
  rw [execDfrPushWith, guarded_running hf, if_neg (ne_false_of_eq_true hl), hq, ← raise_of_not_fatal (isFatal_badBitSample n)]

end dfrPush

/-- Settles O33: both checks stand before the bits are appended. -/
theorem dfrPushRefusals : Obligations.DfrPushRefusals := by
  refine ⟨fun s q hf hl => exec_dfrPush_notConfigured hf hl q, fun s good rest x hf hl hgood h0 h1 => ?_⟩
  have hbad := firstBadSample_append hgood (not_or.mpr ⟨h0, h1⟩) rest 0
  rw [Nat.zero_add] at hbad
  exact exec_dfrPush_badBitSample hf hl hbad

/-! ### The internal operations (30_encoding.md R74, log entries 3, 7 and 17) -/

theorem not_unselected_validate {s : State} (hsel : s.dfr.fstate = .awaitingData ∨ s.dfr.fstate = .awaitingDataFEC) :
    ¬ (s.dfr.fstate ≠ .awaitingData ∧ s.dfr.fstate ≠ .awaitingDataFEC) := by tauto

section internal
variable {s : State} (hf : s.fault = false)
include hf

theorem internalStep_unselected {f : FState} (hsel : s.dfr.fstate ≠ f) (op : Byte) (rule : Deframer → StepOutcome) :
    internalStep f op rule s = .next { s with result := .error (.illegalOperation op), events := [] } := by
  rw [internalStep, guarded_running hf, if_pos hsel, raise_of_not_fatal (isFatal_illegalOperation op)]

theorem exec_dfrValidate_unselected (hdata : s.dfr.fstate ≠ .awaitingData) (hfec : s.dfr.fstate ≠ .awaitingDataFEC)
    (body : List Byte) :
    exec (.dfrValidate body) s = .next { s with result := .error (.illegalOperation 0x72#8), events := [] } := by
  change execDfrValidate body s = _
  rw [execDfrValidate, guarded_running hf, if_pos ⟨hdata, hfec⟩, raise_of_not_fatal (isFatal_illegalOperation _)]

section selected
variable (hsel : s.dfr.fstate = .awaitingData ∨ s.dfr.fstate = .awaitingDataFEC) {body : List Byte}
include hsel

theorem exec_dfrValidate_operandType {len : Byte} (hlen : s.dfr.length = some len) (hbody : body.length ≠ len.toNat) :
    exec (.dfrValidate body) s = .next { s with result := .error (.operandType 0x72#8), events := [] } := by
  change execDfrValidate body s = _
  rw [execDfrValidate, guarded_running hf, if_neg (not_unselected_validate hsel), hlen, ← raise_of_not_fatal (isFatal_operandType _)]
  exact if_pos hbody

theorem exec_dfrValidate_stateAbsent (hlen : s.dfr.length = none) :
    exec (.dfrValidate body) s = .next { s with fault := true, result := .error (.stateAbsent .length), events := [] } := by
  change execDfrValidate body s = _
  rw [execDfrValidate, guarded_running hf, if_neg (not_unselected_validate hsel), hlen, ← raise_of_fatal (isFatal_stateAbsent _)]

end selected

end internal

/-- Settles O44: each of the seven operations looks at `fstate` before anything else of the deframer. -/
theorem unselectedInternalStepIsRefused : Obligations.UnselectedInternalStepIsRefused := by
  refine ⟨fun s f i hf hi hsel => ?_, fun s body hf hdata hfec => exec_dfrValidate_unselected hf hdata hfec body,
    fun s len body hf hsel hlen hbody => ⟨exec_dfrValidate_operandType hf hsel hlen hbody, rfl⟩,
    fun s body hf hsel hlen => exec_dfrValidate_stateAbsent hf hsel hlen⟩
  simp only [List.mem_cons, List.not_mem_nil, or_false, Prod.mk.injEq] at hi
  obtain ⟨rfl, rfl⟩ | ⟨rfl, rfl⟩ | ⟨rfl, rfl⟩ | ⟨rfl, rfl⟩ | ⟨rfl, rfl⟩ | ⟨rfl, rfl⟩ := hi <;>
    exact internalStep_unselected hf hsel _ _

end Machine
end Sys2Proof
